-- ==== Sys2Proof/Word.lean ====
section
/-! DEFINITION. The words of the SCC's command port and memory (spec rules R12, R13). -/

namespace Sys2Proof

/-- One byte of the frame buffer (R23). -/
abbrev Byte := BitVec 8

/-- The command word, the status registers and a binary32 pattern (R12, R29, R31, R17). -/
abbrev Word32 := BitVec 32

/-- The value operand, the staging word and the response data (R12). -/
abbrev Word64 := BitVec 64

end Sys2Proof
end

