-- ==== Sys2Proof/Config.lean ====
section
/-! DEFINITION. What the hardware fixes (R8 to R10, R36) and the one value the spec leaves open
(R178, `NAN_RESULT`). -/

namespace Sys2Proof.Config

/-- `BUFSIZE`, the allocated extent of the frame buffer in bytes (R8). -/
def bufSize : Nat := 64

/-- `NDESC`, the number of descriptor slots (R9). -/
def nDesc : Nat := 4

/-- `HAS_SCALE`, whether the scale/offset transform unit is present (R10). -/
def hasScale : Bool := true

/-- The binary32 operations that can return a NaN (R173 to R176). -/
inductive FpOp where
  | mul | add | sub | div
  deriving DecidableEq, Repr

/-- A NaN pattern: any sign, and a fraction that is not zero (R170). The payload counts from 0, so the
fraction field is `payload + 1` and every NaN pattern is written in exactly one way. -/
structure NanPattern where
  neg : Bool
  payload : Fin 8388607
  deriving DecidableEq, Repr, Inhabited

/-- `NAN_RESULT` (R178, decision D23): which NaN pattern an operation returns, a function of the
operation and its two operand patterns. A FREE VALUE: it has no body, so nothing can be proved of it
but that it is a NaN pattern. DESIGN CHOICE of its form, safe: see notes/assumptions/3.md. -/
opaque nanResult : FpOp → Word32 → Word32 → NanPattern

end Sys2Proof.Config
end

