-- ==== Sys2Proof/Syntax.lean ====
section
/-! DEFINITION. The instruction set: the operand types (R11, R64) and one constructor of `Instr` for each
row of spec/opcode_table.json (R63, R65, R77). -/

namespace Sys2Proof

/-- The nine operand types `T` of the codec instructions (R11). -/
inductive Ty where
  | u8 | i8 | u16 | i16 | u32 | i32 | u64 | i64 | f32
  deriving DecidableEq, Repr

/-- The instructions. Operands are the fields of the command word alone (R62, R69 to R71): `le` is the
byte-order bit (1 = little-endian, R66), `len` the literal bit length (R67), `start` the start bit (R68),
`k` a slot number, `index` a byte index. The packet fields `a`, `f`, `o` belong to the command packet
(R60), which the machine holds on its command port. -/
inductive Instr where
  -- GET.T, rule R110; one rule each, R112 to R120
  | getU8 (le : Bool) (len : BitVec 7) (start : BitVec 16)
  | getI8 (le : Bool) (len : BitVec 7) (start : BitVec 16)
  | getU16 (le : Bool) (len : BitVec 7) (start : BitVec 16)
  | getI16 (le : Bool) (len : BitVec 7) (start : BitVec 16)
  | getU32 (le : Bool) (len : BitVec 7) (start : BitVec 16)
  | getI32 (le : Bool) (len : BitVec 7) (start : BitVec 16)
  | getU64 (le : Bool) (len : BitVec 7) (start : BitVec 16)
  | getI64 (le : Bool) (len : BitVec 7) (start : BitVec 16)
  | getF32 (le : Bool) (len : BitVec 7) (start : BitVec 16)
  -- SET.T, rule R140; one rule each, R142 to R150
  | setU8 (le : Bool) (len : BitVec 7) (start : BitVec 16)
  | setI8 (le : Bool) (len : BitVec 7) (start : BitVec 16)
  | setU16 (le : Bool) (len : BitVec 7) (start : BitVec 16)
  | setI16 (le : Bool) (len : BitVec 7) (start : BitVec 16)
  | setU32 (le : Bool) (len : BitVec 7) (start : BitVec 16)
  | setI32 (le : Bool) (len : BitVec 7) (start : BitVec 16)
  | setU64 (le : Bool) (len : BitVec 7) (start : BitVec 16)
  | setI64 (le : Bool) (len : BitVec 7) (start : BitVec 16)
  | setF32 (le : Bool) (len : BitVec 7) (start : BitVec 16)
  -- GETS.T, rule R190; one rule each, R192 to R200
  | getsU8 (le : Bool) (len : BitVec 7) (start : BitVec 16)
  | getsI8 (le : Bool) (len : BitVec 7) (start : BitVec 16)
  | getsU16 (le : Bool) (len : BitVec 7) (start : BitVec 16)
  | getsI16 (le : Bool) (len : BitVec 7) (start : BitVec 16)
  | getsU32 (le : Bool) (len : BitVec 7) (start : BitVec 16)
  | getsI32 (le : Bool) (len : BitVec 7) (start : BitVec 16)
  | getsU64 (le : Bool) (len : BitVec 7) (start : BitVec 16)
  | getsI64 (le : Bool) (len : BitVec 7) (start : BitVec 16)
  | getsF32 (le : Bool) (len : BitVec 7) (start : BitVec 16)
  -- SETS.T, rule R230; one rule each, R232 to R240
  | setsU8 (le : Bool) (len : BitVec 7) (start : BitVec 16)
  | setsI8 (le : Bool) (len : BitVec 7) (start : BitVec 16)
  | setsU16 (le : Bool) (len : BitVec 7) (start : BitVec 16)
  | setsI16 (le : Bool) (len : BitVec 7) (start : BitVec 16)
  | setsU32 (le : Bool) (len : BitVec 7) (start : BitVec 16)
  | setsI32 (le : Bool) (len : BitVec 7) (start : BitVec 16)
  | setsU64 (le : Bool) (len : BitVec 7) (start : BitVec 16)
  | setsI64 (le : Bool) (len : BitVec 7) (start : BitVec 16)
  | setsF32 (le : Bool) (len : BitVec 7) (start : BitVec 16)
  -- GETD.T, rule R111; one rule each, R121 to R129
  | getdU8 (k : BitVec 4)
  | getdI8 (k : BitVec 4)
  | getdU16 (k : BitVec 4)
  | getdI16 (k : BitVec 4)
  | getdU32 (k : BitVec 4)
  | getdI32 (k : BitVec 4)
  | getdU64 (k : BitVec 4)
  | getdI64 (k : BitVec 4)
  | getdF32 (k : BitVec 4)
  -- SETD.T, rule R141; one rule each, R151 to R159
  | setdU8 (k : BitVec 4)
  | setdI8 (k : BitVec 4)
  | setdU16 (k : BitVec 4)
  | setdI16 (k : BitVec 4)
  | setdU32 (k : BitVec 4)
  | setdI32 (k : BitVec 4)
  | setdU64 (k : BitVec 4)
  | setdI64 (k : BitVec 4)
  | setdF32 (k : BitVec 4)
  -- GETSD.T, rule R191; one rule each, R201 to R209
  | getsdU8 (k : BitVec 4)
  | getsdI8 (k : BitVec 4)
  | getsdU16 (k : BitVec 4)
  | getsdI16 (k : BitVec 4)
  | getsdU32 (k : BitVec 4)
  | getsdI32 (k : BitVec 4)
  | getsdU64 (k : BitVec 4)
  | getsdI64 (k : BitVec 4)
  | getsdF32 (k : BitVec 4)
  -- SETSD.T, rule R231; one rule each, R241 to R249
  | setsdU8 (k : BitVec 4)
  | setsdI8 (k : BitVec 4)
  | setsdU16 (k : BitVec 4)
  | setsdI16 (k : BitVec 4)
  | setsdU32 (k : BitVec 4)
  | setsdI32 (k : BitVec 4)
  | setsdU64 (k : BitVec 4)
  | setsdI64 (k : BitVec 4)
  | setsdF32 (k : BitVec 4)
  -- DESC, rule R260
  | desc (k : BitVec 4) (le : Bool) (len : BitVec 7) (start : BitVec 16)
  -- the SYS functions, rules R261 to R268
  | nop
  | rdsr
  | clrsr
  | fclr
  | fwr
  | frd
  | rdb (index : BitVec 16)
  | wrb (index : BitVec 16)
  deriving DecidableEq, Repr

/-- `GET.T` with the type as an argument: the nine constructors of the family (R63, R64). -/
def Instr.get : Ty → Bool → BitVec 7 → BitVec 16 → Instr
  | .u8 => .getU8
  | .i8 => .getI8
  | .u16 => .getU16
  | .i16 => .getI16
  | .u32 => .getU32
  | .i32 => .getI32
  | .u64 => .getU64
  | .i64 => .getI64
  | .f32 => .getF32

/-- `SET.T` with the type as an argument: the nine constructors of the family (R63, R64). -/
def Instr.set : Ty → Bool → BitVec 7 → BitVec 16 → Instr
  | .u8 => .setU8
  | .i8 => .setI8
  | .u16 => .setU16
  | .i16 => .setI16
  | .u32 => .setU32
  | .i32 => .setI32
  | .u64 => .setU64
  | .i64 => .setI64
  | .f32 => .setF32

/-- `GETS.T` with the type as an argument: the nine constructors of the family (R63, R64). -/
def Instr.gets : Ty → Bool → BitVec 7 → BitVec 16 → Instr
  | .u8 => .getsU8
  | .i8 => .getsI8
  | .u16 => .getsU16
  | .i16 => .getsI16
  | .u32 => .getsU32
  | .i32 => .getsI32
  | .u64 => .getsU64
  | .i64 => .getsI64
  | .f32 => .getsF32

/-- `SETS.T` with the type as an argument: the nine constructors of the family (R63, R64). -/
def Instr.sets : Ty → Bool → BitVec 7 → BitVec 16 → Instr
  | .u8 => .setsU8
  | .i8 => .setsI8
  | .u16 => .setsU16
  | .i16 => .setsI16
  | .u32 => .setsU32
  | .i32 => .setsI32
  | .u64 => .setsU64
  | .i64 => .setsI64
  | .f32 => .setsF32

/-- `GETD.T` with the type as an argument: the nine constructors of the family (R63, R64). -/
def Instr.getd : Ty → BitVec 4 → Instr
  | .u8 => .getdU8
  | .i8 => .getdI8
  | .u16 => .getdU16
  | .i16 => .getdI16
  | .u32 => .getdU32
  | .i32 => .getdI32
  | .u64 => .getdU64
  | .i64 => .getdI64
  | .f32 => .getdF32

/-- `SETD.T` with the type as an argument: the nine constructors of the family (R63, R64). -/
def Instr.setd : Ty → BitVec 4 → Instr
  | .u8 => .setdU8
  | .i8 => .setdI8
  | .u16 => .setdU16
  | .i16 => .setdI16
  | .u32 => .setdU32
  | .i32 => .setdI32
  | .u64 => .setdU64
  | .i64 => .setdI64
  | .f32 => .setdF32

/-- `GETSD.T` with the type as an argument: the nine constructors of the family (R63, R64). -/
def Instr.getsd : Ty → BitVec 4 → Instr
  | .u8 => .getsdU8
  | .i8 => .getsdI8
  | .u16 => .getsdU16
  | .i16 => .getsdI16
  | .u32 => .getsdU32
  | .i32 => .getsdI32
  | .u64 => .getsdU64
  | .i64 => .getsdI64
  | .f32 => .getsdF32

/-- `SETSD.T` with the type as an argument: the nine constructors of the family (R63, R64). -/
def Instr.setsd : Ty → BitVec 4 → Instr
  | .u8 => .setsdU8
  | .i8 => .setsdI8
  | .u16 => .setsdU16
  | .i16 => .setsdI16
  | .u32 => .setsdU32
  | .i32 => .setsdI32
  | .u64 => .setsdU64
  | .i64 => .setsdI64
  | .f32 => .setsdF32

end Sys2Proof
end

