-- ==== Sys2Proof/WellFormed.lean ====
section
/-! DEFINITION. Which instructions a machine has. Every field of an instruction is a bit vector of the
width the command word gives it (R62), so the only thing left to check is that a scaled instruction
needs the scale/offset transform unit (R10, R74 condition 3, R184). -/

namespace Sys2Proof

/-- Whether an instruction is one of the four scaled operations (`OP` 3, 4, 7, 8; R74 condition 3). -/
def Instr.isScaled : Instr → Bool
  | .getU8 _ _ _ => false
  | .getI8 _ _ _ => false
  | .getU16 _ _ _ => false
  | .getI16 _ _ _ => false
  | .getU32 _ _ _ => false
  | .getI32 _ _ _ => false
  | .getU64 _ _ _ => false
  | .getI64 _ _ _ => false
  | .getF32 _ _ _ => false
  | .setU8 _ _ _ => false
  | .setI8 _ _ _ => false
  | .setU16 _ _ _ => false
  | .setI16 _ _ _ => false
  | .setU32 _ _ _ => false
  | .setI32 _ _ _ => false
  | .setU64 _ _ _ => false
  | .setI64 _ _ _ => false
  | .setF32 _ _ _ => false
  | .getsU8 _ _ _ => true
  | .getsI8 _ _ _ => true
  | .getsU16 _ _ _ => true
  | .getsI16 _ _ _ => true
  | .getsU32 _ _ _ => true
  | .getsI32 _ _ _ => true
  | .getsU64 _ _ _ => true
  | .getsI64 _ _ _ => true
  | .getsF32 _ _ _ => true
  | .setsU8 _ _ _ => true
  | .setsI8 _ _ _ => true
  | .setsU16 _ _ _ => true
  | .setsI16 _ _ _ => true
  | .setsU32 _ _ _ => true
  | .setsI32 _ _ _ => true
  | .setsU64 _ _ _ => true
  | .setsI64 _ _ _ => true
  | .setsF32 _ _ _ => true
  | .getdU8 _ => false
  | .getdI8 _ => false
  | .getdU16 _ => false
  | .getdI16 _ => false
  | .getdU32 _ => false
  | .getdI32 _ => false
  | .getdU64 _ => false
  | .getdI64 _ => false
  | .getdF32 _ => false
  | .setdU8 _ => false
  | .setdI8 _ => false
  | .setdU16 _ => false
  | .setdI16 _ => false
  | .setdU32 _ => false
  | .setdI32 _ => false
  | .setdU64 _ => false
  | .setdI64 _ => false
  | .setdF32 _ => false
  | .getsdU8 _ => true
  | .getsdI8 _ => true
  | .getsdU16 _ => true
  | .getsdI16 _ => true
  | .getsdU32 _ => true
  | .getsdI32 _ => true
  | .getsdU64 _ => true
  | .getsdI64 _ => true
  | .getsdF32 _ => true
  | .setsdU8 _ => true
  | .setsdI8 _ => true
  | .setsdU16 _ => true
  | .setsdI16 _ => true
  | .setsdU32 _ => true
  | .setsdI32 _ => true
  | .setsdU64 _ => true
  | .setsdI64 _ => true
  | .setsdF32 _ => true
  | .desc _ _ _ _ => false
  | .nop => false
  | .rdsr => false
  | .clrsr => false
  | .fclr => false
  | .fwr => false
  | .frd => false
  | .rdb _ => false
  | .wrb _ => false

/-- Well-formed on a machine whose `HAS_SCALE` is the argument (R184). -/
def Instr.wellFormedWith (hasScale : Bool) (i : Instr) : Bool := hasScale || !i.isScaled

/-- Well-formed on this hardware (R10). -/
def Instr.wellFormed (i : Instr) : Bool := i.wellFormedWith Config.hasScale

end Sys2Proof
end

