-- ==== Sys2Proof/Decode.lean ====
section
/-! DEFINITION. The command word: its five fields (R62), the type codes (R64), the decoder, total on
every 32-bit word and refusing by name (R74, R77), the encoder written from the same tables, and the
assembler's packet and mnemonics (R78). -/

namespace Sys2Proof

/-- Why a command word is illegal: the seven conditions of R74, in its order. Every one of them is the
one error `ILLEGAL` of the machine (R292). -/
inductive Illegal where
  /-- R74 condition 1: `OP` is `0x0` or `0xB` to `0xF`. -/
  | reservedOp
  /-- R74 condition 2: a codec operation with a reserved type code. -/
  | reservedType
  /-- R74 condition 3: a scaled operation on a machine without the scale/offset unit. -/
  | noScaleUnit
  /-- R74 condition 4: a must-be-zero field of a descriptor-bound word is not zero. -/
  | boundFieldNotZero
  /-- R74 condition 5: a reserved `SYS` function. -/
  | reservedFunction
  /-- R74 condition 6: `LE` or `LEN` of a `SYS` word is not zero. -/
  | sysFieldNotZero
  /-- R74 condition 7: `START` of a `SYS` word of functions 0 to 5 is not zero. -/
  | sysStartNotZero
  deriving DecidableEq, Repr

/-- `OP`, bits 31:28 of the command word (R62). -/
def fieldOp (cw : Word32) : BitVec 4 := cw.extractLsb' 28 4

/-- `TY`, bits 27:24 (R62). -/
def fieldTy (cw : Word32) : BitVec 4 := cw.extractLsb' 24 4

/-- `LE`, bit 23 (R62, R66). -/
def fieldLeBit (cw : Word32) : Bool := cw.getLsbD 23

/-- `LEN`, bits 22:16, the literal length (R62, R67). -/
def fieldLen (cw : Word32) : BitVec 7 := cw.extractLsb' 16 7

/-- `START`, bits 15:0 (R62, R68). -/
def fieldStart (cw : Word32) : BitVec 16 := cw.extractLsb' 0 16

/-- `START[3:0]`, the slot number of a descriptor-bound word (R69). -/
def fieldSlot (cw : Word32) : BitVec 4 := cw.extractLsb' 0 4

/-- The type code `TY = {FL, SZ[1:0], SG}` of a type (R64). -/
def Ty.code : Ty → BitVec 4
  | .u8 => 0x0#4
  | .i8 => 0x1#4
  | .u16 => 0x2#4
  | .i16 => 0x3#4
  | .u32 => 0x4#4
  | .i32 => 0x5#4
  | .u64 => 0x6#4
  | .i64 => 0x7#4
  | .f32 => 0xC#4

/-- The type a code names; none for the reserved codes `0x8` to `0xB` and `0xD` to `0xF` (R64). -/
def Ty.ofCode (c : BitVec 4) : Option Ty :=
  match c.toNat with
  | 0 => some .u8
  | 1 => some .i8
  | 2 => some .u16
  | 3 => some .i16
  | 4 => some .u32
  | 5 => some .i32
  | 6 => some .u64
  | 7 => some .i64
  | 12 => some .f32
  | _ => none

/-- A codec word of `OP` 1 to 4: the layout is in the word (R63, R77). -/
def decodePositional (family : Ty → Bool → BitVec 7 → BitVec 16 → Instr) (scaled hasScale : Bool)
    (cw : Word32) : Except Illegal Instr :=
  match Ty.ofCode (fieldTy cw) with
  | none => .error .reservedType
  | some T =>
    if scaled && !hasScale then .error .noScaleUnit
    else .ok (family T (fieldLeBit cw) (fieldLen cw) (fieldStart cw))

/-- A codec word of `OP` 5 to 8: `LE`, `LEN` and `START[15:4]` must be zero, the slot number is
`START[3:0]` (R69, R77). -/
def decodeBound (family : Ty → BitVec 4 → Instr) (scaled hasScale : Bool) (cw : Word32) :
    Except Illegal Instr :=
  match Ty.ofCode (fieldTy cw) with
  | none => .error .reservedType
  | some T =>
    if scaled && !hasScale then .error .noScaleUnit
    else if cw.extractLsb' 4 20 = 0#20 then .ok (family T (fieldSlot cw))
    else .error .boundFieldNotZero

/-- A `SYS` word (`OP = 0xA`): the function is `TY`; `LE` and `LEN` must be zero, and `START` too but
for `RDB` and `WRB`, whose byte index it is (R65, R71, R77). -/
def decodeSys (cw : Word32) : Except Illegal Instr :=
  if 8 ≤ (fieldTy cw).toNat then .error .reservedFunction
  else if cw.extractLsb' 16 8 ≠ 0#8 then .error .sysFieldNotZero
  else if (fieldTy cw).toNat ≤ 5 ∧ fieldStart cw ≠ 0#16 then .error .sysStartNotZero
  else match (fieldTy cw).toNat with
    | 0 => .ok .nop
    | 1 => .ok .rdsr
    | 2 => .ok .clrsr
    | 3 => .ok .fclr
    | 4 => .ok .fwr
    | 5 => .ok .frd
    | 6 => .ok (.rdb (fieldStart cw))
    | _ => .ok (.wrb (fieldStart cw))

/-- The decoder of a machine whose `HAS_SCALE` is the argument (R77). -/
def decodeWith (hasScale : Bool) (cw : Word32) : Except Illegal Instr :=
  match (fieldOp cw).toNat with
  | 1 => decodePositional Instr.get false hasScale cw
  | 2 => decodePositional Instr.set false hasScale cw
  | 3 => decodePositional Instr.gets true hasScale cw
  | 4 => decodePositional Instr.sets true hasScale cw
  | 5 => decodeBound Instr.getd false hasScale cw
  | 6 => decodeBound Instr.setd false hasScale cw
  | 7 => decodeBound Instr.getsd true hasScale cw
  | 8 => decodeBound Instr.setsd true hasScale cw
  | 9 => .ok (.desc (fieldTy cw) (fieldLeBit cw) (fieldLen cw) (fieldStart cw))
  | 10 => decodeSys cw
  | _ => .error .reservedOp

/-- The decoder of this hardware (R77, R10). -/
def decode (cw : Word32) : Except Illegal Instr := decodeWith Config.hasScale cw

/-- `cw = {OP, TY, LE, LEN, START}` (R62). -/
def encodeFields (op ty : BitVec 4) (le : Bool) (len : BitVec 7) (start : BitVec 16) : Word32 :=
  op ++ ty ++ BitVec.ofBool le ++ len ++ start

/-- `cw = {OP, TY(T), 0, 0000000, 000000000000, k}` (R69). -/
def encodeBound (op ty k : BitVec 4) : Word32 :=
  op ++ ty ++ 0#20 ++ k

/-- The command word of an instruction, from the encodings of R112 to R120, R142 to R150, R192 to R200,
R232 to R240 (positional), R121 to R129, R151 to R159, R201 to R209, R241 to R249 (descriptor-bound) and
R260 to R268. -/
def encode : Instr → Word32
  | .getU8 le len start => encodeFields 1#4 0x0#4 le len start
  | .getI8 le len start => encodeFields 1#4 0x1#4 le len start
  | .getU16 le len start => encodeFields 1#4 0x2#4 le len start
  | .getI16 le len start => encodeFields 1#4 0x3#4 le len start
  | .getU32 le len start => encodeFields 1#4 0x4#4 le len start
  | .getI32 le len start => encodeFields 1#4 0x5#4 le len start
  | .getU64 le len start => encodeFields 1#4 0x6#4 le len start
  | .getI64 le len start => encodeFields 1#4 0x7#4 le len start
  | .getF32 le len start => encodeFields 1#4 0xC#4 le len start
  | .setU8 le len start => encodeFields 2#4 0x0#4 le len start
  | .setI8 le len start => encodeFields 2#4 0x1#4 le len start
  | .setU16 le len start => encodeFields 2#4 0x2#4 le len start
  | .setI16 le len start => encodeFields 2#4 0x3#4 le len start
  | .setU32 le len start => encodeFields 2#4 0x4#4 le len start
  | .setI32 le len start => encodeFields 2#4 0x5#4 le len start
  | .setU64 le len start => encodeFields 2#4 0x6#4 le len start
  | .setI64 le len start => encodeFields 2#4 0x7#4 le len start
  | .setF32 le len start => encodeFields 2#4 0xC#4 le len start
  | .getsU8 le len start => encodeFields 3#4 0x0#4 le len start
  | .getsI8 le len start => encodeFields 3#4 0x1#4 le len start
  | .getsU16 le len start => encodeFields 3#4 0x2#4 le len start
  | .getsI16 le len start => encodeFields 3#4 0x3#4 le len start
  | .getsU32 le len start => encodeFields 3#4 0x4#4 le len start
  | .getsI32 le len start => encodeFields 3#4 0x5#4 le len start
  | .getsU64 le len start => encodeFields 3#4 0x6#4 le len start
  | .getsI64 le len start => encodeFields 3#4 0x7#4 le len start
  | .getsF32 le len start => encodeFields 3#4 0xC#4 le len start
  | .setsU8 le len start => encodeFields 4#4 0x0#4 le len start
  | .setsI8 le len start => encodeFields 4#4 0x1#4 le len start
  | .setsU16 le len start => encodeFields 4#4 0x2#4 le len start
  | .setsI16 le len start => encodeFields 4#4 0x3#4 le len start
  | .setsU32 le len start => encodeFields 4#4 0x4#4 le len start
  | .setsI32 le len start => encodeFields 4#4 0x5#4 le len start
  | .setsU64 le len start => encodeFields 4#4 0x6#4 le len start
  | .setsI64 le len start => encodeFields 4#4 0x7#4 le len start
  | .setsF32 le len start => encodeFields 4#4 0xC#4 le len start
  | .getdU8 k => encodeBound 5#4 0x0#4 k
  | .getdI8 k => encodeBound 5#4 0x1#4 k
  | .getdU16 k => encodeBound 5#4 0x2#4 k
  | .getdI16 k => encodeBound 5#4 0x3#4 k
  | .getdU32 k => encodeBound 5#4 0x4#4 k
  | .getdI32 k => encodeBound 5#4 0x5#4 k
  | .getdU64 k => encodeBound 5#4 0x6#4 k
  | .getdI64 k => encodeBound 5#4 0x7#4 k
  | .getdF32 k => encodeBound 5#4 0xC#4 k
  | .setdU8 k => encodeBound 6#4 0x0#4 k
  | .setdI8 k => encodeBound 6#4 0x1#4 k
  | .setdU16 k => encodeBound 6#4 0x2#4 k
  | .setdI16 k => encodeBound 6#4 0x3#4 k
  | .setdU32 k => encodeBound 6#4 0x4#4 k
  | .setdI32 k => encodeBound 6#4 0x5#4 k
  | .setdU64 k => encodeBound 6#4 0x6#4 k
  | .setdI64 k => encodeBound 6#4 0x7#4 k
  | .setdF32 k => encodeBound 6#4 0xC#4 k
  | .getsdU8 k => encodeBound 7#4 0x0#4 k
  | .getsdI8 k => encodeBound 7#4 0x1#4 k
  | .getsdU16 k => encodeBound 7#4 0x2#4 k
  | .getsdI16 k => encodeBound 7#4 0x3#4 k
  | .getsdU32 k => encodeBound 7#4 0x4#4 k
  | .getsdI32 k => encodeBound 7#4 0x5#4 k
  | .getsdU64 k => encodeBound 7#4 0x6#4 k
  | .getsdI64 k => encodeBound 7#4 0x7#4 k
  | .getsdF32 k => encodeBound 7#4 0xC#4 k
  | .setsdU8 k => encodeBound 8#4 0x0#4 k
  | .setsdI8 k => encodeBound 8#4 0x1#4 k
  | .setsdU16 k => encodeBound 8#4 0x2#4 k
  | .setsdI16 k => encodeBound 8#4 0x3#4 k
  | .setsdU32 k => encodeBound 8#4 0x4#4 k
  | .setsdI32 k => encodeBound 8#4 0x5#4 k
  | .setsdU64 k => encodeBound 8#4 0x6#4 k
  | .setsdI64 k => encodeBound 8#4 0x7#4 k
  | .setsdF32 k => encodeBound 8#4 0xC#4 k
  | .desc k le len start => encodeFields 9#4 k le len start
  | .nop => encodeFields 0xA#4 0#4 false 0#7 0#16
  | .rdsr => encodeFields 0xA#4 1#4 false 0#7 0#16
  | .clrsr => encodeFields 0xA#4 2#4 false 0#7 0#16
  | .fclr => encodeFields 0xA#4 3#4 false 0#7 0#16
  | .fwr => encodeFields 0xA#4 4#4 false 0#7 0#16
  | .frd => encodeFields 0xA#4 5#4 false 0#7 0#16
  | .rdb index => encodeFields 0xA#4 6#4 false 0#7 index
  | .wrb index => encodeFields 0xA#4 7#4 false 0#7 index

/-- The packet fields an instruction uses: `a`, and `f` with `o` (R60). -/
structure UsedOperands where
  a : Bool
  fo : Bool
  deriving DecidableEq, Repr

/-- Which of the packet's operands an instruction uses; it ignores the others (R60, R72). -/
def Instr.uses : Instr → UsedOperands
  | .getU8 _ _ _ => ⟨false, false⟩
  | .getI8 _ _ _ => ⟨false, false⟩
  | .getU16 _ _ _ => ⟨false, false⟩
  | .getI16 _ _ _ => ⟨false, false⟩
  | .getU32 _ _ _ => ⟨false, false⟩
  | .getI32 _ _ _ => ⟨false, false⟩
  | .getU64 _ _ _ => ⟨false, false⟩
  | .getI64 _ _ _ => ⟨false, false⟩
  | .getF32 _ _ _ => ⟨false, false⟩
  | .setU8 _ _ _ => ⟨true, false⟩
  | .setI8 _ _ _ => ⟨true, false⟩
  | .setU16 _ _ _ => ⟨true, false⟩
  | .setI16 _ _ _ => ⟨true, false⟩
  | .setU32 _ _ _ => ⟨true, false⟩
  | .setI32 _ _ _ => ⟨true, false⟩
  | .setU64 _ _ _ => ⟨true, false⟩
  | .setI64 _ _ _ => ⟨true, false⟩
  | .setF32 _ _ _ => ⟨true, false⟩
  | .getsU8 _ _ _ => ⟨false, true⟩
  | .getsI8 _ _ _ => ⟨false, true⟩
  | .getsU16 _ _ _ => ⟨false, true⟩
  | .getsI16 _ _ _ => ⟨false, true⟩
  | .getsU32 _ _ _ => ⟨false, true⟩
  | .getsI32 _ _ _ => ⟨false, true⟩
  | .getsU64 _ _ _ => ⟨false, true⟩
  | .getsI64 _ _ _ => ⟨false, true⟩
  | .getsF32 _ _ _ => ⟨false, true⟩
  | .setsU8 _ _ _ => ⟨true, true⟩
  | .setsI8 _ _ _ => ⟨true, true⟩
  | .setsU16 _ _ _ => ⟨true, true⟩
  | .setsI16 _ _ _ => ⟨true, true⟩
  | .setsU32 _ _ _ => ⟨true, true⟩
  | .setsI32 _ _ _ => ⟨true, true⟩
  | .setsU64 _ _ _ => ⟨true, true⟩
  | .setsI64 _ _ _ => ⟨true, true⟩
  | .setsF32 _ _ _ => ⟨true, true⟩
  | .getdU8 _ => ⟨false, false⟩
  | .getdI8 _ => ⟨false, false⟩
  | .getdU16 _ => ⟨false, false⟩
  | .getdI16 _ => ⟨false, false⟩
  | .getdU32 _ => ⟨false, false⟩
  | .getdI32 _ => ⟨false, false⟩
  | .getdU64 _ => ⟨false, false⟩
  | .getdI64 _ => ⟨false, false⟩
  | .getdF32 _ => ⟨false, false⟩
  | .setdU8 _ => ⟨true, false⟩
  | .setdI8 _ => ⟨true, false⟩
  | .setdU16 _ => ⟨true, false⟩
  | .setdI16 _ => ⟨true, false⟩
  | .setdU32 _ => ⟨true, false⟩
  | .setdI32 _ => ⟨true, false⟩
  | .setdU64 _ => ⟨true, false⟩
  | .setdI64 _ => ⟨true, false⟩
  | .setdF32 _ => ⟨true, false⟩
  | .getsdU8 _ => ⟨false, false⟩
  | .getsdI8 _ => ⟨false, false⟩
  | .getsdU16 _ => ⟨false, false⟩
  | .getsdI16 _ => ⟨false, false⟩
  | .getsdU32 _ => ⟨false, false⟩
  | .getsdI32 _ => ⟨false, false⟩
  | .getsdU64 _ => ⟨false, false⟩
  | .getsdI64 _ => ⟨false, false⟩
  | .getsdF32 _ => ⟨false, false⟩
  | .setsdU8 _ => ⟨true, false⟩
  | .setsdI8 _ => ⟨true, false⟩
  | .setsdU16 _ => ⟨true, false⟩
  | .setsdI16 _ => ⟨true, false⟩
  | .setsdU32 _ => ⟨true, false⟩
  | .setsdI32 _ => ⟨true, false⟩
  | .setsdU64 _ => ⟨true, false⟩
  | .setsdI64 _ => ⟨true, false⟩
  | .setsdF32 _ => ⟨true, false⟩
  | .desc _ _ _ _ => ⟨false, true⟩
  | .nop => ⟨false, false⟩
  | .rdsr => ⟨false, false⟩
  | .clrsr => ⟨false, false⟩
  | .fclr => ⟨false, false⟩
  | .fwr => ⟨true, false⟩
  | .frd => ⟨false, false⟩
  | .rdb _ => ⟨false, false⟩
  | .wrb _ => ⟨true, false⟩

/-- The mnemonic of an instruction in the assembler's spelling (R78, R79). -/
def Instr.mnemonic : Instr → String
  | .getU8 _ _ _ => "GET.U8"
  | .getI8 _ _ _ => "GET.I8"
  | .getU16 _ _ _ => "GET.U16"
  | .getI16 _ _ _ => "GET.I16"
  | .getU32 _ _ _ => "GET.U32"
  | .getI32 _ _ _ => "GET.I32"
  | .getU64 _ _ _ => "GET.U64"
  | .getI64 _ _ _ => "GET.I64"
  | .getF32 _ _ _ => "GET.F32"
  | .setU8 _ _ _ => "SET.U8"
  | .setI8 _ _ _ => "SET.I8"
  | .setU16 _ _ _ => "SET.U16"
  | .setI16 _ _ _ => "SET.I16"
  | .setU32 _ _ _ => "SET.U32"
  | .setI32 _ _ _ => "SET.I32"
  | .setU64 _ _ _ => "SET.U64"
  | .setI64 _ _ _ => "SET.I64"
  | .setF32 _ _ _ => "SET.F32"
  | .getsU8 _ _ _ => "GETS.U8"
  | .getsI8 _ _ _ => "GETS.I8"
  | .getsU16 _ _ _ => "GETS.U16"
  | .getsI16 _ _ _ => "GETS.I16"
  | .getsU32 _ _ _ => "GETS.U32"
  | .getsI32 _ _ _ => "GETS.I32"
  | .getsU64 _ _ _ => "GETS.U64"
  | .getsI64 _ _ _ => "GETS.I64"
  | .getsF32 _ _ _ => "GETS.F32"
  | .setsU8 _ _ _ => "SETS.U8"
  | .setsI8 _ _ _ => "SETS.I8"
  | .setsU16 _ _ _ => "SETS.U16"
  | .setsI16 _ _ _ => "SETS.I16"
  | .setsU32 _ _ _ => "SETS.U32"
  | .setsI32 _ _ _ => "SETS.I32"
  | .setsU64 _ _ _ => "SETS.U64"
  | .setsI64 _ _ _ => "SETS.I64"
  | .setsF32 _ _ _ => "SETS.F32"
  | .getdU8 _ => "GETD.U8"
  | .getdI8 _ => "GETD.I8"
  | .getdU16 _ => "GETD.U16"
  | .getdI16 _ => "GETD.I16"
  | .getdU32 _ => "GETD.U32"
  | .getdI32 _ => "GETD.I32"
  | .getdU64 _ => "GETD.U64"
  | .getdI64 _ => "GETD.I64"
  | .getdF32 _ => "GETD.F32"
  | .setdU8 _ => "SETD.U8"
  | .setdI8 _ => "SETD.I8"
  | .setdU16 _ => "SETD.U16"
  | .setdI16 _ => "SETD.I16"
  | .setdU32 _ => "SETD.U32"
  | .setdI32 _ => "SETD.I32"
  | .setdU64 _ => "SETD.U64"
  | .setdI64 _ => "SETD.I64"
  | .setdF32 _ => "SETD.F32"
  | .getsdU8 _ => "GETSD.U8"
  | .getsdI8 _ => "GETSD.I8"
  | .getsdU16 _ => "GETSD.U16"
  | .getsdI16 _ => "GETSD.I16"
  | .getsdU32 _ => "GETSD.U32"
  | .getsdI32 _ => "GETSD.I32"
  | .getsdU64 _ => "GETSD.U64"
  | .getsdI64 _ => "GETSD.I64"
  | .getsdF32 _ => "GETSD.F32"
  | .setsdU8 _ => "SETSD.U8"
  | .setsdI8 _ => "SETSD.I8"
  | .setsdU16 _ => "SETSD.U16"
  | .setsdI16 _ => "SETSD.I16"
  | .setsdU32 _ => "SETSD.U32"
  | .setsdI32 _ => "SETSD.I32"
  | .setsdU64 _ => "SETSD.U64"
  | .setsdI64 _ => "SETSD.I64"
  | .setsdF32 _ => "SETSD.F32"
  | .desc _ _ _ _ => "DESC"
  | .nop => "NOP"
  | .rdsr => "RDSR"
  | .clrsr => "CLRSR"
  | .fclr => "FCLR"
  | .fwr => "FWR"
  | .frd => "FRD"
  | .rdb _ => "RDB"
  | .wrb _ => "WRB"

/-- The instruction the decoder reads from an opcode-table row's bits `w`: a command is one 32-bit word
presented whole (R60, R62), so the word is `w` itself, with every bit at or above `nbits` zero. -/
def decodeTableWord (nbits w : Nat) : Option Instr :=
  match decode (BitVec.ofNat 32 (w % 2 ^ nbits)) with
  | .ok i => some i
  | .error _ => none

end Sys2Proof
end

