-- ==== Sys2Proof/Machine/State.lean ====
section
/-! DEFINITION. The state of the SCC: the five items of R20 (`BUF`, `FH`, `DESC`, `SR`, `ECW`), and two
fields of the model's own, the host's pending events and the response port. -/

namespace Sys2Proof.Machine

/-- The frame buffer's contents as (index, byte) pairs, indices strictly rising and no byte zero; an index
that is not listed holds `0x00`, the reset contents (R23, R35). Canonical form: `Memory.wf`. -/
abbrev Memory := List Host.Cell

/-- `FH`, the six stored fields of the frame header (R24). -/
structure Header where
  id : BitVec 29
  ext : Bool
  rtr : Bool
  brs : Bool
  fdf : Bool
  dlen : BitVec 7
  deriving DecidableEq, Repr

/-- One descriptor slot `DESC[k]` (R27). -/
structure Desc where
  v : Bool
  start : BitVec 16
  len : BitVec 7
  le : Bool
  f : Word32
  o : Word32
  deriving DecidableEq, Repr

/-- A command packet (R60). -/
structure Packet where
  cw : Word32
  a : Word64
  f : Word32
  o : Word32
  deriving DecidableEq, Repr

/-- What the host can do to the SCC: present a command (R60), or apply the reset event between commands
(R320). -/
inductive HostEvent where
  | command (p : Packet)
  | reset
  deriving DecidableEq, Repr

/-- The outcome of a command: no error, or one of the six causes (R291; codes 7 to 15 are never
produced). -/
inductive Err where
  | ok | illegal | nodesc | length | span | bounds | conv
  deriving DecidableEq, Repr

/-- The response of a command (R61). -/
structure Response where
  err : Err
  ovf : Bool
  data : Word64
  deriving DecidableEq, Repr

/-- The state. `buf`, `fh`, `desc`, `sr`, `ecw` are the SCC's (R20). `inputs` is the host's command
sequence, the head being presented now (R22; notes/assumptions/1.md), and `resp` the response port (R61;
notes/assumptions/2.md): the model's own fields, which no command can observe. -/
structure State where
  buf : Memory
  fh : Header
  desc : Vector Desc Config.nDesc
  sr : Word32
  ecw : Word32
  inputs : List HostEvent
  resp : Response
  deriving DecidableEq, Repr

/-- Reasons the machine stops with a fault: none. An error of the SCC is a response code and never stops
the machine (R290, R301; 93_implementation_defined.md: no behaviour is `stuck`), so the type has no
constructor and no step can answer a fault. Safe: nothing the spec allows is cut off. -/
inductive Fault where
  deriving DecidableEq, Repr

/-- Reasons a meaning is refused. -/
inductive Refusal where
  /-- Raised by `exec` for an instruction that has no meaning yet, by its mnemonic: by none today. Safe. -/
  | notModelled (mnemonic : String)
  deriving DecidableEq, Repr

/-- The frame header right after reset (R24, R35, R321). -/
def Header.reset : Header :=
  { id := 0, ext := false, rtr := false, brs := false, fdf := false, dlen := 0 }

/-- A descriptor slot right after reset (R27, R35, R321). -/
def Desc.reset : Desc := { v := false, start := 0, len := 0, le := false, f := 0, o := 0 }

/-- The response port when no command has completed since reset. DESIGN CHOICE, see
notes/assumptions/2.md. -/
def Response.idle : Response := { err := .ok, ovf := false, data := 0 }

/-- The state right after reset (R35, R321): every byte, header field, slot and status register zero, no
command presented (notes/assumptions/1.md). -/
def State.reset : State :=
  { buf := [], fh := Header.reset, desc := Vector.replicate Config.nDesc Desc.reset
    sr := 0, ecw := 0, inputs := [], resp := Response.idle }

end Sys2Proof.Machine
end

