-- ==== Sys2Proof/Machine/Operands.lean ====
section
/-! DEFINITION. Operand forms: the command packet (R60, R72, R78), the types' widths and ranges (R11,
R221), the layout operands, the packed frame header (R24), the error codes (R291) and what `data`
carries (R81). -/

namespace Sys2Proof

/-- `W(T)`, the width of the type in bits (R11). -/
def Ty.width : Ty → Nat
  | .u8 => 8
  | .i8 => 8
  | .u16 => 16
  | .i16 => 16
  | .u32 => 32
  | .i32 => 32
  | .u64 => 64
  | .i64 => 64
  | .f32 => 32

/-- Whether the type is a signed integer (R64). -/
def Ty.signed : Ty → Bool
  | .i8 => true
  | .i16 => true
  | .i32 => true
  | .i64 => true
  | .u8 => false
  | .u16 => false
  | .u32 => false
  | .u64 => false
  | .f32 => false

/-- `Tmin(T)` of an integer type (R221). -/
def Ty.minInt (T : Ty) : Int := if T.signed then -(2 ^ (T.width - 1) : Int) else 0

/-- `Tmax(T)` of an integer type (R221). -/
def Ty.maxInt (T : Ty) : Int :=
  if T.signed then 2 ^ (T.width - 1) - 1 else 2 ^ T.width - 1

/-- `zext_64(v[W(T)-1:0])`: the low `W(T)` bits of a 64-bit value, zero-extended. It is both the result
pattern of an extraction (R81, R110) and the value operand of an insertion (R72, R140). -/
def Ty.pattern (T : Ty) (v : Word64) : Word64 := (v.setWidth (T.width)).setWidth 64

end Sys2Proof

namespace Sys2Proof.Machine

/-- The packet on the command port when the host presents no command. Only a meaning applied by hand to
such a state reads it; `step` never does. DESIGN CHOICE, see notes/assumptions/5.md. -/
def Packet.zero : Packet := { cw := 0, a := 0, f := 0, o := 0 }

/-- The command packet being performed: the head of the host's sequence (R22, R60). -/
def State.packet (s : State) : Packet :=
  match s.inputs with
  | .command p :: _ => p
  | _ => Packet.zero

/-- The packet the assembler makes of an instruction and its operands: an operand the instruction ignores
is assembled as zero (R78). -/
def Packet.assemble (i : Instr) (a : Word64) (f o : Word32) : Packet :=
  { cw := encode i
    a := if i.uses.a then a else 0
    f := if i.uses.fo then f else 0
    o := if i.uses.fo then o else 0 }

/-- The layout operands of a codec instruction, from the command word or from a descriptor slot. -/
structure Layout where
  start : BitVec 16
  len : BitVec 7
  le : Bool
  deriving DecidableEq, Repr

/-- The layout a descriptor slot holds (R111). -/
def Desc.layout (d : Desc) : Layout := { start := d.start, len := d.len, le := d.le }

/-- `FrameValid()` (R25). -/
def Header.valid (h : Header) : Bool :=
  !(h.rtr && h.fdf) && !(h.brs && !h.fdf) && decide (h.dlen.toNat ≤ 64)

/-- The packed header that `FRD` returns: `VALID` in bit 40, bits 63:41 zero (R24, R266). -/
def Header.pack (h : Header) : Word64 :=
  0#23 ++ BitVec.ofBool h.valid ++ h.dlen ++ BitVec.ofBool h.fdf ++ BitVec.ofBool h.brs ++
    BitVec.ofBool h.rtr ++ BitVec.ofBool h.ext ++ h.id

/-- The header that `FWR` stores from `a[39:0]` (R24, R265). -/
def Header.unpack (a : Word64) : Header :=
  { id := a.extractLsb' 0 29, ext := a.getLsbD 29, rtr := a.getLsbD 30, brs := a.getLsbD 31
    fdf := a.getLsbD 32, dlen := a.extractLsb' 33 7 }

/-- The error codes (R291). -/
def Err.code : Err → Nat
  | .ok => 0
  | .illegal => 1
  | .nodesc => 2
  | .length => 3
  | .span => 4
  | .bounds => 5
  | .conv => 6

/-- The 4-bit `err` field of a response (R61). -/
def Response.errField (r : Response) : BitVec 4 := BitVec.ofNat 4 r.err.code

end Sys2Proof.Machine
end

