-- ==== Sys2Proof/Machine/Flags.lean ====
section
/-! DEFINITION. The condition flag `ovf` (R32) and what the end of a command does to the sticky status
register `SR` (R29, R30) and the error command word `ECW` (R31). -/

namespace Sys2Proof.Machine

/-- `ovf` of an insertion: the value has a bit outside the mask (R97, R140). -/
def overflow (v mask : Word64) : Bool := (v &&& ~~~mask) != 0#64

/-- `SR` at the end of a command with response `r` (R30): `SR[err] <- 1` on an error, `SR[0] <- 1` on
`ovf`; no bit is cleared. -/
def srAfter (r : Response) (sr : Word32) : Word32 :=
  let withErr := if r.err = .ok then sr else sr ||| (1#32 <<< r.err.code)
  if r.ovf then withErr ||| 1#32 else withErr

/-- `SR[6:1]`, the error bits (R31). -/
def errorBits (sr : Word32) : BitVec 6 := sr.extractLsb' 1 6

/-- `ECW` at the end of a command with word `cw` and response `r`, from `SR` before the command (R31,
R300). -/
def ecwAfter (cw : Word32) (r : Response) (sr ecw : Word32) : Word32 :=
  if r.err ≠ .ok ∧ errorBits sr = 0#6 then cw else ecw

end Sys2Proof.Machine
end

