-- ==== Sys2Proof/Machine/Ops.lean ====
section
/-! DEFINITION. The named operations over memory, descriptor slots, status and the response port, with
the error mechanism (R16, R290, R300): the one way a command ends, in success or in error. -/

namespace Sys2Proof.Machine

/-! ### The frame buffer (R23, R40) -/

/-- Byte `i` of the buffer; an index that is not listed holds `0x00` (R23, R35). -/
def Memory.read : Memory → Nat → Byte
  | [], _ => 0
  | (a, b) :: m, i => if a = i then b else Memory.read m i

/-- `BUF[i] <- v`, keeping the canonical form: writing `0x00` removes the entry. -/
def Memory.write : Memory → Nat → Byte → Memory
  | [], i, v => if v = 0 then [] else [(i, v)]
  | (a, b) :: m, i, v =>
    if i < a then (if v = 0 then (a, b) :: m else (i, v) :: (a, b) :: m)
    else if i = a then (if v = 0 then m else (i, v) :: m)
    else (a, b) :: Memory.write m i v

/-- The canonical form of a buffer of extent `n`, from index `lo` on: indices at least `lo`, strictly
rising, below `n`, and no byte `0x00`. -/
def Memory.wfFrom (n : Nat) : Nat → Memory → Bool
  | _, [] => true
  | lo, (a, b) :: m => decide (lo ≤ a) && decide (a < n) && b != 0 && Memory.wfFrom n (a + 1) m

/-- The canonical form of the frame buffer (R23, R40). -/
def Memory.wf (m : Memory) : Bool := Memory.wfFrom Config.bufSize 0 m

/-- Byte `i` of a buffer of extent `n`, `0x00` for an index the buffer does not have (R43, R51). -/
def Memory.readClamped (n : Nat) (m : Memory) (i : Nat) : Byte :=
  if i < n then Memory.read m i else 0

/-- `WinRead(b0)`: the clamped 8-byte window, the byte at the lowest index least significant (R42, R43).
`n` is `BUFSIZE`. -/
def winRead (n : Nat) (m : Memory) (b0 : Nat) : Word64 :=
  Memory.readClamped n m (b0 + 7) ++ Memory.readClamped n m (b0 + 6) ++
    Memory.readClamped n m (b0 + 5) ++ Memory.readClamped n m (b0 + 4) ++
    Memory.readClamped n m (b0 + 3) ++ Memory.readClamped n m (b0 + 2) ++
    Memory.readClamped n m (b0 + 1) ++ Memory.readClamped n m b0

/-- `MemWrite(i, n, v)`: `BUF[i+j] <- v[8j+7:8j]` for `j` in 0 to `n-1` (R15). -/
def memWrite (m : Memory) (i n : Nat) (v : Word64) : Memory :=
  (List.range n).foldl (fun m j => Memory.write m (i + j) (v.extractLsb' (8 * j) 8)) m

/-- `WinWrite(b0, last, Wd')`: the write-back of bytes `b0` to `last` and no other (R48). -/
def winWrite (m : Memory) (b0 last : Nat) (wd : Word64) : Memory :=
  memWrite m b0 (last + 1 - b0) wd

/-- Default construction of the Frame's buffer: every byte `0x00` (R264). -/
def Memory.clear (_ : Memory) : Memory := []

/-! ### The end of a command: status, response, errors -/

/-- The end of a command with response `r`: `SR` and `ECW` as R30 and R31 say, and the response on the
port (R61). -/
def complete (r : Response) (s : State) : State :=
  { s with sr := srAfter r s.sr, ecw := ecwAfter s.packet.cw r s.sr s.ecw, resp := r }

/-- A command that succeeds (R61, R81). -/
def succeed (ovf : Bool) (data : Word64) (s : State) : State :=
  complete { err := .ok, ovf := ovf, data := data } s

/-- `raise <Err>` (R16, R290, R300): taking an error. The command's writes are not made, the response is
`(err = code, ovf = 0, data = 0)`, `SR` and `ECW` are updated, and nothing else happens. There is no
handler and no return from one (R301): the next command runs. -/
def raise (e : Err) (s : State) : State :=
  complete { err := e, ovf := false, data := 0 } s

/-! ### Descriptor slots (R27, R28) -/

/-- The constructed descriptor in slot `k`; none when `k >= NDESC` or `DESC[k].V = 0` (R111, R293). -/
def slotAt {n : Nat} (slots : Vector Desc n) (k : BitVec 4) : Option Desc :=
  match slots[k.toNat]? with
  | some d => if d.v then some d else none
  | none => none

/-- `DESC[k] <- d`, the whole slot at once (R28). -/
def setSlot {n : Nat} (slots : Vector Desc n) (k : BitVec 4) (d : Desc) : Vector Desc n :=
  slots.setIfInBounds k.toNat d

/-- A descriptor-bound instruction: `NODESC` when the slot is absent or not constructed, else the
positional operation with the slot's operands (R111, R141, R191, R231). -/
def withSlot (k : BitVec 4) (s : State) (op : Desc → State → State) : State :=
  match slotAt s.desc k with
  | none => raise .nodesc s
  | some d => op d s

/-! ### The host's events -/

/-- The event just handled leaves the host's sequence. -/
def retire (rest : List HostEvent) (s : State) : State := { s with inputs := rest }

/-- The reset event (R320): the whole state of the SCC becomes the reset state, whatever it was; what the
host presents next is not the SCC's to change. -/
def resetEvent (rest : List HostEvent) (_ : State) : State := { State.reset with inputs := rest }

end Sys2Proof.Machine
end

