-- ==== Sys2Proof/Machine/BitField.lean ====
section
/-! DEFINITION. The bit-field extractor/inserter and the endian converter (R2, R90 to R108): the mask, the
shift, the byte swap, the layout checks, `Extract` and `Insert`. `n` is `BUFSIZE` throughout (R8). -/

namespace Sys2Proof.Machine

/-- `Mask(LEN)` for 1 to 64, the all-ones word by case at 64 (R91, R108). -/
def fieldMask (len : Nat) : Word64 :=
  if len = 64 then BitVec.allOnes 64 else (1#64 <<< len) - 1#64

/-- `Shift(LE, s, LEN)`, in 0 to 63 once `s + LEN <= 64` (R92). -/
def fieldShift (le : Bool) (sub len : Nat) : Nat := if le then sub else 64 - sub - len

/-- `bswap64(x)`: the eight bytes reversed, the bits inside each byte in place (R93). -/
def bswap64 (x : Word64) : Word64 :=
  x.extractLsb' 0 8 ++ x.extractLsb' 8 8 ++ x.extractLsb' 16 8 ++ x.extractLsb' 24 8 ++
    x.extractLsb' 32 8 ++ x.extractLsb' 40 8 ++ x.extractLsb' 48 8 ++ x.extractLsb' 56 8

/-- The byte swap of big-endian mode; nothing in little-endian mode (R44). -/
def swapFor (le : Bool) (x : Word64) : Word64 := if le then x else bswap64 x

/-- What `Layout` yields: `b0`, `s`, the shift, the mask and `last` (R94). -/
structure Geometry where
  b0 : Nat
  sub : Nat
  shift : Nat
  mask : Word64
  last : Nat
  deriving DecidableEq, Repr

/-- `Layout(START, LEN, LE)` on a buffer of `n` bytes: the checks `LENGTH`, `SPAN`, `BOUNDS` in that order,
then the five numbers (R90, R94, R95, R108). -/
def layout (n : Nat) (l : Layout) : Except Err Geometry :=
  let start := l.start.toNat
  let len := l.len.toNat
  if len < 1 ∨ 64 < len then .error .length
  else if 64 < start % 8 + len then .error .span
  else if n ≤ (start + len - 1) / 8 then .error .bounds
  else .ok
    { b0 := start / 8
      sub := start % 8
      shift := fieldShift l.le (start % 8) len
      mask := fieldMask len
      last := (start + len - 1) / 8 }

/-- `Extract(START, LEN, LE)`: window, swap, shift, mask (R96). -/
def extract (n : Nat) (m : Memory) (l : Layout) : Except Err Word64 :=
  match layout n l with
  | .error e => .error e
  | .ok g => .ok ((swapFor l.le (winRead n m g.b0) >>> g.shift) &&& g.mask)

/-- `Insert(v, START, LEN, LE)`: read the window, clear the field, OR in the masked value, write the
touched bytes back; with the new buffer, `ovf` (R97). -/
def insert (n : Nat) (m : Memory) (v : Word64) (l : Layout) : Except Err (Memory × Bool) :=
  match layout n l with
  | .error e => .error e
  | .ok g =>
    let wd := swapFor l.le (winRead n m g.b0)
    let wd' := (wd &&& ~~~(g.mask <<< g.shift)) ||| ((v &&& g.mask) <<< g.shift)
    .ok (winWrite m g.b0 g.last (swapFor l.le wd'), overflow v g.mask)

end Sys2Proof.Machine
end

