-- ==== Sys2Proof/Machine/Binary32.lean ====
section
/-! DEFINITION. The binary32 arithmetic of the scale/offset transform unit (R170 to R181): each operation
takes the exact result of its operands and rounds it once, to nearest, ties to even. -/

namespace Sys2Proof.Machine

/-- What a binary32 pattern stands for (R170): a NaN, an infinity, or a finite value with its biased
exponent `e` (below 255) and fraction `m`. Every pattern is exactly one of these. -/
inductive Binary32 where
  | nan (p : Config.NanPattern)
  | inf (neg : Bool)
  | finite (neg : Bool) (e : Fin 255) (m : BitVec 23)
  deriving DecidableEq, Repr

/-- A pattern read as `{sign, exponent, fraction}` (R170). -/
def Binary32.unpack (x : Word32) : Binary32 :=
  let neg := x.getLsbD 31
  let e := (x.extractLsb' 23 8).toNat
  let m := x.extractLsb' 0 23
  if h : e < 255 then .finite neg ⟨e, h⟩ m
  else if m = 0#23 then .inf neg
  else .nan { neg := neg, payload := Fin.ofNat 8388607 (m.toNat - 1) }

/-- The pattern `{sign, exponent, fraction}` of a value (R170). -/
def Binary32.pack : Binary32 → Word32
  | .nan p => BitVec.ofBool p.neg ++ 255#8 ++ BitVec.ofNat 23 (p.payload.val + 1)
  | .inf neg => BitVec.ofBool neg ++ 255#8 ++ 0#23
  | .finite neg e m => BitVec.ofBool neg ++ BitVec.ofNat 8 e.val ++ m

/-- A finite value's magnitude in units of `2^-149`: `m` when `e = 0`, else `(2^23 + m) * 2^(e-1)`
(R170). -/
def unitMagnitude (e : Fin 255) (m : BitVec 23) : Nat :=
  if e.val = 0 then m.toNat else (2 ^ 23 + m.toNat) * 2 ^ (e.val - 1)

/-- A finite value as an integer number of units of `2^-149` (R170). -/
def unitValue (neg : Bool) (e : Fin 255) (m : BitVec 23) : Int :=
  if neg then -(unitMagnitude e m : Int) else (unitMagnitude e m : Int)

/-- The integer nearest to `num / den`, the even one on a tie (R171). -/
def roundHalfEven (num den : Nat) : Nat :=
  let q := num / den
  let r := num % den
  if 2 * r < den then q
  else if den < 2 * r then q + 1
  else if q % 2 = 0 then q else q + 1

/-- roundTiesToEven (R171) of the magnitude `num / den` units of `2^-149`, with a sign. The spacing of
binary32 at that magnitude is `2^t` units, so the rounded value is `k * 2^t` units and its packed
exponent and fraction are the number `t * 2^23 + k`; at `255 * 2^23` and beyond (a rounded magnitude of
`2^128` or more) it is an infinity. -/
def roundUnits (neg : Bool) (num den : Nat) : Binary32 :=
  let t := Nat.log2 (num / den) - 23
  let k := roundHalfEven num (den * 2 ^ t)
  let packed := t * 2 ^ 23 + k
  if h : packed / 2 ^ 23 < 255 then .finite neg ⟨packed / 2 ^ 23, h⟩ (BitVec.ofNat 23 packed)
  else .inf neg

/-- The NaN an operation returns (R178). -/
def nanResult (op : Config.FpOp) (x y : Binary32) : Binary32 :=
  .nan (Config.nanResult op x.pack y.pack)

/-- The integer-to-binary32 conversion of an integer `n`; `n = 0` gives `+0` (R172). -/
def Binary32.ofInt (n : Int) : Binary32 := roundUnits (decide (n < 0)) (n.natAbs * 2 ^ 149) 1

/-- `fmul` (R173). -/
def Binary32.mul (x y : Binary32) : Binary32 :=
  match x, y with
  | .nan _, _ => nanResult .mul x y
  | _, .nan _ => nanResult .mul x y
  | .inf s, .inf t => .inf (s ^^ t)
  | .inf s, .finite t e m => if unitMagnitude e m = 0 then nanResult .mul x y else .inf (s ^^ t)
  | .finite s e m, .inf t => if unitMagnitude e m = 0 then nanResult .mul x y else .inf (s ^^ t)
  | .finite s e m, .finite t e' m' =>
    roundUnits (s ^^ t) (unitMagnitude e m * unitMagnitude e' m') (2 ^ 149)

/-- The sum of two values, with the NaN to return where there is one (R174). -/
def addOr (onNan : Binary32) (x y : Binary32) : Binary32 :=
  match x, y with
  | .nan _, _ => onNan
  | _, .nan _ => onNan
  | .inf s, .inf t => if s = t then .inf s else onNan
  | .inf s, .finite _ _ _ => .inf s
  | .finite _ _ _, .inf t => .inf t
  | .finite s e m, .finite t e' m' =>
    let sum := unitValue s e m + unitValue t e' m'
    if sum = 0 then .finite (s && t) 0 0#23
    else roundUnits (decide (sum < 0)) sum.natAbs 1

/-- `fadd` (R174). -/
def Binary32.add (x y : Binary32) : Binary32 := addOr (nanResult .add x y) x y

/-- `neg`: the sign bit flipped, a NaN left as it is (R175). -/
def Binary32.neg : Binary32 → Binary32
  | .nan p => .nan p
  | .inf s => .inf (!s)
  | .finite s e m => .finite (!s) e m

/-- `fsub(x, y) = fadd(x, neg(y))`; its NaN is the subtraction's own (R175, R178;
notes/assumptions/3.md). -/
def Binary32.sub (x y : Binary32) : Binary32 := addOr (nanResult .sub x y) x y.neg

/-- `fdiv` (R176). -/
def Binary32.div (x y : Binary32) : Binary32 :=
  match x, y with
  | .nan _, _ => nanResult .div x y
  | _, .nan _ => nanResult .div x y
  | .inf _, .inf _ => nanResult .div x y
  | .inf s, .finite t _ _ => .inf (s ^^ t)
  | .finite s _ _, .inf t => .finite (s ^^ t) 0 0#23
  | .finite s e m, .finite t e' m' =>
    if unitMagnitude e' m' = 0 then
      (if unitMagnitude e m = 0 then nanResult .div x y else .inf (s ^^ t))
    else roundUnits (s ^^ t) (unitMagnitude e m * 2 ^ 149) (unitMagnitude e' m')

/-- `f2i_trunc`: a finite value with its fractional part discarded; none for a NaN or an infinity
(R177). -/
def Binary32.trunc? : Binary32 → Option Int
  | .nan _ => none
  | .inf _ => none
  | .finite neg e m => some ((unitValue neg e m).tdiv (2 ^ 149))

end Sys2Proof.Machine
end

