-- ==== Sys2Proof/Machine/Scale.lean ====
section
/-! DEFINITION. The scale/offset transform of the codec (R182, R183, R220 to R222): `Interp`, `ScaleGet`
and `ScaleSet`. -/

namespace Sys2Proof

/-- The integer a `W(T)`-bit pattern denotes: two's complement for a signed type (R172, R13). -/
def Ty.int (T : Ty) (raw : Word64) : Int :=
  if T.signed then (raw.setWidth (T.width)).toInt else (raw.setWidth (T.width)).toNat

end Sys2Proof

namespace Sys2Proof.Machine

/-- `Interp_T(raw)`: for `F32` the bits are the float, else the integer converted (R182). -/
def interp (T : Ty) (raw : Word64) : Binary32 :=
  if T = .f32 then Binary32.unpack (raw.setWidth 32) else Binary32.ofInt (T.int raw)

/-- `zext_64(ScaleGet_T(raw, f, o))`: `fadd(fmul(Interp_T(raw), f), o)`, two roundings (R181, R183,
R190). -/
def scaleGet (T : Ty) (raw : Word64) (f o : Word32) : Word64 :=
  (((interp T raw).mul (Binary32.unpack f)).add (Binary32.unpack o)).pack.setWidth 64

/-- `zext_64(ScaleSet_T(p, f, o))` or `CONV`: `fdiv(fsub(p, o), f)`, stored as it is for `F32`; for an
integer type truncated, and `CONV` for a NaN, an infinity or an integer outside the type's range (R220,
R221, R222). -/
def scaleSet (T : Ty) (p f o : Word32) : Except Err Word64 :=
  let r := ((Binary32.unpack p).sub (Binary32.unpack o)).div (Binary32.unpack f)
  if T = .f32 then .ok (r.pack.setWidth 64)
  else match r.trunc? with
    | none => .error .conv
    | some n =>
      if n < T.minInt ∨ T.maxInt < n then .error .conv
      else .ok ((BitVec.ofInt (T.width) n).setWidth 64)

end Sys2Proof.Machine
end

