-- ==== Sys2Proof/Machine/Codec.lean ====
section
/-! DEFINITION. The four codec operations, positional and descriptor-bound, over any type: what the 72
codec instructions share (R110, R111, R140, R141, R190, R191, R230, R231). -/

namespace Sys2Proof.Machine

/-- Raw extraction (R110). -/
def opGet (T : Ty) (l : Layout) (s : State) : State :=
  match extract Config.bufSize s.buf l with
  | .error e => raise e s
  | .ok raw => succeed false (T.pattern raw) s

/-- Insertion of a 64-bit value, the tail of R140 and R230. -/
def opInsert (v : Word64) (l : Layout) (s : State) : State :=
  match insert Config.bufSize s.buf v l with
  | .error e => raise e s
  | .ok (buf, ovf) => succeed ovf 0 { s with buf := buf }

/-- Raw insertion of the packet's value operand (R140). -/
def opSet (T : Ty) (l : Layout) (s : State) : State :=
  opInsert (T.pattern s.packet.a) l s

/-- Scaled extraction (R190). -/
def opGets (T : Ty) (l : Layout) (f o : Word32) (s : State) : State :=
  match extract Config.bufSize s.buf l with
  | .error e => raise e s
  | .ok raw => succeed false (scaleGet T raw f o) s

/-- Scaled insertion of the packet's physical value `a[31:0]`: the layout errors come before `CONV`, and
every check before the write (R230, R299, R300). -/
def opSets (T : Ty) (l : Layout) (f o : Word32) (s : State) : State :=
  match layout Config.bufSize l with
  | .error e => raise e s
  | .ok _ =>
    match scaleSet T (s.packet.a.setWidth 32) f o with
    | .error e => raise e s
    | .ok pat => opInsert pat l s

end Sys2Proof.Machine
end

