-- ==== Sys2Proof/Machine/Get.lean ====
section
/-! DEFINITION. The raw extraction instructions GET.T (R110, R112 to R120) and GETD.T (R111, R121 to
R129), one meaning each. -/

namespace Sys2Proof.Machine

/-- `GET.U8` (R112). -/
def execGetU8 (le : Bool) (len : BitVec 7) (start : BitVec 16) (s : State) :
    Host.Outcome State Fault Refusal :=
  .next (opGet .u8 { start := start, len := len, le := le } s)

/-- `GET.I8` (R113). -/
def execGetI8 (le : Bool) (len : BitVec 7) (start : BitVec 16) (s : State) :
    Host.Outcome State Fault Refusal :=
  .next (opGet .i8 { start := start, len := len, le := le } s)

/-- `GET.U16` (R114). -/
def execGetU16 (le : Bool) (len : BitVec 7) (start : BitVec 16) (s : State) :
    Host.Outcome State Fault Refusal :=
  .next (opGet .u16 { start := start, len := len, le := le } s)

/-- `GET.I16` (R115). -/
def execGetI16 (le : Bool) (len : BitVec 7) (start : BitVec 16) (s : State) :
    Host.Outcome State Fault Refusal :=
  .next (opGet .i16 { start := start, len := len, le := le } s)

/-- `GET.U32` (R116). -/
def execGetU32 (le : Bool) (len : BitVec 7) (start : BitVec 16) (s : State) :
    Host.Outcome State Fault Refusal :=
  .next (opGet .u32 { start := start, len := len, le := le } s)

/-- `GET.I32` (R117). -/
def execGetI32 (le : Bool) (len : BitVec 7) (start : BitVec 16) (s : State) :
    Host.Outcome State Fault Refusal :=
  .next (opGet .i32 { start := start, len := len, le := le } s)

/-- `GET.U64` (R118). -/
def execGetU64 (le : Bool) (len : BitVec 7) (start : BitVec 16) (s : State) :
    Host.Outcome State Fault Refusal :=
  .next (opGet .u64 { start := start, len := len, le := le } s)

/-- `GET.I64` (R119). -/
def execGetI64 (le : Bool) (len : BitVec 7) (start : BitVec 16) (s : State) :
    Host.Outcome State Fault Refusal :=
  .next (opGet .i64 { start := start, len := len, le := le } s)

/-- `GET.F32` (R120). -/
def execGetF32 (le : Bool) (len : BitVec 7) (start : BitVec 16) (s : State) :
    Host.Outcome State Fault Refusal :=
  .next (opGet .f32 { start := start, len := len, le := le } s)

/-- `GETD.U8` (R121). -/
def execGetdU8 (k : BitVec 4) (s : State) : Host.Outcome State Fault Refusal :=
  .next (withSlot k s fun d => opGet .u8 d.layout)

/-- `GETD.I8` (R122). -/
def execGetdI8 (k : BitVec 4) (s : State) : Host.Outcome State Fault Refusal :=
  .next (withSlot k s fun d => opGet .i8 d.layout)

/-- `GETD.U16` (R123). -/
def execGetdU16 (k : BitVec 4) (s : State) : Host.Outcome State Fault Refusal :=
  .next (withSlot k s fun d => opGet .u16 d.layout)

/-- `GETD.I16` (R124). -/
def execGetdI16 (k : BitVec 4) (s : State) : Host.Outcome State Fault Refusal :=
  .next (withSlot k s fun d => opGet .i16 d.layout)

/-- `GETD.U32` (R125). -/
def execGetdU32 (k : BitVec 4) (s : State) : Host.Outcome State Fault Refusal :=
  .next (withSlot k s fun d => opGet .u32 d.layout)

/-- `GETD.I32` (R126). -/
def execGetdI32 (k : BitVec 4) (s : State) : Host.Outcome State Fault Refusal :=
  .next (withSlot k s fun d => opGet .i32 d.layout)

/-- `GETD.U64` (R127). -/
def execGetdU64 (k : BitVec 4) (s : State) : Host.Outcome State Fault Refusal :=
  .next (withSlot k s fun d => opGet .u64 d.layout)

/-- `GETD.I64` (R128). -/
def execGetdI64 (k : BitVec 4) (s : State) : Host.Outcome State Fault Refusal :=
  .next (withSlot k s fun d => opGet .i64 d.layout)

/-- `GETD.F32` (R129). -/
def execGetdF32 (k : BitVec 4) (s : State) : Host.Outcome State Fault Refusal :=
  .next (withSlot k s fun d => opGet .f32 d.layout)

end Sys2Proof.Machine
end

