-- ==== Sys2Proof/Machine/ScaledGet.lean ====
section
/-! DEFINITION. The scaled extraction instructions GETS.T (R190, R192 to R200) and GETSD.T (R191, R201 to
R209), one meaning each. -/

namespace Sys2Proof.Machine

/-- `GETS.U8` (R192). -/
def execGetsU8 (le : Bool) (len : BitVec 7) (start : BitVec 16) (s : State) :
    Host.Outcome State Fault Refusal :=
  .next (opGets .u8 { start := start, len := len, le := le } s.packet.f s.packet.o s)

/-- `GETS.I8` (R193). -/
def execGetsI8 (le : Bool) (len : BitVec 7) (start : BitVec 16) (s : State) :
    Host.Outcome State Fault Refusal :=
  .next (opGets .i8 { start := start, len := len, le := le } s.packet.f s.packet.o s)

/-- `GETS.U16` (R194). -/
def execGetsU16 (le : Bool) (len : BitVec 7) (start : BitVec 16) (s : State) :
    Host.Outcome State Fault Refusal :=
  .next (opGets .u16 { start := start, len := len, le := le } s.packet.f s.packet.o s)

/-- `GETS.I16` (R195). -/
def execGetsI16 (le : Bool) (len : BitVec 7) (start : BitVec 16) (s : State) :
    Host.Outcome State Fault Refusal :=
  .next (opGets .i16 { start := start, len := len, le := le } s.packet.f s.packet.o s)

/-- `GETS.U32` (R196). -/
def execGetsU32 (le : Bool) (len : BitVec 7) (start : BitVec 16) (s : State) :
    Host.Outcome State Fault Refusal :=
  .next (opGets .u32 { start := start, len := len, le := le } s.packet.f s.packet.o s)

/-- `GETS.I32` (R197). -/
def execGetsI32 (le : Bool) (len : BitVec 7) (start : BitVec 16) (s : State) :
    Host.Outcome State Fault Refusal :=
  .next (opGets .i32 { start := start, len := len, le := le } s.packet.f s.packet.o s)

/-- `GETS.U64` (R198). -/
def execGetsU64 (le : Bool) (len : BitVec 7) (start : BitVec 16) (s : State) :
    Host.Outcome State Fault Refusal :=
  .next (opGets .u64 { start := start, len := len, le := le } s.packet.f s.packet.o s)

/-- `GETS.I64` (R199). -/
def execGetsI64 (le : Bool) (len : BitVec 7) (start : BitVec 16) (s : State) :
    Host.Outcome State Fault Refusal :=
  .next (opGets .i64 { start := start, len := len, le := le } s.packet.f s.packet.o s)

/-- `GETS.F32` (R200). -/
def execGetsF32 (le : Bool) (len : BitVec 7) (start : BitVec 16) (s : State) :
    Host.Outcome State Fault Refusal :=
  .next (opGets .f32 { start := start, len := len, le := le } s.packet.f s.packet.o s)

/-- `GETSD.U8` (R201). -/
def execGetsdU8 (k : BitVec 4) (s : State) : Host.Outcome State Fault Refusal :=
  .next (withSlot k s fun d => opGets .u8 d.layout d.f d.o)

/-- `GETSD.I8` (R202). -/
def execGetsdI8 (k : BitVec 4) (s : State) : Host.Outcome State Fault Refusal :=
  .next (withSlot k s fun d => opGets .i8 d.layout d.f d.o)

/-- `GETSD.U16` (R203). -/
def execGetsdU16 (k : BitVec 4) (s : State) : Host.Outcome State Fault Refusal :=
  .next (withSlot k s fun d => opGets .u16 d.layout d.f d.o)

/-- `GETSD.I16` (R204). -/
def execGetsdI16 (k : BitVec 4) (s : State) : Host.Outcome State Fault Refusal :=
  .next (withSlot k s fun d => opGets .i16 d.layout d.f d.o)

/-- `GETSD.U32` (R205). -/
def execGetsdU32 (k : BitVec 4) (s : State) : Host.Outcome State Fault Refusal :=
  .next (withSlot k s fun d => opGets .u32 d.layout d.f d.o)

/-- `GETSD.I32` (R206). -/
def execGetsdI32 (k : BitVec 4) (s : State) : Host.Outcome State Fault Refusal :=
  .next (withSlot k s fun d => opGets .i32 d.layout d.f d.o)

/-- `GETSD.U64` (R207). -/
def execGetsdU64 (k : BitVec 4) (s : State) : Host.Outcome State Fault Refusal :=
  .next (withSlot k s fun d => opGets .u64 d.layout d.f d.o)

/-- `GETSD.I64` (R208). -/
def execGetsdI64 (k : BitVec 4) (s : State) : Host.Outcome State Fault Refusal :=
  .next (withSlot k s fun d => opGets .i64 d.layout d.f d.o)

/-- `GETSD.F32` (R209). -/
def execGetsdF32 (k : BitVec 4) (s : State) : Host.Outcome State Fault Refusal :=
  .next (withSlot k s fun d => opGets .f32 d.layout d.f d.o)

end Sys2Proof.Machine
end

