-- ==== Sys2Proof/Machine/ScaledSet.lean ====
section
/-! DEFINITION. The scaled insertion instructions SETS.T (R230, R232 to R240) and SETSD.T (R231, R241 to
R249), one meaning each. -/

namespace Sys2Proof.Machine

/-- `SETS.U8` (R232). -/
def execSetsU8 (le : Bool) (len : BitVec 7) (start : BitVec 16) (s : State) :
    Host.Outcome State Fault Refusal :=
  .next (opSets .u8 { start := start, len := len, le := le } s.packet.f s.packet.o s)

/-- `SETS.I8` (R233). -/
def execSetsI8 (le : Bool) (len : BitVec 7) (start : BitVec 16) (s : State) :
    Host.Outcome State Fault Refusal :=
  .next (opSets .i8 { start := start, len := len, le := le } s.packet.f s.packet.o s)

/-- `SETS.U16` (R234). -/
def execSetsU16 (le : Bool) (len : BitVec 7) (start : BitVec 16) (s : State) :
    Host.Outcome State Fault Refusal :=
  .next (opSets .u16 { start := start, len := len, le := le } s.packet.f s.packet.o s)

/-- `SETS.I16` (R235). -/
def execSetsI16 (le : Bool) (len : BitVec 7) (start : BitVec 16) (s : State) :
    Host.Outcome State Fault Refusal :=
  .next (opSets .i16 { start := start, len := len, le := le } s.packet.f s.packet.o s)

/-- `SETS.U32` (R236). -/
def execSetsU32 (le : Bool) (len : BitVec 7) (start : BitVec 16) (s : State) :
    Host.Outcome State Fault Refusal :=
  .next (opSets .u32 { start := start, len := len, le := le } s.packet.f s.packet.o s)

/-- `SETS.I32` (R237). -/
def execSetsI32 (le : Bool) (len : BitVec 7) (start : BitVec 16) (s : State) :
    Host.Outcome State Fault Refusal :=
  .next (opSets .i32 { start := start, len := len, le := le } s.packet.f s.packet.o s)

/-- `SETS.U64` (R238). -/
def execSetsU64 (le : Bool) (len : BitVec 7) (start : BitVec 16) (s : State) :
    Host.Outcome State Fault Refusal :=
  .next (opSets .u64 { start := start, len := len, le := le } s.packet.f s.packet.o s)

/-- `SETS.I64` (R239). -/
def execSetsI64 (le : Bool) (len : BitVec 7) (start : BitVec 16) (s : State) :
    Host.Outcome State Fault Refusal :=
  .next (opSets .i64 { start := start, len := len, le := le } s.packet.f s.packet.o s)

/-- `SETS.F32` (R240). -/
def execSetsF32 (le : Bool) (len : BitVec 7) (start : BitVec 16) (s : State) :
    Host.Outcome State Fault Refusal :=
  .next (opSets .f32 { start := start, len := len, le := le } s.packet.f s.packet.o s)

/-- `SETSD.U8` (R241). -/
def execSetsdU8 (k : BitVec 4) (s : State) : Host.Outcome State Fault Refusal :=
  .next (withSlot k s fun d => opSets .u8 d.layout d.f d.o)

/-- `SETSD.I8` (R242). -/
def execSetsdI8 (k : BitVec 4) (s : State) : Host.Outcome State Fault Refusal :=
  .next (withSlot k s fun d => opSets .i8 d.layout d.f d.o)

/-- `SETSD.U16` (R243). -/
def execSetsdU16 (k : BitVec 4) (s : State) : Host.Outcome State Fault Refusal :=
  .next (withSlot k s fun d => opSets .u16 d.layout d.f d.o)

/-- `SETSD.I16` (R244). -/
def execSetsdI16 (k : BitVec 4) (s : State) : Host.Outcome State Fault Refusal :=
  .next (withSlot k s fun d => opSets .i16 d.layout d.f d.o)

/-- `SETSD.U32` (R245). -/
def execSetsdU32 (k : BitVec 4) (s : State) : Host.Outcome State Fault Refusal :=
  .next (withSlot k s fun d => opSets .u32 d.layout d.f d.o)

/-- `SETSD.I32` (R246). -/
def execSetsdI32 (k : BitVec 4) (s : State) : Host.Outcome State Fault Refusal :=
  .next (withSlot k s fun d => opSets .i32 d.layout d.f d.o)

/-- `SETSD.U64` (R247). -/
def execSetsdU64 (k : BitVec 4) (s : State) : Host.Outcome State Fault Refusal :=
  .next (withSlot k s fun d => opSets .u64 d.layout d.f d.o)

/-- `SETSD.I64` (R248). -/
def execSetsdI64 (k : BitVec 4) (s : State) : Host.Outcome State Fault Refusal :=
  .next (withSlot k s fun d => opSets .i64 d.layout d.f d.o)

/-- `SETSD.F32` (R249). -/
def execSetsdF32 (k : BitVec 4) (s : State) : Host.Outcome State Fault Refusal :=
  .next (withSlot k s fun d => opSets .f32 d.layout d.f d.o)

end Sys2Proof.Machine
end

