-- ==== Sys2Proof/Machine/Set.lean ====
section
/-! DEFINITION. The raw insertion instructions SET.T (R140, R142 to R150) and SETD.T (R141, R151 to
R159), one meaning each. -/

namespace Sys2Proof.Machine

/-- `SET.U8` (R142). -/
def execSetU8 (le : Bool) (len : BitVec 7) (start : BitVec 16) (s : State) :
    Host.Outcome State Fault Refusal :=
  .next (opSet .u8 { start := start, len := len, le := le } s)

/-- `SET.I8` (R143). -/
def execSetI8 (le : Bool) (len : BitVec 7) (start : BitVec 16) (s : State) :
    Host.Outcome State Fault Refusal :=
  .next (opSet .i8 { start := start, len := len, le := le } s)

/-- `SET.U16` (R144). -/
def execSetU16 (le : Bool) (len : BitVec 7) (start : BitVec 16) (s : State) :
    Host.Outcome State Fault Refusal :=
  .next (opSet .u16 { start := start, len := len, le := le } s)

/-- `SET.I16` (R145). -/
def execSetI16 (le : Bool) (len : BitVec 7) (start : BitVec 16) (s : State) :
    Host.Outcome State Fault Refusal :=
  .next (opSet .i16 { start := start, len := len, le := le } s)

/-- `SET.U32` (R146). -/
def execSetU32 (le : Bool) (len : BitVec 7) (start : BitVec 16) (s : State) :
    Host.Outcome State Fault Refusal :=
  .next (opSet .u32 { start := start, len := len, le := le } s)

/-- `SET.I32` (R147). -/
def execSetI32 (le : Bool) (len : BitVec 7) (start : BitVec 16) (s : State) :
    Host.Outcome State Fault Refusal :=
  .next (opSet .i32 { start := start, len := len, le := le } s)

/-- `SET.U64` (R148). -/
def execSetU64 (le : Bool) (len : BitVec 7) (start : BitVec 16) (s : State) :
    Host.Outcome State Fault Refusal :=
  .next (opSet .u64 { start := start, len := len, le := le } s)

/-- `SET.I64` (R149). -/
def execSetI64 (le : Bool) (len : BitVec 7) (start : BitVec 16) (s : State) :
    Host.Outcome State Fault Refusal :=
  .next (opSet .i64 { start := start, len := len, le := le } s)

/-- `SET.F32` (R150). -/
def execSetF32 (le : Bool) (len : BitVec 7) (start : BitVec 16) (s : State) :
    Host.Outcome State Fault Refusal :=
  .next (opSet .f32 { start := start, len := len, le := le } s)

/-- `SETD.U8` (R151). -/
def execSetdU8 (k : BitVec 4) (s : State) : Host.Outcome State Fault Refusal :=
  .next (withSlot k s fun d => opSet .u8 d.layout)

/-- `SETD.I8` (R152). -/
def execSetdI8 (k : BitVec 4) (s : State) : Host.Outcome State Fault Refusal :=
  .next (withSlot k s fun d => opSet .i8 d.layout)

/-- `SETD.U16` (R153). -/
def execSetdU16 (k : BitVec 4) (s : State) : Host.Outcome State Fault Refusal :=
  .next (withSlot k s fun d => opSet .u16 d.layout)

/-- `SETD.I16` (R154). -/
def execSetdI16 (k : BitVec 4) (s : State) : Host.Outcome State Fault Refusal :=
  .next (withSlot k s fun d => opSet .i16 d.layout)

/-- `SETD.U32` (R155). -/
def execSetdU32 (k : BitVec 4) (s : State) : Host.Outcome State Fault Refusal :=
  .next (withSlot k s fun d => opSet .u32 d.layout)

/-- `SETD.I32` (R156). -/
def execSetdI32 (k : BitVec 4) (s : State) : Host.Outcome State Fault Refusal :=
  .next (withSlot k s fun d => opSet .i32 d.layout)

/-- `SETD.U64` (R157). -/
def execSetdU64 (k : BitVec 4) (s : State) : Host.Outcome State Fault Refusal :=
  .next (withSlot k s fun d => opSet .u64 d.layout)

/-- `SETD.I64` (R158). -/
def execSetdI64 (k : BitVec 4) (s : State) : Host.Outcome State Fault Refusal :=
  .next (withSlot k s fun d => opSet .i64 d.layout)

/-- `SETD.F32` (R159). -/
def execSetdF32 (k : BitVec 4) (s : State) : Host.Outcome State Fault Refusal :=
  .next (withSlot k s fun d => opSet .f32 d.layout)

end Sys2Proof.Machine
end

