-- ==== Sys2Proof/Machine/System.lean ====
section
/-! DEFINITION. The descriptor instruction and the eight system functions (R260 to R268). -/

namespace Sys2Proof.Machine

/-- `DESC k, ord, start, len, f, o` (R260): `NODESC`, then `LENGTH`, else the whole slot is written. -/
def execDesc (k : BitVec 4) (le : Bool) (len : BitVec 7) (start : BitVec 16) (s : State) :
    Host.Outcome State Fault Refusal :=
  .next (
    if Config.nDesc ≤ k.toNat then raise .nodesc s
    else if len.toNat = 0 ∨ 64 < len.toNat then raise .length s
    else
      let d := { v := true, start := start, len := len, le := le, f := s.packet.f, o := s.packet.o }
      succeed false 0 { s with desc := setSlot s.desc k d })

/-- `NOP` (R261). -/
def execNop (s : State) : Host.Outcome State Fault Refusal := .next (succeed false 0 s)

/-- `RDSR`: `data <- {ECW, SR}`, nothing cleared (R262). -/
def execRdsr (s : State) : Host.Outcome State Fault Refusal :=
  .next (succeed false (s.ecw ++ s.sr) s)

/-- `CLRSR`: `SR <- 0; ECW <- 0` (R263). -/
def execClrsr (s : State) : Host.Outcome State Fault Refusal :=
  .next (succeed false 0 { s with sr := 0, ecw := 0 })

/-- `FCLR`: default-construct the Frame, `BUF` and `FH` only (R264). -/
def execFclr (s : State) : Host.Outcome State Fault Refusal :=
  .next (succeed false 0 { s with buf := s.buf.clear, fh := Header.reset })

/-- `FWR a`: the header from `a[39:0]`, not validated (R265). -/
def execFwr (s : State) : Host.Outcome State Fault Refusal :=
  .next (succeed false 0 { s with fh := Header.unpack s.packet.a })

/-- `FRD`: the packed header with its validity (R266). -/
def execFrd (s : State) : Host.Outcome State Fault Refusal :=
  .next (succeed false s.fh.pack s)

/-- `RDB index` (R267). -/
def execRdb (index : BitVec 16) (s : State) : Host.Outcome State Fault Refusal :=
  .next (
    if Config.bufSize ≤ index.toNat then raise .bounds s
    else succeed false ((Memory.read s.buf index.toNat).setWidth 64) s)

/-- `WRB index, byte`: the byte is `a[7:0]` (R268). -/
def execWrb (index : BitVec 16) (s : State) : Host.Outcome State Fault Refusal :=
  .next (
    if Config.bufSize ≤ index.toNat then raise .bounds s
    else succeed false 0
      { s with buf := Memory.write s.buf index.toNat (s.packet.a.setWidth 8) })

end Sys2Proof.Machine
end

