-- ==== Sys2Proof/Machine/Dispatch.lean ====
section
/-! DEFINITION. One arm per instruction, each a direct call of its meaning. -/

namespace Sys2Proof.Machine

def exec (i : Instr) (s : State) : Host.Outcome State Fault Refusal :=
  match i with
  | .getU8 le len start => Sys2Proof.Machine.execGetU8 le len start s
  | .getI8 le len start => Sys2Proof.Machine.execGetI8 le len start s
  | .getU16 le len start => Sys2Proof.Machine.execGetU16 le len start s
  | .getI16 le len start => Sys2Proof.Machine.execGetI16 le len start s
  | .getU32 le len start => Sys2Proof.Machine.execGetU32 le len start s
  | .getI32 le len start => Sys2Proof.Machine.execGetI32 le len start s
  | .getU64 le len start => Sys2Proof.Machine.execGetU64 le len start s
  | .getI64 le len start => Sys2Proof.Machine.execGetI64 le len start s
  | .getF32 le len start => Sys2Proof.Machine.execGetF32 le len start s
  | .setU8 le len start => Sys2Proof.Machine.execSetU8 le len start s
  | .setI8 le len start => Sys2Proof.Machine.execSetI8 le len start s
  | .setU16 le len start => Sys2Proof.Machine.execSetU16 le len start s
  | .setI16 le len start => Sys2Proof.Machine.execSetI16 le len start s
  | .setU32 le len start => Sys2Proof.Machine.execSetU32 le len start s
  | .setI32 le len start => Sys2Proof.Machine.execSetI32 le len start s
  | .setU64 le len start => Sys2Proof.Machine.execSetU64 le len start s
  | .setI64 le len start => Sys2Proof.Machine.execSetI64 le len start s
  | .setF32 le len start => Sys2Proof.Machine.execSetF32 le len start s
  | .getsU8 le len start => Sys2Proof.Machine.execGetsU8 le len start s
  | .getsI8 le len start => Sys2Proof.Machine.execGetsI8 le len start s
  | .getsU16 le len start => Sys2Proof.Machine.execGetsU16 le len start s
  | .getsI16 le len start => Sys2Proof.Machine.execGetsI16 le len start s
  | .getsU32 le len start => Sys2Proof.Machine.execGetsU32 le len start s
  | .getsI32 le len start => Sys2Proof.Machine.execGetsI32 le len start s
  | .getsU64 le len start => Sys2Proof.Machine.execGetsU64 le len start s
  | .getsI64 le len start => Sys2Proof.Machine.execGetsI64 le len start s
  | .getsF32 le len start => Sys2Proof.Machine.execGetsF32 le len start s
  | .setsU8 le len start => Sys2Proof.Machine.execSetsU8 le len start s
  | .setsI8 le len start => Sys2Proof.Machine.execSetsI8 le len start s
  | .setsU16 le len start => Sys2Proof.Machine.execSetsU16 le len start s
  | .setsI16 le len start => Sys2Proof.Machine.execSetsI16 le len start s
  | .setsU32 le len start => Sys2Proof.Machine.execSetsU32 le len start s
  | .setsI32 le len start => Sys2Proof.Machine.execSetsI32 le len start s
  | .setsU64 le len start => Sys2Proof.Machine.execSetsU64 le len start s
  | .setsI64 le len start => Sys2Proof.Machine.execSetsI64 le len start s
  | .setsF32 le len start => Sys2Proof.Machine.execSetsF32 le len start s
  | .getdU8 k => Sys2Proof.Machine.execGetdU8 k s
  | .getdI8 k => Sys2Proof.Machine.execGetdI8 k s
  | .getdU16 k => Sys2Proof.Machine.execGetdU16 k s
  | .getdI16 k => Sys2Proof.Machine.execGetdI16 k s
  | .getdU32 k => Sys2Proof.Machine.execGetdU32 k s
  | .getdI32 k => Sys2Proof.Machine.execGetdI32 k s
  | .getdU64 k => Sys2Proof.Machine.execGetdU64 k s
  | .getdI64 k => Sys2Proof.Machine.execGetdI64 k s
  | .getdF32 k => Sys2Proof.Machine.execGetdF32 k s
  | .setdU8 k => Sys2Proof.Machine.execSetdU8 k s
  | .setdI8 k => Sys2Proof.Machine.execSetdI8 k s
  | .setdU16 k => Sys2Proof.Machine.execSetdU16 k s
  | .setdI16 k => Sys2Proof.Machine.execSetdI16 k s
  | .setdU32 k => Sys2Proof.Machine.execSetdU32 k s
  | .setdI32 k => Sys2Proof.Machine.execSetdI32 k s
  | .setdU64 k => Sys2Proof.Machine.execSetdU64 k s
  | .setdI64 k => Sys2Proof.Machine.execSetdI64 k s
  | .setdF32 k => Sys2Proof.Machine.execSetdF32 k s
  | .getsdU8 k => Sys2Proof.Machine.execGetsdU8 k s
  | .getsdI8 k => Sys2Proof.Machine.execGetsdI8 k s
  | .getsdU16 k => Sys2Proof.Machine.execGetsdU16 k s
  | .getsdI16 k => Sys2Proof.Machine.execGetsdI16 k s
  | .getsdU32 k => Sys2Proof.Machine.execGetsdU32 k s
  | .getsdI32 k => Sys2Proof.Machine.execGetsdI32 k s
  | .getsdU64 k => Sys2Proof.Machine.execGetsdU64 k s
  | .getsdI64 k => Sys2Proof.Machine.execGetsdI64 k s
  | .getsdF32 k => Sys2Proof.Machine.execGetsdF32 k s
  | .setsdU8 k => Sys2Proof.Machine.execSetsdU8 k s
  | .setsdI8 k => Sys2Proof.Machine.execSetsdI8 k s
  | .setsdU16 k => Sys2Proof.Machine.execSetsdU16 k s
  | .setsdI16 k => Sys2Proof.Machine.execSetsdI16 k s
  | .setsdU32 k => Sys2Proof.Machine.execSetsdU32 k s
  | .setsdI32 k => Sys2Proof.Machine.execSetsdI32 k s
  | .setsdU64 k => Sys2Proof.Machine.execSetsdU64 k s
  | .setsdI64 k => Sys2Proof.Machine.execSetsdI64 k s
  | .setsdF32 k => Sys2Proof.Machine.execSetsdF32 k s
  | .desc k le len start => Sys2Proof.Machine.execDesc k le len start s
  | .nop => Sys2Proof.Machine.execNop s
  | .rdsr => Sys2Proof.Machine.execRdsr s
  | .clrsr => Sys2Proof.Machine.execClrsr s
  | .fclr => Sys2Proof.Machine.execFclr s
  | .fwr => Sys2Proof.Machine.execFwr s
  | .frd => Sys2Proof.Machine.execFrd s
  | .rdb index => Sys2Proof.Machine.execRdb index s
  | .wrb index => Sys2Proof.Machine.execWrb index s

end Sys2Proof.Machine
end

