-- ==== Sys2Proof/Machine/Step.lean ====
section
/-! DEFINITION. One step: the SCC handles the event the host presents (R7, R22, R52, R320). -/

namespace Sys2Proof.Machine

/-- One step. A command is performed completely and leaves the host's sequence: an illegal word raises
`ILLEGAL` (R74, R292), any other runs the instruction it decodes to (R77). A reset event replaces the
state (R320). With nothing presented nothing changes (R302; notes/assumptions/4.md). -/
def step (s : State) : Host.Outcome State Fault Refusal :=
  match s.inputs with
  | [] => .next s
  | .reset :: rest => .next (resetEvent rest s)
  | .command p :: rest =>
    match decode p.cw with
    | .error _ => .next (retire rest (raise .illegal s))
    | .ok i =>
      match exec i s with
      | .next t => .next (retire rest t)
      | .fault r => .fault r
      | .refused r => .refused r

/-- The host presents the command word `w` next, with the operands `a`, `f`, `o` zero (R78: an operand the
listing does not give is zero); notes/assumptions/1.md. -/
def State.withFetchWord (s : State) (nbits w : Nat) : State :=
  { s with inputs :=
      .command { cw := BitVec.ofNat 32 (w % 2 ^ nbits), a := 0, f := 0, o := 0 } :: s.inputs }

end Sys2Proof.Machine
end

