-- ==== Sys2Proof/Safety.lean ====
section
/-! DEFINITION. What the claims are said in: the spec's own words about bits of the buffer (R94, R98, R99),
about illegal words (R74), about rounding (R170, R171), and the invariant of the machine. Nothing here is
used by the machine; each definition is written from its rule, not from the machine's functions. -/

namespace Sys2Proof.Machine

/-! ### Illegal words -/

/-- The seven conditions of R74 on the word as a number, `OP` being bits 31:28, `TY` bits 27:24, `LE`
bit 23, `LEN` bits 22:16 and `START` bits 15:0 (R62). -/
def IllegalWord (hasScale : Bool) (cw : Word32) : Prop :=
  let op := cw.toNat / 2 ^ 28
  let ty := cw.toNat / 2 ^ 24 % 16
  let le := cw.toNat / 2 ^ 23 % 2
  let len := cw.toNat / 2 ^ 16 % 128
  let start := cw.toNat % 2 ^ 16
  (op = 0 ∨ 11 ≤ op)
  ∨ (1 ≤ op ∧ op ≤ 8 ∧ ¬ (ty ≤ 7 ∨ ty = 12))
  ∨ ((op = 3 ∨ op = 4 ∨ op = 7 ∨ op = 8) ∧ hasScale = false)
  ∨ (5 ≤ op ∧ op ≤ 8 ∧ (le ≠ 0 ∨ len ≠ 0 ∨ start / 16 ≠ 0))
  ∨ (op = 10 ∧ 8 ≤ ty)
  ∨ (op = 10 ∧ (le ≠ 0 ∨ len ≠ 0))
  ∨ (op = 10 ∧ ty ≤ 5 ∧ start ≠ 0)

/-! ### Bits of the buffer -/

/-- Bit number `b` of the buffer: bit `b % 8` of byte `b / 8` in little-endian numbering (R98), bit
`7 - b % 8` of it in big-endian numbering (R99). -/
def numberedBit (m : Memory) (le : Bool) (b : Nat) : Bool :=
  (Memory.read m (b / 8)).getLsbD (if le then b % 8 else 7 - b % 8)

/-- The field holds bit numbers `START` to `START + LEN - 1` (R98, R99). -/
abbrev InField (l : Layout) (b : Nat) : Prop :=
  l.start.toNat ≤ b ∧ b < l.start.toNat + l.len.toNat

/-- Which bit of the field's value bit number `b` of the field holds: bit `b - START` in little-endian
numbering (R98), bit `LEN - 1 - (b - START)` in big-endian numbering (R99). -/
def valueIndex (l : Layout) (b : Nat) : Nat :=
  if l.le then b - l.start.toNat else l.len.toNat - 1 - (b - l.start.toNat)

/-- `raw` is the field's value: its bits below `LEN` are the field's bits in the order of R98 and R99,
and the others are 0 (R96). -/
def HoldsField (m : Memory) (l : Layout) (raw : Word64) : Prop :=
  (∀ b, InField l b → raw.getLsbD (valueIndex l b) = numberedBit m l.le b) ∧
    ∀ j, l.len.toNat ≤ j → raw.getLsbD j = false

/-- `m'` is `m` with the field holding the low `LEN` bits of `v` and no other bit changed (R98, R99,
R100). -/
def FieldReplaced (m m' : Memory) (l : Layout) (v : Word64) : Prop :=
  ∀ b, numberedBit m' l.le b =
    if InField l b then v.getLsbD (valueIndex l b) else numberedBit m l.le b

/-- The field lies in its 8-byte window and in a buffer of `n` bytes, and its length is 1 to 64: no layout
check of R94 fails. -/
abbrev FieldFits (n : Nat) (l : Layout) : Prop :=
  1 ≤ l.len.toNat ∧ l.len.toNat ≤ 64 ∧ l.start.toNat % 8 + l.len.toNat ≤ 64 ∧
    l.start.toNat + l.len.toNat ≤ 8 * n

/-- The error of the first layout check that fails on a buffer of `n` bytes, in the order of R94. -/
def layoutError (n : Nat) (l : Layout) : Option Err :=
  if l.len.toNat = 0 ∨ 64 < l.len.toNat then some .length
  else if 64 < l.start.toNat % 8 + l.len.toNat then some .span
  else if 8 * n < l.start.toNat + l.len.toNat then some .bounds
  else none

/-- Two fields share no physical bit: no byte and bit of a byte is named by a bit number of both, each in
its own numbering (R102). -/
def DisjointFields (l l' : Layout) : Prop :=
  ∀ b b', InField l b → InField l' b' →
    ¬ (b / 8 = b' / 8 ∧
      (if l.le then b % 8 else 7 - b % 8) = (if l'.le then b' % 8 else 7 - b' % 8))

/-! ### Binary32 values and rounding -/

/-- The magnitude of a finite value (R170). -/
def magnitude (e : Fin 255) (m : BitVec 23) : ℚ :=
  if e.val = 0 then (m.toNat : ℚ) * 2 ^ (-149 : ℤ)
  else (2 ^ 23 + (m.toNat : ℚ)) * 2 ^ ((e.val : ℤ) - 150)

/-- The value of a finite binary32 with its sign (R170). -/
def signedValue (neg : Bool) (e : Fin 255) (m : BitVec 23) : ℚ :=
  if neg then -magnitude e m else magnitude e m

/-- `r` is the magnitude `x` rounded once by roundTiesToEven and given the sign `neg` (R171): infinity when
the rounded magnitude would be `2^128` or more, that is from halfway between the largest finite value
`2^128 - 2^104` and `2^128`; else the nearest representable value, the one with an even fraction on a
tie. -/
def RoundsTo (neg : Bool) (x : ℚ) (r : Binary32) : Prop :=
  (2 ^ 128 - 2 ^ 103 ≤ x → r = .inf neg) ∧
    (x < 2 ^ 128 - 2 ^ 103 → ∃ e m, r = .finite neg e m ∧
      ∀ e' m', |magnitude e m - x| ≤ |magnitude e' m' - x| ∧
        (|magnitude e m - x| = |magnitude e' m' - x| → (e' = e ∧ m' = m) ∨ m.toNat % 2 = 0))

/-- A value is a NaN. -/
abbrev IsNan (x : Binary32) : Prop := ∃ p, x = .nan p

/-- The binary32 operand a raw field gives: its low 32 bits as a float for `F32`, else its low `W(T)` bits
read as an integer (two's complement for a signed type) and converted (R172, R182). -/
def rawOperand (T : Ty) (raw : Word64) : Binary32 :=
  match T with
  | .f32 => Binary32.unpack (raw.setWidth 32)
  | .u8 => Binary32.ofInt (raw.setWidth 8).toNat
  | .u16 => Binary32.ofInt (raw.setWidth 16).toNat
  | .u32 => Binary32.ofInt (raw.setWidth 32).toNat
  | .u64 => Binary32.ofInt raw.toNat
  | .i8 => Binary32.ofInt (raw.setWidth 8).toInt
  | .i16 => Binary32.ofInt (raw.setWidth 16).toInt
  | .i32 => Binary32.ofInt (raw.setWidth 32).toInt
  | .i64 => Binary32.ofInt raw.toInt

/-- `Tmin` and `Tmax` of the integer types (R221). -/
def integerRange : Ty → Int × Int
  | .u8 => (0, 255)
  | .i8 => (-128, 127)
  | .u16 => (0, 65535)
  | .i16 => (-32768, 32767)
  | .u32 => (0, 4294967295)
  | .i32 => (-2147483648, 2147483647)
  | .u64 => (0, 18446744073709551615)
  | .i64 => (-9223372036854775808, 9223372036854775807)
  | .f32 => (0, 0)

/-- `fdiv(fsub(p, o), f)`, the quotient of a scaled insertion (R181, R220). -/
def scaledQuotient (p f o : Word32) : Binary32 :=
  ((Binary32.unpack p).sub (Binary32.unpack o)).div (Binary32.unpack f)

/-- The 64-bit value a scaled insertion inserts: for `F32` the quotient's pattern; for an integer type the
`W(T)`-bit two's-complement pattern of the truncated quotient when it has one in the type's range; none
where the command raises `CONV` (R220, R221). -/
def scaledPattern (T : Ty) (p f o : Word32) : Option Word64 :=
  if T = .f32 then some ((scaledQuotient p f o).pack.setWidth 64)
  else match (scaledQuotient p f o).trunc? with
    | none => none
    | some n =>
      if (integerRange T).1 ≤ n ∧ n ≤ (integerRange T).2 then
        some (BitVec.ofNat 64 (n % 2 ^ T.width).toNat)
      else none

/-! ### Instructions by what they may do -/

/-- The instructions that use the packet's value operand `a` (R60, R72). -/
def UsesValue (i : Instr) : Prop :=
  i = .fwr ∨ (∃ index, i = .wrb index) ∨
    (∃ T le len start, i = .set T le len start ∨ i = .sets T le len start) ∨
    ∃ T k, i = .setd T k ∨ i = .setsd T k

/-- The instructions that use the packet's factor `f` and offset `o` (R60). -/
def UsesScale (i : Instr) : Prop :=
  (∃ T le len start, i = .gets T le len start ∨ i = .sets T le len start) ∨
    ∃ k le len start, i = .desc k le len start

/-- The four insertion families, the only instructions that compute `ovf` (R32). -/
def IsInsertion (i : Instr) : Prop :=
  (∃ T le len start, i = .set T le len start ∨ i = .sets T le len start) ∨
    ∃ T k, i = .setd T k ∨ i = .setsd T k

/-- The instructions that read or write the buffer: the eight codec families, `RDB`, `WRB` and `FCLR`
(R23, R41). -/
def TouchesBuf (i : Instr) : Prop :=
  i = .fclr ∨ (∃ index, i = .rdb index ∨ i = .wrb index) ∨
    (∃ T le len start, i = .get T le len start ∨ i = .set T le len start ∨ i = .gets T le len start ∨
      i = .sets T le len start) ∨
    ∃ T k, i = .getd T k ∨ i = .setd T k ∨ i = .getsd T k ∨ i = .setsd T k

/-- The instructions that write the buffer: the four insertions, `WRB` and `FCLR` (R23). -/
def WritesBuf (i : Instr) : Prop :=
  i = .fclr ∨ (∃ index, i = .wrb index) ∨
    (∃ T le len start, i = .set T le len start ∨ i = .sets T le len start) ∨
    ∃ T k, i = .setd T k ∨ i = .setsd T k

/-! ### What an error leaves -/

/-- The state after a command that ends in error `e` (R300): the error's bit of `SR` is set, `ECW` takes
the command word when `SR[6:1]` was all zero, the response carries the code, and nothing else changes. -/
def afterError (e : Err) (s : State) : State :=
  { s with
    sr := s.sr ||| (1#32 <<< e.code)
    ecw := if s.sr &&& 0x7E#32 = 0#32 then s.packet.cw else s.ecw
    resp := { err := e, ovf := false, data := 0 } }

/-! ### The invariant -/

/-- What every reachable state has: the buffer in canonical form (R23, R40); a constructed slot has a
length of 1 to 64 (R28 a); `SR[31:7]` are zero (R29); `ECW` is zero while no error bit is set (R31). -/
structure Invariant (s : State) : Prop where
  buf : Memory.wf s.buf = true
  slots : ∀ (k : Nat) (d : Desc), s.desc[k]? = some d → d.v = true → 1 ≤ d.len.toNat ∧ d.len.toNat ≤ 64
  statusReserved : ∀ b, 7 ≤ b → s.sr.getLsbD b = false
  errorWord : (∀ b, 1 ≤ b → b ≤ 6 → s.sr.getLsbD b = false) → s.ecw = 0

/-- No error bit of `SR` is set: `SR[6:1]` is all zero (R31). -/
abbrev NoErrorBit (sr : Word32) : Prop := ∀ b, 1 ≤ b → b ≤ 6 → sr.getLsbD b = false

end Sys2Proof.Machine
end

