-- ==== Sys2Proof/Certificates/Slice0/Obligations.lean ====
section
/-! DEFINITION. The statements for the provers, each with the rule of spec/ it formalises. -/

section

open Sys2Proof Sys2Proof.Machine

/-! ### The command word -/

/-- R62 to R71, R74, R77: on a machine with or without the scale unit, decoding an encoded instruction that
the machine has gives it back, with every operand; one that needs the absent unit is refused. -/
def Obligations.DecodeEncodeRoundTrip : Prop :=
  ∀ (hasScale : Bool) (i : Instr),
    (i.wellFormedWith hasScale = true → decodeWith hasScale (encode i) = .ok i) ∧
      (i.wellFormedWith hasScale = false → decodeWith hasScale (encode i) = .error .noScaleUnit)

/-- R62, R74, R77: a word that decodes is the word of the instruction it decodes to, so no two words decode to
one instruction and no bit of a word is ignored. -/
def Obligations.EncodeDecodeRoundTrip : Prop :=
  ∀ (hasScale : Bool) (cw : Word32) (i : Instr), decodeWith hasScale cw = .ok i →
    encode i = cw ∧ i.wellFormedWith hasScale = true

/-- R74: a word is refused exactly when one of the seven conditions holds; the command then raises `ILLEGAL`
with no other effect; every other word decodes to exactly one instruction; the all-zero and the all-ones
words are illegal. -/
def Obligations.IllegalWordsExactly : Prop :=
  (∀ (hasScale : Bool) (cw : Word32),
    (IllegalWord hasScale cw ↔ ∃ r, decodeWith hasScale cw = .error r) ∧
      (¬ IllegalWord hasScale cw → ∃! i, decodeWith hasScale cw = .ok i) ∧
      IllegalWord hasScale 0x00000000#32 ∧ IllegalWord hasScale 0xFFFFFFFF#32) ∧
    ∀ (s : State) (p : Packet) (rest : List HostEvent), s.inputs = .command p :: rest →
      IllegalWord Config.hasScale p.cw →
        step s = .next { afterError .illegal s with inputs := rest }

/-- Words written out from the encodings of R62 to R71: one of each family and of each `SYS` function decodes
to the instruction it stands for. A sanity check. -/
def Obligations.DecodeSampleWords : Prop :=
  decode 0x10880004#32 = .ok (.getU8 true 8#7 4#16) ∧
  decode 0x230C0004#32 = .ok (.setI16 false 12#7 4#16) ∧
  decode 0x37C00040#32 = .ok (.getsI64 true 64#7 64#16) ∧
  decode 0x4C200000#32 = .ok (.setsF32 false 32#7 0#16) ∧
  decode 0x56000003#32 = .ok (.getdU64 3#4) ∧
  decode 0x61000001#32 = .ok (.setdI8 1#4) ∧
  decode 0x75000002#32 = .ok (.getsdI32 2#4) ∧
  decode 0x8C000000#32 = .ok (.setsdF32 0#4) ∧
  decode 0x92100018#32 = .ok (.desc 2#4 false 16#7 24#16) ∧
  decode 0xA0000000#32 = .ok .nop ∧
  decode 0xA1000000#32 = .ok .rdsr ∧
  decode 0xA2000000#32 = .ok .clrsr ∧
  decode 0xA3000000#32 = .ok .fclr ∧
  decode 0xA4000000#32 = .ok .fwr ∧
  decode 0xA5000000#32 = .ok .frd ∧
  decode 0xA6000040#32 = .ok (.rdb 64#16) ∧
  decode 0xA7000003#32 = .ok (.wrb 3#16)

/-! ### The step, reset, runs -/

/-- R22, R77: when the command presented decodes to an instruction, the step is that instruction's `exec` at
the same state, and the command leaves the host's sequence (the sequence is the model's own field,
notes/assumptions/1.md). -/
def Obligations.StepRunsDecodedInstruction : Prop :=
  ∀ (s : State) (p : Packet) (rest : List HostEvent) (i : Instr), s.inputs = .command p :: rest →
    decode p.cw = .ok i → i.wellFormed = true →
      step s = match exec i s with
        | .next t => .next { t with inputs := rest }
        | .fault r => .fault r
        | .refused r => .refused r

/-- R320, R321: the reset event replaces every item of the state, whatever it was, by its reset value. -/
def Obligations.ResetEventRestoresResetValues : Prop :=
  ∀ (s : State) (rest : List HostEvent), s.inputs = .reset :: rest →
    ∃ t, step s = .next t ∧ (∀ i, Memory.read t.buf i = 0#8) ∧
      t.fh = { id := 0#29, ext := false, rtr := false, brs := false, fdf := false, dlen := 0#7 } ∧
      (∀ k < Config.nDesc, t.desc[k]? =
        some { v := false, start := 0#16, len := 0#7, le := false, f := 0#32, o := 0#32 }) ∧
      t.sr = 0#32 ∧ t.ecw = 0#32

/-- R35: the value of every piece of state after reset. -/
def Obligations.ResetStateValues : Prop :=
  (∀ i, Memory.read State.reset.buf i = 0#8) ∧
    State.reset.fh =
      { id := 0#29, ext := false, rtr := false, brs := false, fdf := false, dlen := 0#7 } ∧
    (∀ k < Config.nDesc, State.reset.desc[k]? =
      some { v := false, start := 0#16, len := 0#7, le := false, f := 0#32, o := 0#32 }) ∧
    State.reset.sr = 0#32 ∧ State.reset.ecw = 0#32

/-- The consequences R321 draws: in the reset state, whatever is presented, `FRD` returns
`0x0000010000000000`, `RDSR` returns 0, every `GET` of a field in range returns 0, and every
descriptor-bound instruction raises `NODESC`. -/
def Obligations.ResetConsequences : Prop :=
  ∀ (inputs : List HostEvent), let s : State := { State.reset with inputs := inputs }
    exec .frd s = .next { s with resp := ⟨.ok, false, 0x0000010000000000#64⟩ } ∧
    exec .rdsr s = .next { s with resp := ⟨.ok, false, 0#64⟩ } ∧
    (∀ T le len start, FieldFits Config.bufSize { start := start, len := len, le := le } →
      exec (.get T le len start) s = .next { s with resp := ⟨.ok, false, 0#64⟩ }) ∧
    ∀ T k, exec (.getd T k) s = .next (afterError .nodesc s) ∧
      exec (.setd T k) s = .next (afterError .nodesc s) ∧
      exec (.getsd T k) s = .next (afterError .nodesc s) ∧
      exec (.setsd T k) s = .next (afterError .nodesc s)

/-- R302: state changes only as the effect of a command or of reset. That a step with nothing presented is
allowed, and changes nothing, is the model's own choice (notes/assumptions/4.md). -/
def Obligations.IdleStepChangesNothing : Prop :=
  ∀ s : State, s.inputs = [] → step s = .next s

/-- R326, R302 ("completes unconditionally"): every step on an event the host presents has a next state; no step
is a fault or a refusal. The statement also takes in a state that presents nothing, from which the spec has no
step: that a step exists there is the model's own choice (notes/assumptions/4.md). -/
def Obligations.EveryStepCompletes : Prop :=
  ∀ s : State, ∃ t, step s = .next t

/-- R22, R52, R301: a list of commands is performed to its end, one step each, in its order, errors included,
and what it leaves does not depend on what is presented after it. The list may also hold reset events: that
what is presented after a reset event stays presented is the model's own choice, as is the host's sequence
itself (notes/assumptions/1.md). -/
def Obligations.RunIgnoresLaterCommands : Prop :=
  ∀ (s : State) (events : List HostEvent), ∃ t : State, ∀ later : List HostEvent,
    Sys2Proof.core.run events.length { s with inputs := events ++ later } =
      .next { t with inputs := later }

/-! ### The invariant -/

/-- R23, R28 (a), R29, R31, R40, over one step from every state that has the invariant: the buffer stays
canonical, a constructed slot has a length of 1 to 64, `SR[31:7]` stay zero, and `ECW` is zero while no
error bit is set. -/
def Obligations.StepKeepsInvariant : Prop :=
  ∀ s t : State, Invariant s → step s = .next t → Invariant t

/-- The reset state has the invariant. -/
def Obligations.ResetHasInvariant : Prop := Invariant State.reset

/-! ### Rules of the whole machine -/

/-- R30, R31: at the end of every command `SR` gains the bit of its error and bit 0 when `ovf` is 1 and
loses none, and `ECW` takes the command word on an error when `SR[6:1]` was all zero and keeps its value
otherwise; `CLRSR` alone of the commands, and reset, write both with zero. -/
def Obligations.StatusAfterCommand : Prop :=
  ∀ (s t : State), step s = .next t →
    (∀ rest, s.inputs = .reset :: rest → t.sr = 0#32 ∧ t.ecw = 0#32) ∧
    ∀ (p : Packet) (rest : List HostEvent), s.inputs = .command p :: rest →
      (decode p.cw = .ok .clrsr → t.sr = 0#32 ∧ t.ecw = 0#32) ∧
      (decode p.cw ≠ .ok .clrsr →
        (∀ b, t.sr.getLsbD b = true ↔
          s.sr.getLsbD b = true ∨ (t.resp.err ≠ .ok ∧ b = t.resp.err.code) ∨
            (t.resp.ovf = true ∧ b = 0)) ∧
        (t.resp.err ≠ .ok → NoErrorBit s.sr → t.ecw = p.cw) ∧
        (¬ (t.resp.err ≠ .ok ∧ NoErrorBit s.sr) → t.ecw = s.ecw))

/-- R290, R300: a command that reports an error leaves `BUF`, `FH`, `DESC` and `SR[0]` as they were, sets
its error's bit of `SR`, gives `ECW` its word when no error bit was set, answers `ovf = 0` and `data = 0`,
and does nothing else. -/
def Obligations.FaultingCommandWritesNothing : Prop :=
  ∀ (s t : State) (p : Packet) (rest : List HostEvent), s.inputs = .command p :: rest →
    step s = .next t → t.resp.err ≠ .ok →
      t = { afterError t.resp.err s with inputs := rest } ∧ t.sr.getLsbD 0 = s.sr.getLsbD 0

/-- R32: `ovf` is 0 in the response of every instruction but the four insertions, of every illegal word, and
of every command that faults. -/
def Obligations.OverflowOnlyFromInsertions : Prop :=
  ∀ (s t : State) (p : Packet) (rest : List HostEvent), s.inputs = .command p :: rest →
    step s = .next t → t.resp.ovf = true →
      t.resp.err = .ok ∧ ∃ i, decode p.cw = .ok i ∧ IsInsertion i

/-- R26: the header is written only by `FWR` and `FCLR`, and read only by `FRD`: with any other header every
instruction but `FRD` does the same, and leaves that header in place unless it writes it. -/
def Obligations.HeaderReachedOnlyByItsInstructions : Prop :=
  ∀ (i : Instr) (s t : State) (h : Header), exec i s = .next t →
    (i ≠ .fwr → i ≠ .fclr → t.fh = s.fh) ∧
    (i ≠ .frd → i ≠ .fwr → i ≠ .fclr → exec i { s with fh := h } = .next { t with fh := h }) ∧
    (i = .fwr ∨ i = .fclr → exec i { s with fh := h } = .next t)

/-- R28 (b), (c): the slots are written only by `DESC`, which changes its own slot alone and whole; no command
makes a constructed slot unconstructed. -/
def Obligations.SlotsWrittenOnlyByDesc : Prop :=
  ∀ (i : Instr) (s t : State), exec i s = .next t →
    ((∀ k le len start, i ≠ .desc k le len start) → t.desc = s.desc) ∧
    (∀ k le len start, i = .desc k le len start → t.desc ≠ s.desc →
      t.desc[k.toNat]? = some { v := true, start := start, len := len, le := le, f := s.packet.f,
                                o := s.packet.o } ∧
      ∀ j, j ≠ k.toNat → t.desc[j]? = s.desc[j]?) ∧
    ∀ (j : Nat) (d : Desc), s.desc[j]? = some d → d.v = true → ∃ d', t.desc[j]? = some d' ∧ d'.v = true

/-- R23, R41: the buffer is written only by the insertions, `WRB` and `FCLR`; an instruction that does not
reach the buffer does the same on any buffer. -/
def Obligations.BufferReachedOnlyByItsInstructions : Prop :=
  ∀ (i : Instr) (s t : State) (m : Memory), exec i s = .next t →
    (¬ WritesBuf i → t.buf = s.buf) ∧
    (¬ TouchesBuf i → exec i { s with buf := m } = .next { t with buf := m })

/-- R60: a packet field an instruction ignores may hold any value and has no effect on state or response. -/
def Obligations.IgnoredOperandsHaveNoEffect : Prop :=
  ∀ (s : State) (p q : Packet) (rest : List HostEvent) (i : Instr), s.inputs = .command p :: rest →
    decode p.cw = .ok i → q.cw = p.cw → (UsesValue i → q.a = p.a) →
    (UsesScale i → q.f = p.f ∧ q.o = p.o) →
      step { s with inputs := .command q :: rest } = step s

/-- R34: no result is carried from one command to the next: a step that handles an event does the same
whatever the response port holds (the port is the model's own field, notes/assumptions/2.md). -/
def Obligations.ResponseNotCarried : Prop :=
  ∀ (s : State) (r : Response), s.inputs ≠ [] → step { s with resp := r } = step s

/-- R301: `SR` and `ECW` never gate, delay or alter a later command: with other values in them every command
but `RDSR` gives the same response, buffer, header and slots. -/
def Obligations.StatusNeverGates : Prop :=
  ∀ (s t : State) (sr ecw : Word32) (p : Packet) (rest : List HostEvent),
    s.inputs = .command p :: rest → decode p.cw ≠ .ok .rdsr → step s = .next t →
      ∃ u, step { s with sr := sr, ecw := ecw } = .next u ∧
        u.resp = t.resp ∧ u.buf = t.buf ∧ u.fh = t.fh ∧ u.desc = t.desc

/-- R50: repeating an insertion with the same operands leaves the buffer as the first one left it and gives
the same response; so does repeating an extraction, which changes no byte at all. -/
def Obligations.RepeatedCodecCommandAgrees : Prop :=
  ∀ (i : Instr) (s t : State), Memory.wf s.buf = true →
    (IsInsertion i ∨ (∃ T le len start, i = .get T le len start ∨ i = .gets T le len start) ∨
      ∃ T k, i = .getd T k ∨ i = .getsd T k) →
    exec i s = .next t →
      ∃ u, exec i t = .next u ∧ u.resp = t.resp ∧ u.buf = t.buf ∧ (¬ IsInsertion i → t.buf = s.buf)

/-! ### The codec instructions -/

/-- R110, for each of the nine `GET.T`: where the layout checks pass, the response carries the low `W(T)` bits
of the field's value, zero-extended, and nothing else changes; else the first failing check's error. -/
def Obligations.GetExtractsField : Prop :=
  ∀ (T : Ty) (le : Bool) (len : BitVec 7) (start : BitVec 16) (s : State),
    let l : Layout := { start := start, len := len, le := le }
    decode (0x1#4 ++ T.code ++ BitVec.ofBool le ++ len ++ start) = .ok (.get T le len start) ∧
    (FieldFits Config.bufSize l → ∃ raw, HoldsField s.buf l raw ∧
      exec (.get T le len start) s =
        .next { s with resp := ⟨.ok, false, BitVec.ofNat 64 (raw.toNat % 2 ^ T.width)⟩ }) ∧
    ∀ e, layoutError Config.bufSize l = some e →
      exec (.get T le len start) s = .next (afterError e s)

/-- R111, for each of the nine `GETD.T`: on a constructed slot, what `GET.T` does with the slot's layout (which
never fails the length check in a state with the invariant); else `NODESC`. -/
def Obligations.GetdExtractsSlotField : Prop :=
  ∀ (T : Ty) (k : BitVec 4) (s : State),
    (∀ z : BitVec 20, decode (0x5#4 ++ T.code ++ z ++ k) =
      if z = 0#20 then .ok (.getd T k) else .error .boundFieldNotZero) ∧
    (∀ d, s.desc[k.toNat]? = some d → d.v = true →
      let l : Layout := { start := d.start, len := d.len, le := d.le }
      (FieldFits Config.bufSize l → ∃ raw, HoldsField s.buf l raw ∧
        exec (.getd T k) s =
          .next { s with resp := ⟨.ok, false, BitVec.ofNat 64 (raw.toNat % 2 ^ T.width)⟩ }) ∧
      (∀ e, layoutError Config.bufSize l = some e →
        exec (.getd T k) s = .next (afterError e s)) ∧
      (Invariant s → layoutError Config.bufSize l ≠ some .length)) ∧
    ((∀ d, s.desc[k.toNat]? = some d → d.v = false) →
      exec (.getd T k) s = .next (afterError .nodesc s))

/-- R140, for each of the nine `SET.T`: where the layout checks pass, the field takes the low `LEN` bits of the
zero-extended low `W(T)` bits of `a`, every other bit of the buffer stays, `ovf` and its sticky copy say
whether a bit was dropped, and nothing else changes; else the first failing check's error. -/
def Obligations.SetInsertsField : Prop :=
  ∀ (T : Ty) (le : Bool) (len : BitVec 7) (start : BitVec 16) (s : State),
    let l : Layout := { start := start, len := len, le := le }
    let v : Word64 := BitVec.ofNat 64 (s.packet.a.toNat % 2 ^ T.width)
    decode (0x2#4 ++ T.code ++ BitVec.ofBool le ++ len ++ start) = .ok (.set T le len start) ∧
    (Memory.wf s.buf = true → FieldFits Config.bufSize l →
      ∃ buf, Memory.wf buf = true ∧ FieldReplaced s.buf buf l v ∧
        (∀ i, i < start.toNat / 8 ∨ (start.toNat + len.toNat - 1) / 8 < i →
          Memory.read buf i = Memory.read s.buf i) ∧
        exec (.set T le len start) s =
          .next { s with
            buf := buf
            sr := if 2 ^ len.toNat ≤ v.toNat then s.sr ||| 1#32 else s.sr
            resp := ⟨.ok, decide (2 ^ len.toNat ≤ v.toNat), 0#64⟩ }) ∧
    ∀ e, layoutError Config.bufSize l = some e →
      exec (.set T le len start) s = .next (afterError e s)

/-- R141, for each of the nine `SETD.T`: on a constructed slot, what `SET.T` does with the slot's layout (which
never fails the length check in a state with the invariant); else `NODESC`. -/
def Obligations.SetdInsertsSlotField : Prop :=
  ∀ (T : Ty) (k : BitVec 4) (s : State),
    let v : Word64 := BitVec.ofNat 64 (s.packet.a.toNat % 2 ^ T.width)
    (∀ z : BitVec 20, decode (0x6#4 ++ T.code ++ z ++ k) =
      if z = 0#20 then .ok (.setd T k) else .error .boundFieldNotZero) ∧
    (∀ d, s.desc[k.toNat]? = some d → d.v = true →
      let l : Layout := { start := d.start, len := d.len, le := d.le }
      (Memory.wf s.buf = true → FieldFits Config.bufSize l →
        ∃ buf, Memory.wf buf = true ∧ FieldReplaced s.buf buf l v ∧
          (∀ i, i < d.start.toNat / 8 ∨ (d.start.toNat + d.len.toNat - 1) / 8 < i →
            Memory.read buf i = Memory.read s.buf i) ∧
          exec (.setd T k) s =
            .next { s with
              buf := buf
              sr := if 2 ^ d.len.toNat ≤ v.toNat then s.sr ||| 1#32 else s.sr
              resp := ⟨.ok, decide (2 ^ d.len.toNat ≤ v.toNat), 0#64⟩ }) ∧
      (∀ e, layoutError Config.bufSize l = some e →
        exec (.setd T k) s = .next (afterError e s)) ∧
      (Invariant s → layoutError Config.bufSize l ≠ some .length)) ∧
    ((∀ d, s.desc[k.toNat]? = some d → d.v = false) →
      exec (.setd T k) s = .next (afterError .nodesc s))

/-- R190, for each of the nine `GETS.T`: where the layout checks pass, the response carries the pattern of
`fadd(fmul(raw, f), o)` with the packet's factor and offset, and nothing else changes; else the first
failing check's error. The words decode to `GETS.T` exactly when the scale unit is there and the type code
is not reserved. -/
def Obligations.GetsExtractsScaledField : Prop :=
  ∀ (T : Ty) (le : Bool) (len : BitVec 7) (start : BitVec 16) (s : State),
    let l : Layout := { start := start, len := len, le := le }
    decode (0x3#4 ++ T.code ++ BitVec.ofBool le ++ len ++ start) = .ok (.gets T le len start) ∧
    (∀ (hasScale : Bool) (code : BitVec 4),
      (∃ r, decodeWith hasScale (0x3#4 ++ code ++ BitVec.ofBool le ++ len ++ start) = .error r) ↔
        hasScale = false ∨ ¬ (code.toNat ≤ 7 ∨ code.toNat = 12)) ∧
    (FieldFits Config.bufSize l → ∃ raw, HoldsField s.buf l raw ∧
      exec (.gets T le len start) s =
        .next { s with resp := ⟨.ok, false,
          (((rawOperand T raw).mul (Binary32.unpack s.packet.f)).add
            (Binary32.unpack s.packet.o)).pack.setWidth 64⟩ }) ∧
    ∀ e, layoutError Config.bufSize l = some e →
      exec (.gets T le len start) s = .next (afterError e s)

/-- R191, for each of the nine `GETSD.T`: on a constructed slot, what `GETS.T` does with the slot's layout,
factor and offset (a layout that never fails the length check in a state with the invariant); else
`NODESC`. -/
def Obligations.GetsdExtractsScaledSlotField : Prop :=
  ∀ (T : Ty) (k : BitVec 4) (s : State),
    (∀ z : BitVec 20, decode (0x7#4 ++ T.code ++ z ++ k) =
      if z = 0#20 then .ok (.getsd T k) else .error .boundFieldNotZero) ∧
    (∀ d, s.desc[k.toNat]? = some d → d.v = true →
      let l : Layout := { start := d.start, len := d.len, le := d.le }
      (FieldFits Config.bufSize l → ∃ raw, HoldsField s.buf l raw ∧
        exec (.getsd T k) s =
          .next { s with resp := ⟨.ok, false,
            (((rawOperand T raw).mul (Binary32.unpack d.f)).add
              (Binary32.unpack d.o)).pack.setWidth 64⟩ }) ∧
      (∀ e, layoutError Config.bufSize l = some e →
        exec (.getsd T k) s = .next (afterError e s)) ∧
      (Invariant s → layoutError Config.bufSize l ≠ some .length)) ∧
    ((∀ d, s.desc[k.toNat]? = some d → d.v = false) →
      exec (.getsd T k) s = .next (afterError .nodesc s))

/-- R230, for each of the nine `SETS.T`: a failing layout check's error comes first; then `CONV` where the
quotient has no raw pattern (R220, R221); else the field takes the low `LEN` bits of the pattern, as in
R140. The words decode to `SETS.T` exactly when the scale unit is there and the type code is not
reserved. -/
def Obligations.SetsInsertsScaledValue : Prop :=
  ∀ (T : Ty) (le : Bool) (len : BitVec 7) (start : BitVec 16) (s : State),
    let l : Layout := { start := start, len := len, le := le }
    let pattern := scaledPattern T (s.packet.a.setWidth 32) s.packet.f s.packet.o
    decode (0x4#4 ++ T.code ++ BitVec.ofBool le ++ len ++ start) = .ok (.sets T le len start) ∧
    (∀ (hasScale : Bool) (code : BitVec 4),
      (∃ r, decodeWith hasScale (0x4#4 ++ code ++ BitVec.ofBool le ++ len ++ start) = .error r) ↔
        hasScale = false ∨ ¬ (code.toNat ≤ 7 ∨ code.toNat = 12)) ∧
    (∀ v, Memory.wf s.buf = true → FieldFits Config.bufSize l → pattern = some v →
      ∃ buf, Memory.wf buf = true ∧ FieldReplaced s.buf buf l v ∧
        (∀ i, i < start.toNat / 8 ∨ (start.toNat + len.toNat - 1) / 8 < i →
          Memory.read buf i = Memory.read s.buf i) ∧
        exec (.sets T le len start) s =
          .next { s with
            buf := buf
            sr := if 2 ^ len.toNat ≤ v.toNat then s.sr ||| 1#32 else s.sr
            resp := ⟨.ok, decide (2 ^ len.toNat ≤ v.toNat), 0#64⟩ }) ∧
    (FieldFits Config.bufSize l → pattern = none →
      exec (.sets T le len start) s = .next (afterError .conv s)) ∧
    ∀ e, layoutError Config.bufSize l = some e →
      exec (.sets T le len start) s = .next (afterError e s)

/-- R231, for each of the nine `SETSD.T`: on a constructed slot, what `SETS.T` does with the slot's layout,
factor and offset (a layout that never fails the length check in a state with the invariant); else
`NODESC`. -/
def Obligations.SetsdInsertsScaledSlotValue : Prop :=
  ∀ (T : Ty) (k : BitVec 4) (s : State),
    (∀ z : BitVec 20, decode (0x8#4 ++ T.code ++ z ++ k) =
      if z = 0#20 then .ok (.setsd T k) else .error .boundFieldNotZero) ∧
    (∀ d, s.desc[k.toNat]? = some d → d.v = true →
      let l : Layout := { start := d.start, len := d.len, le := d.le }
      let pattern := scaledPattern T (s.packet.a.setWidth 32) d.f d.o
      (∀ v, Memory.wf s.buf = true → FieldFits Config.bufSize l → pattern = some v →
        ∃ buf, Memory.wf buf = true ∧ FieldReplaced s.buf buf l v ∧
          (∀ i, i < d.start.toNat / 8 ∨ (d.start.toNat + d.len.toNat - 1) / 8 < i →
            Memory.read buf i = Memory.read s.buf i) ∧
          exec (.setsd T k) s =
            .next { s with
              buf := buf
              sr := if 2 ^ d.len.toNat ≤ v.toNat then s.sr ||| 1#32 else s.sr
              resp := ⟨.ok, decide (2 ^ d.len.toNat ≤ v.toNat), 0#64⟩ }) ∧
      (FieldFits Config.bufSize l → pattern = none →
        exec (.setsd T k) s = .next (afterError .conv s)) ∧
      (∀ e, layoutError Config.bufSize l = some e →
        exec (.setsd T k) s = .next (afterError e s)) ∧
      (Invariant s → layoutError Config.bufSize l ≠ some .length)) ∧
    ((∀ d, s.desc[k.toNat]? = some d → d.v = false) →
      exec (.setsd T k) s = .next (afterError .nodesc s))

/-- R222, for `SETS.T` with the packet's factor and offset and for `SETSD.T` with its slot's: with a zero factor
of either sign and a field that fits, an integer type ends in `CONV` and writes nothing; `F32` answers
`err = 0` and, on a canonical buffer, the field takes the low `LEN` bits of an infinity's pattern, or of a
NaN's when `p - o` is a zero or a NaN, every other bit of the buffer stays, and nothing but `SR` and the
response changes besides. -/
def Obligations.ZeroFactorEndsInConv : Prop :=
  ∀ (T : Ty) (l : Layout) (f o : Word32) (i : Instr) (s : State),
    (i = .sets T l.le l.len l.start ∧ f = s.packet.f ∧ o = s.packet.o) ∨
      (∃ (k : BitVec 4) (d : Desc), i = .setsd T k ∧ s.desc[k.toNat]? = some d ∧ d.v = true ∧
        l = { start := d.start, len := d.len, le := d.le } ∧ f = d.f ∧ o = d.o) →
    FieldFits Config.bufSize l → f = 0x00000000#32 ∨ f = 0x80000000#32 →
    let diff := (Binary32.unpack (s.packet.a.setWidth 32)).sub (Binary32.unpack o)
    let zeroOrNan := IsNan diff ∨ ∃ neg e m, diff = .finite neg e m ∧ magnitude e m = 0
    (T ≠ .f32 → exec i s = .next (afterError .conv s)) ∧
    (T = .f32 → ∃ (t : State) (r : Binary32), exec i s = .next t ∧ t.resp.err = .ok ∧
      (zeroOrNan → IsNan r) ∧ (¬ zeroOrNan → ∃ neg, r = .inf neg) ∧
      (Memory.wf s.buf = true → Memory.wf t.buf = true ∧
        FieldReplaced s.buf t.buf l (r.pack.setWidth 64)) ∧
      t = { s with buf := t.buf, sr := t.sr, resp := t.resp })

/-- R224: after a scaled insertion that drops no bit, the scaled extraction of the same field with the same
factor and offset returns the transform of the very pattern that was stored. -/
def Obligations.ScaledRoundTrip : Prop :=
  ∀ (T : Ty) (le : Bool) (len : BitVec 7) (start : BitVec 16) (s t u : State),
    Memory.wf s.buf = true → exec (.sets T le len start) s = .next t → t.resp.err = .ok →
    t.resp.ovf = false → u.buf = t.buf → u.packet.f = s.packet.f → u.packet.o = s.packet.o →
      ∃ v, scaledPattern T (s.packet.a.setWidth 32) s.packet.f s.packet.o = some v ∧
        exec (.gets T le len start) u =
          .next { u with resp := ⟨.ok, false,
            (((rawOperand T v).mul (Binary32.unpack s.packet.f)).add
              (Binary32.unpack s.packet.o)).pack.setWidth 64⟩ }

/-! ### The descriptor instruction and the system functions -/

/-- R260: `NODESC` for a slot the machine does not have, then `LENGTH`, else the six fields of the slot at
once; nothing else. All words with `OP = 0x9` are `DESC` (R70). -/
def Obligations.DescConstructsSlot : Prop :=
  ∀ (k : BitVec 4) (le : Bool) (len : BitVec 7) (start : BitVec 16) (s : State),
    decode (0x9#4 ++ k ++ BitVec.ofBool le ++ len ++ start) = .ok (.desc k le len start) ∧
    (Config.nDesc ≤ k.toNat → exec (.desc k le len start) s = .next (afterError .nodesc s)) ∧
    (k.toNat < Config.nDesc → len.toNat = 0 ∨ 64 < len.toNat →
      exec (.desc k le len start) s = .next (afterError .length s)) ∧
    (k.toNat < Config.nDesc → 1 ≤ len.toNat → len.toNat ≤ 64 →
      ∃ desc, exec (.desc k le len start) s =
          .next { s with desc := desc, resp := ⟨.ok, false, 0#64⟩ } ∧
        desc[k.toNat]? = some { v := true, start := start, len := len, le := le, f := s.packet.f,
                                o := s.packet.o } ∧
        ∀ j, j ≠ k.toNat → desc[j]? = s.desc[j]?)

/-- R261: `NOP` changes nothing but the response; of all words `0xA0000000` alone decodes to it, and a word with
its function code and another bit set is illegal. -/
def Obligations.NopChangesNothing : Prop :=
  (∀ s : State, exec .nop s = .next { s with resp := ⟨.ok, false, 0#64⟩ }) ∧
    (∀ z : BitVec 24, (z = 0#24 → decode (0xA0#8 ++ z) = .ok .nop) ∧
      (z ≠ 0#24 → ∃ r, decode (0xA0#8 ++ z) = .error r)) ∧
    ∀ cw : Word32, decode cw = .ok .nop ↔ cw = 0xA0000000#32

/-- R262: `RDSR` returns `{ECW, SR}` as they are before it and changes nothing. -/
def Obligations.RdsrReadsStatus : Prop :=
  (∀ s : State, exec .rdsr s =
      .next { s with resp := ⟨.ok, false, BitVec.ofNat 64 (s.ecw.toNat * 2 ^ 32 + s.sr.toNat)⟩ }) ∧
    ∀ z : BitVec 24, (z = 0#24 → decode (0xA1#8 ++ z) = .ok .rdsr) ∧
      (z ≠ 0#24 → ∃ r, decode (0xA1#8 ++ z) = .error r)

/-- R263: `CLRSR` writes `SR` and `ECW` with zero and changes nothing else. -/
def Obligations.ClrsrClearsStatus : Prop :=
  (∀ s : State, exec .clrsr s =
      .next { s with sr := 0#32, ecw := 0#32, resp := ⟨.ok, false, 0#64⟩ }) ∧
    ∀ z : BitVec 24, (z = 0#24 → decode (0xA2#8 ++ z) = .ok .clrsr) ∧
      (z ≠ 0#24 → ∃ r, decode (0xA2#8 ++ z) = .error r)

/-- R264: `FCLR` zeroes every byte of the buffer and every field of the header and changes nothing else. -/
def Obligations.FclrDefaultsFrame : Prop :=
  (∀ s : State, ∃ buf, (∀ i, Memory.read buf i = 0#8) ∧ Memory.wf buf = true ∧
      exec .fclr s = .next { s with
        buf := buf
        fh := { id := 0#29, ext := false, rtr := false, brs := false, fdf := false, dlen := 0#7 }
        resp := ⟨.ok, false, 0#64⟩ }) ∧
    ∀ z : BitVec 24, (z = 0#24 → decode (0xA3#8 ++ z) = .ok .fclr) ∧
      (z ≠ 0#24 → ∃ r, decode (0xA3#8 ++ z) = .error r)

/-- R265: `FWR` stores `a[39:0]` in the six fields, whatever they are, and changes nothing else. -/
def Obligations.FwrWritesHeader : Prop :=
  (∀ s : State, exec .fwr s = .next { s with
      fh :=
        { id := s.packet.a.extractLsb' 0 29, ext := s.packet.a.getLsbD 29
          rtr := s.packet.a.getLsbD 30, brs := s.packet.a.getLsbD 31
          fdf := s.packet.a.getLsbD 32, dlen := s.packet.a.extractLsb' 33 7 }
      resp := ⟨.ok, false, 0#64⟩ }) ∧
    ∀ z : BitVec 24, (z = 0#24 → decode (0xA4#8 ++ z) = .ok .fwr) ∧
      (z ≠ 0#24 → ∃ r, decode (0xA4#8 ++ z) = .error r)

/-- R266, R25: `FRD` returns the packed header with its validity in bit 40 and changes nothing. -/
def Obligations.FrdReadsHeader : Prop :=
  (∀ s : State, exec .frd s = .next { s with
      resp := ⟨.ok, false,
        0#23 ++
          BitVec.ofBool (decide (¬ (s.fh.rtr = true ∧ s.fh.fdf = true) ∧
            ¬ (s.fh.brs = true ∧ s.fh.fdf = false) ∧ s.fh.dlen.toNat ≤ 64)) ++
          s.fh.dlen ++ BitVec.ofBool s.fh.fdf ++ BitVec.ofBool s.fh.brs ++
          BitVec.ofBool s.fh.rtr ++ BitVec.ofBool s.fh.ext ++ s.fh.id⟩ }) ∧
    ∀ z : BitVec 24, (z = 0#24 → decode (0xA5#8 ++ z) = .ok .frd) ∧
      (z ≠ 0#24 → ∃ r, decode (0xA5#8 ++ z) = .error r)

/-- R24, R265, R266: what `FWR` writes `FRD` returns: bits 39:0 as written, bit 40 the validity of what was
written, bits 63:41 zero, whatever `a[63:40]` held. -/
def Obligations.HeaderRoundTrip : Prop :=
  ∀ s t : State, exec .fwr s = .next t →
    ∃ u, exec .frd t = .next u ∧ u.resp.err = .ok ∧ u.fh = t.fh ∧
      (∀ b, b < 40 → u.resp.data.getLsbD b = s.packet.a.getLsbD b) ∧
      (u.resp.data.getLsbD 40 = true ↔
        ¬ (s.packet.a.getLsbD 30 = true ∧ s.packet.a.getLsbD 32 = true) ∧
        ¬ (s.packet.a.getLsbD 31 = true ∧ s.packet.a.getLsbD 32 = false) ∧
        s.packet.a.toNat / 2 ^ 33 % 128 ≤ 64) ∧
      ∀ b, 41 ≤ b → u.resp.data.getLsbD b = false

/-- R267: `RDB` returns one byte of the buffer or raises `BOUNDS`, changes nothing, and is `GET.U8 le,
8*index, 8` wherever `8*index` fits in 16 bits. -/
def Obligations.RdbReadsByte : Prop :=
  ∀ (index : BitVec 16) (s : State),
    (∀ z : BitVec 8, (z = 0#8 → decode (0xA6#8 ++ z ++ index) = .ok (.rdb index)) ∧
      (z ≠ 0#8 → ∃ r, decode (0xA6#8 ++ z ++ index) = .error r)) ∧
    (index.toNat < Config.bufSize → exec (.rdb index) s =
      .next { s with resp := ⟨.ok, false, (Memory.read s.buf index.toNat).setWidth 64⟩ }) ∧
    (Config.bufSize ≤ index.toNat → exec (.rdb index) s = .next (afterError .bounds s)) ∧
    (8 * index.toNat < 2 ^ 16 →
      exec (.rdb index) s = exec (.getU8 true 8#7 (BitVec.ofNat 16 (8 * index.toNat))) s)

/-- R268: `WRB` writes `a[7:0]` to one byte of the buffer and changes nothing else, or raises `BOUNDS`. -/
def Obligations.WrbWritesByte : Prop :=
  ∀ (index : BitVec 16) (s : State),
    (∀ z : BitVec 8, (z = 0#8 → decode (0xA7#8 ++ z ++ index) = .ok (.wrb index)) ∧
      (z ≠ 0#8 → ∃ r, decode (0xA7#8 ++ z ++ index) = .error r)) ∧
    (Memory.wf s.buf = true → index.toNat < Config.bufSize →
      ∃ buf, Memory.wf buf = true ∧ Memory.read buf index.toNat = s.packet.a.setWidth 8 ∧
        (∀ i, i ≠ index.toNat → Memory.read buf i = Memory.read s.buf i) ∧
        exec (.wrb index) s = .next { s with buf := buf, resp := ⟨.ok, false, 0#64⟩ }) ∧
    (Config.bufSize ≤ index.toNat → exec (.wrb index) s = .next (afterError .bounds s))

/-! ### Extract and Insert, on a buffer of any extent -/

/-- R101: after an insertion the extraction of the same field returns the value's low `LEN` bits, and the value
itself when `ovf` is 0. -/
def Obligations.InsertThenExtract : Prop :=
  ∀ (n : Nat) (m m' : Memory) (v : Word64) (l : Layout) (ovf : Bool), Memory.wfFrom n 0 m = true →
    insert n m v l = .ok (m', ovf) →
      extract n m' l = .ok (BitVec.ofNat 64 (v.toNat % 2 ^ l.len.toNat)) ∧
        (ovf = false → extract n m' l = .ok v)

/-- R102: inserting one field does not change what is extracted from another that shares no physical bit with
it, whatever the modes. -/
def Obligations.DisjointInsert : Prop :=
  ∀ (n : Nat) (m m' : Memory) (v : Word64) (l l' : Layout) (ovf : Bool), Memory.wfFrom n 0 m = true →
    DisjointFields l l' → insert n m v l = .ok (m', ovf) → extract n m' l' = extract n m l'

/-- R105: the result of an extraction or an insertion is the same as on a buffer extended with any bytes at
all. -/
def Obligations.ClampNeverObserved : Prop :=
  ∀ (n n' : Nat) (m m' : Memory) (v : Word64) (l : Layout), Memory.wfFrom n 0 m = true →
    Memory.wfFrom n' 0 m' = true → n ≤ n' → (∀ i < n, Memory.read m' i = Memory.read m i) →
    FieldFits n l →
      extract n' m' l = extract n m l ∧
      ∃ b b' ovf, insert n m v l = .ok (b, ovf) ∧ insert n' m' v l = .ok (b', ovf) ∧
        (∀ i < n, Memory.read b' i = Memory.read b i) ∧
        ∀ i, n ≤ i → Memory.read b' i = Memory.read m' i

/-- R106: inside one byte, the little-endian field at offset `s` and the big-endian field at offset
`8 - s - LEN` give the same value; with one start bit the two modes read different bits unless
`2s + LEN = 8`. -/
def Obligations.SingleByteNumberings : Prop :=
  ∀ (n b0 sub : Nat) (len : BitVec 7), b0 < n → b0 < 8192 → 1 ≤ len.toNat → sub + len.toNat ≤ 8 →
    (∀ m : Memory,
      extract n m { start := BitVec.ofNat 16 (8 * b0 + sub), len := len, le := true } =
        extract n m { start := BitVec.ofNat 16 (8 * b0 + (8 - sub - len.toNat)), len := len,
                      le := false }) ∧
    (2 * sub + len.toNat ≠ 8 → ∃ m : Memory, Memory.wfFrom n 0 m = true ∧
      extract n m { start := BitVec.ofNat 16 (8 * b0 + sub), len := len, le := true } ≠
        extract n m { start := BitVec.ofNat 16 (8 * b0 + sub), len := len, le := false })

/-- R104: with `LEN = 64` a field that fits starts on a byte, an extraction returns its eight bytes (reversed
in big-endian mode), an insertion replaces the eight bytes and never overflows; off a byte boundary it
raises `SPAN`. -/
def Obligations.LengthSixtyFour : Prop :=
  ∀ (n : Nat) (m : Memory) (v : Word64) (l : Layout), Memory.wfFrom n 0 m = true →
    l.len.toNat = 64 →
    (l.start.toNat % 8 ≠ 0 → extract n m l = .error .span ∧ insert n m v l = .error .span) ∧
    (FieldFits n l → l.start.toNat % 8 = 0 ∧
      (∃ raw, extract n m l = .ok raw ∧ ∀ j < 8,
        raw.extractLsb' (if l.le then 8 * j else 56 - 8 * j) 8 =
          Memory.read m (l.start.toNat / 8 + j)) ∧
      ∃ m', insert n m v l = .ok (m', false) ∧ ∀ j < 8,
        Memory.read m' (l.start.toNat / 8 + j) =
          v.extractLsb' (if l.le then 8 * j else 56 - 8 * j) 8)

/-! ### The binary32 arithmetic of the scale unit -/

/-- R170: what each pattern stands for, by its exponent and fraction, and that a value is packed into the
pattern that stands for it. -/
def Obligations.PatternsAndValues : Prop :=
  (∀ x : Word32, let e : Nat := x.toNat / 2 ^ 23 % 256
      let m : Nat := x.toNat % 2 ^ 23
      (e = 255 → m ≠ 0 → IsNan (Binary32.unpack x)) ∧
      (e = 255 → m = 0 → Binary32.unpack x = .inf (x.getLsbD 31)) ∧
      (e ≠ 255 → ∃ E M, Binary32.unpack x = .finite (x.getLsbD 31) E M ∧
        signedValue (x.getLsbD 31) E M =
          (if x.getLsbD 31 then -1 else 1 : ℚ) *
            if e = 0 then (m : ℚ) * 2 ^ (-149 : ℤ) else (2 ^ 23 + (m : ℚ)) * 2 ^ ((e : ℤ) - 150)) ∧
      (Binary32.unpack x).pack = x) ∧
    ∀ v : Binary32, Binary32.unpack v.pack = v

/-- R171: the one rounding step of the unit, on any exact magnitude `num / den` in units of `2^-149`, is
roundTiesToEven. -/
def Obligations.RoundingIsNearestEven : Prop :=
  ∀ (neg : Bool) (num den : Nat), 0 < den →
    RoundsTo neg ((num : ℚ) / den * 2 ^ (-149 : ℤ)) (roundUnits neg num den)

/-- R172: an integer is converted by one rounding, 0 to `+0`, exactly below `2^24`, and never to an infinity
below `2^64`; a raw field is read as unsigned or two's complement by its type. -/
def Obligations.IntegerConversion : Prop :=
  (∀ n : Int,
    (n = 0 → (Binary32.ofInt n).pack = 0x00000000#32) ∧
    (0 < n → RoundsTo false (n : ℚ) (Binary32.ofInt n)) ∧
    (n < 0 → RoundsTo true (-(n : ℚ)) (Binary32.ofInt n)) ∧
    (n.natAbs < 2 ^ 24 → ∃ neg e m, Binary32.ofInt n = .finite neg e m ∧
      signedValue neg e m = (n : ℚ)) ∧
    (n.natAbs < 2 ^ 64 → ∃ neg e m, Binary32.ofInt n = .finite neg e m)) ∧
    ∀ (T : Ty) (raw : Word64), interp T raw = rawOperand T raw

/-- R173: `fmul` on every pair of values. -/
def Obligations.MultiplicationRounds : Prop :=
  ∀ (x y : Binary32) (s t : Bool) (e e' : Fin 255) (m m' : BitVec 23),
    (IsNan x ∨ IsNan y → IsNan (x.mul y)) ∧
    (magnitude e m = 0 → IsNan ((Binary32.inf s).mul (.finite t e m)) ∧
      IsNan ((Binary32.finite t e m).mul (.inf s))) ∧
    (magnitude e m ≠ 0 → (Binary32.inf s).mul (.finite t e m) = .inf (s ^^ t) ∧
      (Binary32.finite t e m).mul (.inf s) = .inf (t ^^ s)) ∧
    (Binary32.inf s).mul (.inf t) = .inf (s ^^ t) ∧
    RoundsTo (s ^^ t) (magnitude e m * magnitude e' m')
      ((Binary32.finite s e m).mul (.finite t e' m'))

/-- R174: `fadd` on every pair of values. -/
def Obligations.AdditionRounds : Prop :=
  ∀ (x y : Binary32) (s t : Bool) (e e' : Fin 255) (m m' : BitVec 23),
    let sum := signedValue s e m + signedValue t e' m'
    let r := (Binary32.finite s e m).add (.finite t e' m')
    (IsNan x ∨ IsNan y → IsNan (x.add y)) ∧
    IsNan ((Binary32.inf s).add (.inf !s)) ∧
    (Binary32.inf s).add (.inf s) = .inf s ∧
    (Binary32.inf s).add (.finite t e m) = .inf s ∧
    (Binary32.finite t e m).add (.inf s) = .inf s ∧
    (0 < sum → RoundsTo false sum r) ∧
    (sum < 0 → RoundsTo true (-sum) r) ∧
    (sum = 0 → r = .finite (s && t) 0 0#23)

/-- From R175 and R178: `fsub(x, y)` is `fadd(x, neg(y))` wherever that is no NaN and a NaN where it is one; `neg` flips the
sign bit; `x - x` is `+0` and infinities of like signs give a NaN. Which NaN a subtraction returns is open
(R178), and the model's choice is to give it the subtraction's own (notes/assumptions/3.md), so where the
result is a NaN the statement says less than R175's equality. -/
def Obligations.SubtractionIsAdditionOfNegation : Prop :=
  ∀ (x y : Binary32) (s : Bool) (e : Fin 255) (m : BitVec 23),
    (IsNan x ∨ IsNan y → IsNan (x.sub y)) ∧
    (¬ IsNan y → y.neg.pack = y.pack ^^^ 0x80000000#32) ∧
    (IsNan (x.add y.neg) ↔ IsNan (x.sub y)) ∧
    (¬ IsNan (x.add y.neg) → x.sub y = x.add y.neg) ∧
    (Binary32.finite s e m).sub (.finite s e m) = .finite false 0 0#23 ∧
    IsNan ((Binary32.inf s).sub (.inf s))

/-- From R176 and R171: `fdiv` on every pair of values. That a zero divided by a finite value that is not zero, and
a quotient that rounds to zero, have the xor of the signs is the model's reading, R176 giving no sign there
(notes/assumptions/9.md). -/
def Obligations.DivisionRounds : Prop :=
  ∀ (x y : Binary32) (s t : Bool) (e e' : Fin 255) (m m' : BitVec 23),
    let q := (Binary32.finite s e m).div (.finite t e' m')
    (IsNan x ∨ IsNan y → IsNan (x.div y)) ∧
    IsNan ((Binary32.inf s).div (.inf t)) ∧
    (magnitude e m = 0 → magnitude e' m' = 0 → IsNan q) ∧
    (Binary32.inf s).div (.finite t e m) = .inf (s ^^ t) ∧
    (Binary32.finite s e m).div (.inf t) = .finite (s ^^ t) 0 0#23 ∧
    (magnitude e m ≠ 0 → magnitude e' m' = 0 → q = .inf (s ^^ t)) ∧
    (magnitude e' m' ≠ 0 → RoundsTo (s ^^ t) (magnitude e m / magnitude e' m') q)

/-- R177: a finite value's fractional part is discarded, toward zero; a NaN and an infinity have no integer. -/
def Obligations.TruncationTowardZero : Prop :=
  (∀ (s : Bool) (e : Fin 255) (m : BitVec 23), ∃ n : Int,
    (Binary32.finite s e m).trunc? = some n ∧
      (0 ≤ signedValue s e m → (n : ℚ) ≤ signedValue s e m ∧ signedValue s e m < n + 1 ∧ 0 ≤ n) ∧
      (signedValue s e m ≤ 0 → signedValue s e m ≤ n ∧ (n : ℚ) - 1 < signedValue s e m ∧ n ≤ 0)) ∧
    (∀ p, (Binary32.nan p).trunc? = none) ∧ ∀ s, (Binary32.inf s).trunc? = none

/-- R178: whatever the open parameter `NAN_RESULT` is, the pattern an operation returns for a NaN has exponent
255 and a fraction that is not zero. -/
def Obligations.NanResultIsNanPattern : Prop :=
  ∀ (op : Config.FpOp) (x y : Word32),
    (Binary32.nan (Config.nanResult op x y)).pack.toNat / 2 ^ 23 % 256 = 255 ∧
      (Binary32.nan (Config.nanResult op x y)).pack.toNat % 2 ^ 23 ≠ 0

end
end

