-- ==== Sys2Proof/Laws/Memory.lean ====
section
/-! SUPPORT. The frame buffer: what a write does to every read, and that every operation keeps the
canonical form. -/

namespace Sys2Proof.Machine

/-- Below its first index a canonical buffer reads zero. -/
theorem read_below {n lo i : Nat} {m : Memory} (h : Memory.wfFrom n lo m = true) (hi : i < lo) :
    Memory.read m i = 0 := by
  induction m generalizing lo with
  | nil => rfl
  | cons c m ih =>
    obtain ⟨a, b⟩ := c
    simp only [Memory.wfFrom, Bool.and_eq_true, decide_eq_true_eq] at h
    have : a ≠ i := by omega
    simp only [Memory.read, this, if_false]
    exact ih h.2 (by omega)

/-- A canonical buffer of extent `n` reads zero from `n` on. -/
theorem read_beyond {n lo i : Nat} {m : Memory} (h : Memory.wfFrom n lo m = true) (hi : n ≤ i) :
    Memory.read m i = 0 := by
  induction m generalizing lo with
  | nil => rfl
  | cons c m ih =>
    obtain ⟨a, b⟩ := c
    simp only [Memory.wfFrom, Bool.and_eq_true, decide_eq_true_eq] at h
    have : a ≠ i := by omega
    simp only [Memory.read, this, if_false]
    exact ih h.2

/-- A canonical form from a higher index is one from a lower. -/
theorem wfFrom_mono {n lo lo' : Nat} {m : Memory} (h : Memory.wfFrom n lo m = true) (hl : lo' ≤ lo) :
    Memory.wfFrom n lo' m = true := by
  cases m with
  | nil => rfl
  | cons c m =>
    obtain ⟨a, b⟩ := c
    simp only [Memory.wfFrom, Bool.and_eq_true, decide_eq_true_eq] at h ⊢
    exact ⟨⟨⟨by omega, h.1.1.2⟩, h.1.2⟩, h.2⟩

/-- Read after write: the byte written at its index, every other byte as before. -/
theorem read_write {n lo : Nat} {m : Memory} (h : Memory.wfFrom n lo m = true) (i j : Nat) (v : Byte) :
    Memory.read (Memory.write m i v) j = if j = i then v else Memory.read m j := by
  induction m generalizing lo with
  | nil =>
    simp only [Memory.write]
    split
    · rename_i hv
      subst hv
      simp [Memory.read]
    · simp only [Memory.read, eq_comm (a := i)]
  | cons c m ih =>
    obtain ⟨a, b⟩ := c
    have hw := h
    simp only [Memory.wfFrom, Bool.and_eq_true, decide_eq_true_eq] at h
    simp only [Memory.write]
    split
    · rename_i hia
      split
      · rename_i hv
        subst hv
        split
        · rename_i hj
          subst hj
          exact read_below (wfFrom_mono (lo' := j + 1) (n := n) (m := (a, b) :: m) (lo := a) (by
            simp only [Memory.wfFrom, Bool.and_eq_true, decide_eq_true_eq]
            exact ⟨⟨⟨le_refl a, h.1.1.2⟩, h.1.2⟩, h.2⟩) hia) (Nat.lt_succ_self j)
        · rfl
      · simp only [Memory.read]
        by_cases hj : i = j
        · simp [hj]
        · simp [hj, Ne.symm hj]
    · rename_i hia
      split
      · rename_i hai
        subst hai
        split
        · rename_i hv
          subst hv
          by_cases hj : j = i
          · subst hj
            simp only [if_true]
            exact read_below h.2 (Nat.lt_succ_self j)
          · simp [Memory.read, hj, Ne.symm hj]
        · by_cases hj : j = i
          · subst hj; simp [Memory.read]
          · simp [Memory.read, hj, Ne.symm hj]
      · rename_i hne
        simp only [Memory.read]
        by_cases haj : a = j
        · subst haj
          simp [Ne.symm hne]
        · simp only [haj, if_false]
          exact ih h.2

/-- A write inside the extent keeps the canonical form. -/
theorem wfFrom_write {n lo : Nat} {m : Memory} (h : Memory.wfFrom n lo m = true) {i : Nat} (hl : lo ≤ i)
    (hi : i < n) (v : Byte) : Memory.wfFrom n lo (Memory.write m i v) = true := by
  induction m generalizing lo with
  | nil =>
    simp only [Memory.write]
    split
    · rfl
    · rename_i hv
      simp only [Memory.wfFrom, Bool.and_eq_true, decide_eq_true_eq]
      exact ⟨⟨⟨hl, hi⟩, by simpa using hv⟩, trivial⟩
  | cons c m ih =>
    obtain ⟨a, b⟩ := c
    have hw := h
    simp only [Memory.wfFrom, Bool.and_eq_true, decide_eq_true_eq] at h
    obtain ⟨⟨⟨h1, h2⟩, h3⟩, h4⟩ := h
    simp only [Memory.write]
    split
    · rename_i hia
      split
      · exact hw
      · rename_i hv
        simp only [Memory.wfFrom, Bool.and_eq_true, decide_eq_true_eq]
        exact ⟨⟨⟨hl, hi⟩, by simpa using hv⟩, ⟨⟨by omega, h2⟩, h3⟩, h4⟩
    · split
      · rename_i hia
        subst hia
        split
        · exact wfFrom_mono h4 (by omega)
        · rename_i hv
          simp only [Memory.wfFrom, Bool.and_eq_true, decide_eq_true_eq]
          exact ⟨⟨⟨hl, hi⟩, by simpa using hv⟩, h4⟩
      · simp only [Memory.wfFrom, Bool.and_eq_true, decide_eq_true_eq]
        exact ⟨⟨⟨h1, h2⟩, h3⟩, ih h4 (by omega)⟩

/-- `MemWrite` of `k` bytes keeps the canonical form. -/
theorem wfFrom_memWrite {n : Nat} {m : Memory} (h : Memory.wfFrom n 0 m = true) (i k : Nat) (v : Word64)
    (hk : i + k ≤ n) : Memory.wfFrom n 0 (memWrite m i k v) = true := by
  induction k with
  | zero => simpa [memWrite] using h
  | succ k ih =>
    rw [memWrite, List.range_succ, List.foldl_append]
    exact wfFrom_write (ih (by omega)) (Nat.zero_le _) (by omega) _

/-- `MemWrite` of `k` bytes from index `i`: byte `j` of the value at index `i + j` for `j < k`, every
other byte as before (R15). -/
theorem read_memWrite {n : Nat} {m : Memory} (h : Memory.wfFrom n 0 m = true) (i k j : Nat) (v : Word64)
    (hk : i + k ≤ n) :
    Memory.read (memWrite m i k v) j =
      if i ≤ j ∧ j < i + k then v.extractLsb' (8 * (j - i)) 8 else Memory.read m j := by
  induction k with
  | zero =>
    simp [memWrite]
  | succ k ih =>
    have step : memWrite m i (k + 1) v =
        Memory.write (memWrite m i k v) (i + k) (v.extractLsb' (8 * k) 8) := by
      simp [memWrite, List.range_succ, List.foldl_append]
    rw [step, read_write (wfFrom_memWrite h i k v (by omega)), ih (by omega)]
    by_cases hj : j = i + k
    · subst hj
      simp
    · by_cases hj' : i ≤ j ∧ j < i + k
      · simp [hj, hj'.1, hj'.2]
        omega
      · have : ¬ (i ≤ j ∧ j < i + (k + 1)) := by omega
        simp [hj, hj', this]

/-- A canonical buffer is determined by what it reads. -/
theorem memory_ext {n lo : Nat} {m m' : Memory} (h : Memory.wfFrom n lo m = true)
    (h' : Memory.wfFrom n lo m' = true) (hr : ∀ i, Memory.read m i = Memory.read m' i) : m = m' := by
  induction m generalizing lo m' with
  | nil =>
    cases m' with
    | nil => rfl
    | cons c m' =>
      obtain ⟨a, b⟩ := c
      simp only [Memory.wfFrom, Bool.and_eq_true, decide_eq_true_eq] at h'
      have := hr a
      simp [Memory.read] at this
      simp [← this] at h'
  | cons c m ih =>
    obtain ⟨a, b⟩ := c
    have hw := h
    simp only [Memory.wfFrom, Bool.and_eq_true, decide_eq_true_eq, bne_iff_ne, ne_eq] at h
    cases m' with
    | nil =>
      have := hr a
      simp [Memory.read] at this
      exact absurd this h.1.2
    | cons c' m' =>
      obtain ⟨a', b'⟩ := c'
      have hw' := h'
      simp only [Memory.wfFrom, Bool.and_eq_true, decide_eq_true_eq, bne_iff_ne, ne_eq] at h'
      have ha : a = a' := by
        rcases Nat.lt_trichotomy a a' with hlt | rfl | hgt
        · have h1 := hr a
          rw [Memory.read, if_pos rfl, Memory.read, if_neg (by omega),
            read_below h'.2 (by omega)] at h1
          exact absurd h1 h.1.2
        · rfl
        · have h1 := hr a'
          rw [Memory.read, if_neg (by omega), read_below h.2 (by omega), Memory.read,
            if_pos rfl] at h1
          exact absurd h1.symm h'.1.2
      subst ha
      have hb : b = b' := by
        have h1 := hr a
        rwa [Memory.read, if_pos rfl, Memory.read, if_pos rfl] at h1
      subst hb
      rw [ih h.2 h'.2]
      intro i
      by_cases hi : a = i
      · subst hi
        rw [read_below h.2 (by omega), read_below h'.2 (by omega)]
      · have h1 := hr i
        rwa [Memory.read, if_neg hi, Memory.read, if_neg hi] at h1

/-- The cleared buffer reads zero everywhere. -/
@[simp] theorem read_clear (m : Memory) (i : Nat) : Memory.read m.clear i = 0 := rfl

/-- The cleared buffer is canonical. -/
theorem wf_clear (m : Memory) : Memory.wf m.clear = true := rfl

end Sys2Proof.Machine
end

