-- ==== Sys2Proof/Laws/BitField.lean ====
section
/-! SUPPORT. The bit-field unit, bit by bit: the mask, the byte swap, the window, the layout checks, and what
`extract` and `insert` can answer. -/

namespace Sys2Proof.Machine

/-- The mask has the low `len` bits (R91). -/
theorem fieldMask_getLsbD {len : Nat} (h : len ≤ 64) (j : Nat) :
    (fieldMask len).getLsbD j = decide (j < len) := by
  unfold fieldMask
  split
  · subst len
    rw [BitVec.getLsbD_allOnes]
  · have hlt : len < 64 := by omega
    have hp : 2 ^ len < 2 ^ 64 := Nat.pow_lt_pow_right (by norm_num) hlt
    have h1 : 1 ≤ 2 ^ len := Nat.one_le_two_pow
    have : ((1#64 <<< len) - 1#64).toNat = 2 ^ len - 1 := by
      rw [BitVec.toNat_sub, BitVec.toNat_shiftLeft]
      simp [Nat.shiftLeft_eq]
      omega
    rw [BitVec.getLsbD, this, Nat.testBit_two_pow_sub_one]

/-- The byte swap moves bit `j` of byte `i` to bit `j` of byte `7 - i` (R93). -/
theorem bswap64_getLsbD (x : Word64) {j : Nat} (h : j < 64) :
    (bswap64 x).getLsbD j = x.getLsbD (8 * (7 - j / 8) + j % 8) := by
  unfold bswap64
  simp only [BitVec.getLsbD_append, BitVec.getLsbD_extractLsb']
  interval_cases j <;> simp

/-- The window's bit `j` is bit `j % 8` of byte `b0 + j / 8`, zero beyond the buffer (R42, R43). -/
theorem winRead_getLsbD (n : Nat) (m : Memory) (b0 : Nat) {j : Nat} (h : j < 64) :
    (winRead n m b0).getLsbD j = (Memory.readClamped n m (b0 + j / 8)).getLsbD (j % 8) := by
  unfold winRead
  simp only [BitVec.getLsbD_append]
  interval_cases j <;> simp

/-- `Layout` answers the first failing check's error, else the five numbers (R94). -/
theorem layout_eq (n : Nat) (l : Layout) :
    layout n l =
      match layoutError n l with
      | some e => .error e
      | none => .ok
        { b0 := l.start.toNat / 8
          sub := l.start.toNat % 8
          shift := fieldShift l.le (l.start.toNat % 8) l.len.toNat
          mask := fieldMask l.len.toNat
          last := (l.start.toNat + l.len.toNat - 1) / 8 } := by
  unfold layout layoutError
  have h0 : (l.len.toNat < 1 ∨ 64 < l.len.toNat) ↔ (l.len.toNat = 0 ∨ 64 < l.len.toNat) := by omega
  simp only [h0]
  split
  · rfl
  · split
    · rfl
    · have : n ≤ (l.start.toNat + l.len.toNat - 1) / 8 ↔ 8 * n < l.start.toNat + l.len.toNat := by
        omega
      simp only [this]
      split <;> rfl

/-- No layout check fails exactly when the field fits. -/
theorem layoutError_eq_none (n : Nat) (l : Layout) : layoutError n l = none ↔ FieldFits n l := by
  unfold layoutError FieldFits
  split
  · simp; omega
  · split
    · simp; omega
    · split
      · simp; omega
      · simp; omega

/-- A layout error is an error. -/
theorem layoutError_ne_ok {n : Nat} {l : Layout} {e : Err} (h : layoutError n l = some e) :
    e ≠ .ok := by
  unfold layoutError at h
  split at h
  · cases h; decide
  · split at h
    · cases h; decide
    · split at h
      · cases h; decide
      · cases h

/-- `Layout` where a check fails. -/
theorem layout_error {n : Nat} {l : Layout} {e : Err} (h : layoutError n l = some e) :
    layout n l = .error e := by rw [layout_eq, h]

/-- `Layout` where the field fits. -/
theorem layout_ok {n : Nat} {l : Layout} (h : FieldFits n l) :
    layout n l = .ok
      { b0 := l.start.toNat / 8
        sub := l.start.toNat % 8
        shift := fieldShift l.le (l.start.toNat % 8) l.len.toNat
        mask := fieldMask l.len.toNat
        last := (l.start.toNat + l.len.toNat - 1) / 8 } := by
  rw [layout_eq, (layoutError_eq_none n l).2 h]

/-- `extract` where a check fails (R96). -/
theorem extract_error {n : Nat} {m : Memory} {l : Layout} {e : Err} (h : layoutError n l = some e) :
    extract n m l = .error e := by simp [extract, layout_error h]

/-- `insert` where a check fails (R97). -/
theorem insert_error {n : Nat} {m : Memory} {v : Word64} {l : Layout} {e : Err}
    (h : layoutError n l = some e) : insert n m v l = .error e := by simp [insert, layout_error h]

/-- The swapped window's bit at position `p` from the field's end of the word. -/
theorem swapFor_winRead_getLsbD (n : Nat) (m : Memory) (le : Bool) (b0 : Nat) {j : Nat} (h : j < 64) :
    (swapFor le (winRead n m b0)).getLsbD j =
      if le then (Memory.readClamped n m (b0 + j / 8)).getLsbD (j % 8)
      else (Memory.readClamped n m (b0 + (7 - j / 8))).getLsbD (j % 8) := by
  cases le
  · simp only [swapFor, Bool.false_eq_true, if_false]
    have e1 : (8 * (7 - j / 8) + j % 8) / 8 = 7 - j / 8 := by omega
    have e2 : (8 * (7 - j / 8) + j % 8) % 8 = j % 8 := by omega
    rw [bswap64_getLsbD _ h, winRead_getLsbD _ _ _ (by omega), e1, e2]
  · simp only [swapFor, if_true]
    exact winRead_getLsbD _ _ _ h

/-- The bit of the swapped word that holds bit number `b` of the window. -/
def wordIndex (l : Layout) (b : Nat) : Nat :=
  if l.le then b - 8 * (l.start.toNat / 8) else 63 - (b - 8 * (l.start.toNat / 8))

/-- Bit number `b` of the window is bit `wordIndex` of the swapped word (R98, R99). -/
theorem swapFor_winRead_wordIndex {n : Nat} (m : Memory) (l : Layout) {b : Nat}
    (h1 : 8 * (l.start.toNat / 8) ≤ b) (h2 : b < 8 * (l.start.toNat / 8) + 64) (hn : b < 8 * n) :
    (swapFor l.le (winRead n m (l.start.toNat / 8))).getLsbD (wordIndex l b) =
      numberedBit m l.le b := by
  have hw : wordIndex l b < 64 := by unfold wordIndex; split <;> omega
  rw [swapFor_winRead_getLsbD _ _ _ _ hw]
  unfold wordIndex numberedBit
  have hb : b / 8 < n := by omega
  cases l.le
  · simp only [Bool.false_eq_true, if_false]
    have e1 : l.start.toNat / 8 + (7 - (63 - (b - 8 * (l.start.toNat / 8))) / 8) = b / 8 := by omega
    have e2 : (63 - (b - 8 * (l.start.toNat / 8))) % 8 = 7 - b % 8 := by omega
    rw [e1, e2]
    simp [Memory.readClamped, hb]
  · simp only [if_true]
    have e1 : l.start.toNat / 8 + (b - 8 * (l.start.toNat / 8)) / 8 = b / 8 := by omega
    have e2 : (b - 8 * (l.start.toNat / 8)) % 8 = b % 8 := by omega
    rw [e1, e2]
    simp [Memory.readClamped, hb]

/-- The field's value bit `valueIndex` is the swapped word's bit `wordIndex`, the shift apart (R92). -/
theorem wordIndex_eq {n : Nat} {l : Layout} (hf : FieldFits n l) {b : Nat} (hb : InField l b) :
    wordIndex l b = fieldShift l.le (l.start.toNat % 8) l.len.toNat + valueIndex l b := by
  obtain ⟨h1, h2, h3, h4⟩ := hf
  obtain ⟨h5, h6⟩ := hb
  unfold wordIndex fieldShift valueIndex
  cases l.le <;> simp <;> omega

/-- The value index of a bit of the field is below `LEN`. -/
theorem valueIndex_lt {l : Layout} {b : Nat} (hb : InField l b) : valueIndex l b < l.len.toNat := by
  obtain ⟨h5, h6⟩ := hb
  unfold valueIndex
  split <;> omega

/-- Every value index below `LEN` belongs to a bit of the field. -/
theorem valueIndex_surj {l : Layout} {j : Nat} (hj : j < l.len.toNat) :
    ∃ b, InField l b ∧ valueIndex l b = j := by
  unfold valueIndex InField
  cases l.le
  · exact ⟨l.start.toNat + (l.len.toNat - 1 - j), by omega, by simp; omega⟩
  · exact ⟨l.start.toNat + j, by omega, by simp⟩

/-- The shift leaves room for the field (R92, R108). -/
theorem fieldShift_add_le {n : Nat} {l : Layout} (hf : FieldFits n l) :
    fieldShift l.le (l.start.toNat % 8) l.len.toNat + l.len.toNat ≤ 64 := by
  obtain ⟨h1, h2, h3, h4⟩ := hf
  unfold fieldShift
  split <;> omega

/-- `extract` where the field fits: the field's value (R96, R98, R99). -/
theorem extract_ok {n : Nat} (m : Memory) {l : Layout} (hf : FieldFits n l) :
    ∃ raw, extract n m l = .ok raw ∧ HoldsField m l raw := by
  have hok : extract n m l = .ok ((swapFor l.le (winRead n m (l.start.toNat / 8)) >>>
      fieldShift l.le (l.start.toNat % 8) l.len.toNat) &&& fieldMask l.len.toNat) := by
    simp only [extract, layout_ok hf]
  refine ⟨_, hok, ?_, ?_⟩
  · intro b hb
    have hv := valueIndex_lt hb
    have hs := fieldShift_add_le hf
    rw [BitVec.getLsbD_and, BitVec.getLsbD_ushiftRight, fieldMask_getLsbD hf.2.1, ← wordIndex_eq hf hb,
      swapFor_winRead_wordIndex m l (by have := hb.1; omega) (by have := hb.2; have := hf.2.2.1; omega)
        (by have := hb.2; have := hf.2.2.2; omega)]
    simp [hv]
  · intro j hj
    rw [BitVec.getLsbD_and, fieldMask_getLsbD hf.2.1]
    simp
    omega

/-- A field's value is determined. -/
theorem holdsField_unique {m : Memory} {l : Layout} {x y : Word64} (hx : HoldsField m l x)
    (hy : HoldsField m l y) : x = y := by
  apply BitVec.eq_of_getLsbD_eq
  intro j _
  by_cases h : j < l.len.toNat
  · obtain ⟨b, hb, rfl⟩ := valueIndex_surj h
    rw [hx.1 b hb, hy.1 b hb]
  · rw [hx.2 j (by omega), hy.2 j (by omega)]

/-- What `extract` can answer: the value of a field that fits, or the first failing check's error. -/
theorem extract_spec (n : Nat) (m : Memory) (l : Layout) :
    (∃ raw, extract n m l = .ok raw ∧ FieldFits n l ∧ HoldsField m l raw) ∨
      ∃ e, extract n m l = .error e ∧ layoutError n l = some e := by
  cases h : layoutError n l with
  | none =>
    have hf := (layoutError_eq_none n l).1 h
    obtain ⟨raw, h1, h2⟩ := extract_ok m hf
    exact .inl ⟨raw, h1, hf, h2⟩
  | some e => exact .inr ⟨e, extract_error h, rfl⟩

/-- The overflow flag: some bit of the value at or above `LEN` is set (R140). -/
theorem overflow_iff {len : Nat} (h : len ≤ 64) (v : Word64) :
    overflow v (fieldMask len) = true ↔ ∃ j, len ≤ j ∧ v.getLsbD j = true := by
  unfold overflow
  rw [bne_iff_ne, ne_eq]
  constructor
  · intro hne
    by_contra hc
    apply hne
    apply BitVec.eq_of_getLsbD_eq
    intro i hi
    rw [BitVec.getLsbD_and, BitVec.getLsbD_not, fieldMask_getLsbD h]
    by_cases hl : len ≤ i
    · cases hv : v.getLsbD i
      · simp
      · exact absurd ⟨i, hl, hv⟩ hc
    · have : i < len := by omega
      simp [this]
  · rintro ⟨j, hj, hv⟩ h0
    have hj64 : j < 64 := by
      by_contra hc
      rw [BitVec.getLsbD_of_ge v j (by omega)] at hv
      cases hv
    have := congrArg (fun x => x.getLsbD j) h0
    rw [BitVec.getLsbD_and, BitVec.getLsbD_not, fieldMask_getLsbD h, hv] at this
    have hn : ¬ j < len := by omega
    simp [hj64, hn] at this

/-- The byte swap is its own inverse (R93). -/
theorem bswap64_bswap64 (x : Word64) : bswap64 (bswap64 x) = x := by
  apply BitVec.eq_of_getLsbD_eq
  intro j hj
  rw [bswap64_getLsbD _ hj, bswap64_getLsbD _ (by omega)]
  congr 1
  omega

/-- Swapping back undoes the swap. -/
theorem swapFor_getLsbD (le : Bool) (x : Word64) {j : Nat} (h : j < 64) :
    (swapFor le x).getLsbD j = x.getLsbD (if le then j else 8 * (7 - j / 8) + j % 8) := by
  cases le
  · simp only [swapFor, Bool.false_eq_true, if_false]
    exact bswap64_getLsbD x h
  · rfl

/-- `insert` where the field fits: the buffer stays canonical, the field holds the value's low `LEN` bits,
no other bit and no other byte changes, and `ovf` says whether a bit was dropped (R97, R98, R99,
R100). -/
theorem insert_ok {n : Nat} {m : Memory} (hm : Memory.wfFrom n 0 m = true) (v : Word64) {l : Layout}
    (hf : FieldFits n l) :
    ∃ m' ovf, insert n m v l = .ok (m', ovf) ∧ Memory.wfFrom n 0 m' = true ∧
      FieldReplaced m m' l v ∧ (ovf = true ↔ ∃ j, l.len.toNat ≤ j ∧ v.getLsbD j = true) ∧
      ∀ i, (i < l.start.toNat / 8 ∨ (l.start.toNat + l.len.toNat - 1) / 8 < i) →
        Memory.read m' i = Memory.read m i := by
  have hfit := hf
  obtain ⟨h1, h2, h3, h4⟩ := hf
  have hs := fieldShift_add_le hfit
  have hspan : l.start.toNat / 8 +
      ((l.start.toNat + l.len.toNat - 1) / 8 + 1 - l.start.toNat / 8) ≤ n := by omega
  have hok : insert n m v l = .ok
      (winWrite m (l.start.toNat / 8) ((l.start.toNat + l.len.toNat - 1) / 8)
        (swapFor l.le
          ((swapFor l.le (winRead n m (l.start.toNat / 8)) &&&
              ~~~(fieldMask l.len.toNat <<< fieldShift l.le (l.start.toNat % 8) l.len.toNat)) |||
            ((v &&& fieldMask l.len.toNat) <<<
              fieldShift l.le (l.start.toNat % 8) l.len.toNat))),
        overflow v (fieldMask l.len.toNat)) := by
    simp only [insert, layout_ok hfit]
  refine ⟨_, _, hok, wfFrom_memWrite hm _ _ _ hspan, ?_, overflow_iff h2 v, ?_⟩
  · intro b
    unfold numberedBit winWrite
    rw [read_memWrite hm _ _ _ _ hspan]
    split
    · rename_i hin
      have hbit : (if l.le then b % 8 else 7 - b % 8) < 8 := by split <;> omega
      have hj : 8 * (b / 8 - l.start.toNat / 8) + (if l.le then b % 8 else 7 - b % 8) < 64 := by
        omega
      rw [BitVec.getLsbD_extractLsb']
      simp only [hbit, decide_true, Bool.true_and]
      rw [swapFor_getLsbD _ _ hj]
      have hidx : (if l.le then 8 * (b / 8 - l.start.toNat / 8) + (if l.le then b % 8 else 7 - b % 8)
          else 8 * (7 - (8 * (b / 8 - l.start.toNat / 8) + (if l.le then b % 8 else 7 - b % 8)) / 8) +
            (8 * (b / 8 - l.start.toNat / 8) + (if l.le then b % 8 else 7 - b % 8)) % 8) =
          wordIndex l b := by
        unfold wordIndex
        cases l.le <;> simp <;> omega
      rw [hidx]
      have hw : wordIndex l b < 64 := by unfold wordIndex; split <;> omega
      have hold := swapFor_winRead_wordIndex (n := n) m l (b := b) (by omega) (by omega) (by omega)
      rw [BitVec.getLsbD_or, BitVec.getLsbD_and, BitVec.getLsbD_not, BitVec.getLsbD_shiftLeft,
        BitVec.getLsbD_shiftLeft, BitVec.getLsbD_and, fieldMask_getLsbD h2, hold]
      by_cases hb : InField l b
      · have he := wordIndex_eq hfit hb
        have hv := valueIndex_lt hb
        have h5 : ¬ wordIndex l b < fieldShift l.le (l.start.toNat % 8) l.len.toNat := by omega
        have h6 : wordIndex l b - fieldShift l.le (l.start.toNat % 8) l.len.toNat = valueIndex l b := by
          omega
        rw [if_pos hb]
        simp only [hw, h5, h6, hv]
        simp
      · have hout : wordIndex l b < fieldShift l.le (l.start.toNat % 8) l.len.toNat ∨
            l.len.toNat ≤ wordIndex l b - fieldShift l.le (l.start.toNat % 8) l.len.toNat := by
          have hb' : b < l.start.toNat ∨ l.start.toNat + l.len.toNat ≤ b := by
            by_contra hc
            exact hb ⟨by omega, by omega⟩
          unfold wordIndex fieldShift
          cases l.le <;> simp <;> omega
        simp only [hb, if_false, hw]
        rcases hout with ho | ho
        · simp [ho, numberedBit]
        · have hlt : ¬ wordIndex l b - fieldShift l.le (l.start.toNat % 8) l.len.toNat < l.len.toNat := by
            omega
          simp [hlt, numberedBit]
    · rename_i hout
      have hb : ¬ InField l b := by
        rintro ⟨h5, h6⟩
        omega
      simp [hb]
  · intro i hi
    unfold winWrite
    rw [read_memWrite hm _ _ _ _ hspan, if_neg (by omega)]

/-- What `insert` can answer: the changed buffer where the field fits, or the first failing check's
error. -/
theorem insert_spec {n : Nat} {m : Memory} (hm : Memory.wfFrom n 0 m = true) (v : Word64) (l : Layout) :
    (∃ m' ovf, insert n m v l = .ok (m', ovf) ∧ FieldFits n l ∧ Memory.wfFrom n 0 m' = true ∧
      FieldReplaced m m' l v ∧ (ovf = true ↔ ∃ j, l.len.toNat ≤ j ∧ v.getLsbD j = true)) ∨
      ∃ e, insert n m v l = .error e ∧ layoutError n l = some e := by
  cases h : layoutError n l with
  | none =>
    have hf := (layoutError_eq_none n l).1 h
    obtain ⟨m', ovf, h1, h2, h3, h4, _⟩ := insert_ok hm v hf
    exact .inl ⟨m', ovf, h1, hf, h2, h3, h4⟩
  | some e => exact .inr ⟨e, insert_error h, rfl⟩

end Sys2Proof.Machine
end

