-- ==== Sys2Proof/Laws/State.lean ====
section
/-! SUPPORT. One lemma per field per update of the state: `complete` and what is built from it (`succeed`,
`raise`), `retire`, `resetEvent`. -/

namespace Sys2Proof.Machine

variable (s : State) (r : Response) (e : Err) (ovf : Bool) (data : Word64) (rest : List HostEvent)

@[simp] theorem complete_buf : (complete r s).buf = s.buf := rfl
@[simp] theorem complete_fh : (complete r s).fh = s.fh := rfl
@[simp] theorem complete_desc : (complete r s).desc = s.desc := rfl
@[simp] theorem complete_sr : (complete r s).sr = srAfter r s.sr := rfl
@[simp] theorem complete_ecw : (complete r s).ecw = ecwAfter s.packet.cw r s.sr s.ecw := rfl
@[simp] theorem complete_inputs : (complete r s).inputs = s.inputs := rfl
@[simp] theorem complete_resp : (complete r s).resp = r := rfl

@[simp] theorem succeed_buf : (succeed ovf data s).buf = s.buf := rfl
@[simp] theorem succeed_fh : (succeed ovf data s).fh = s.fh := rfl
@[simp] theorem succeed_desc : (succeed ovf data s).desc = s.desc := rfl
@[simp] theorem succeed_ecw : (succeed ovf data s).ecw = s.ecw := by simp [succeed, ecwAfter]
@[simp] theorem succeed_inputs : (succeed ovf data s).inputs = s.inputs := rfl
@[simp] theorem succeed_resp : (succeed ovf data s).resp = ⟨.ok, ovf, data⟩ := rfl
@[simp] theorem succeed_sr : (succeed ovf data s).sr = if ovf then s.sr ||| 1#32 else s.sr := rfl

@[simp] theorem raise_buf : (raise e s).buf = s.buf := rfl
@[simp] theorem raise_fh : (raise e s).fh = s.fh := rfl
@[simp] theorem raise_desc : (raise e s).desc = s.desc := rfl
@[simp] theorem raise_inputs : (raise e s).inputs = s.inputs := rfl
@[simp] theorem raise_resp : (raise e s).resp = ⟨e, false, 0⟩ := rfl

@[simp] theorem retire_buf : (retire rest s).buf = s.buf := rfl
@[simp] theorem retire_fh : (retire rest s).fh = s.fh := rfl
@[simp] theorem retire_desc : (retire rest s).desc = s.desc := rfl
@[simp] theorem retire_sr : (retire rest s).sr = s.sr := rfl
@[simp] theorem retire_ecw : (retire rest s).ecw = s.ecw := rfl
@[simp] theorem retire_inputs : (retire rest s).inputs = rest := rfl
@[simp] theorem retire_resp : (retire rest s).resp = s.resp := rfl

/-- The packet depends on the host's sequence alone. -/
theorem packet_of_command {p : Packet} {rest : List HostEvent} (h : s.inputs = .command p :: rest) :
    s.packet = p := by simp [State.packet, h]

/-- Everything a success without overflow changes: the response. -/
theorem succeed_eq : succeed false data s = { s with resp := ⟨.ok, false, data⟩ } := by
  simp [succeed, complete, srAfter, ecwAfter]

/-- Everything an insertion's success changes beside the buffer: the response, and `SR[0]` on overflow. -/
theorem succeed_ovf_eq :
    succeed ovf data s =
      { s with sr := if ovf then s.sr ||| 1#32 else s.sr, resp := ⟨.ok, ovf, data⟩ } := by
  simp [succeed, complete, srAfter, ecwAfter]

/-- Everything an error changes (R300): its bit of `SR`, `ECW` if no error bit was set, the response. -/
theorem raise_eq (he : e ≠ .ok) :
    raise e s =
      { s with
        sr := s.sr ||| (1#32 <<< e.code)
        ecw := if errorBits s.sr = 0#6 then s.packet.cw else s.ecw
        resp := ⟨e, false, 0⟩ } := by
  simp [raise, complete, srAfter, ecwAfter, he]

/-- The codes of the six errors are 1 to 6 (R291). -/
theorem code_range (he : e ≠ .ok) : 1 ≤ e.code ∧ e.code ≤ 6 := by
  cases e <;> simp_all [Err.code]

/-- One bit of `SR` after a command (R29, R30). -/
theorem srAfter_getLsbD (sr : Word32) (b : Nat) :
    (srAfter r sr).getLsbD b =
      (sr.getLsbD b || (decide (r.err ≠ .ok) && decide (b = r.err.code)) ||
        (r.ovf && decide (b = 0))) := by
  obtain ⟨err, ovf, data⟩ := r
  have bit : ∀ k, k < 32 → (1#32 <<< k).getLsbD b = decide (b = k) := by
    intro k hk
    rw [BitVec.getLsbD_shiftLeft, BitVec.getLsbD_one, Bool.eq_iff_iff]
    simp only [Bool.and_eq_true, decide_eq_true_eq, Bool.not_eq_true', decide_eq_false_iff_not]
    omega
  have hone : (1#32).getLsbD b = decide (b = 0) := bit 0 (by omega)
  have hc : err ≠ .ok → err.code < 32 := fun h => by have := code_range err h; omega
  by_cases he : err = .ok <;> cases ovf <;>
    simp only [srAfter, he, BitVec.getLsbD_or, hone, ne_eq, not_true, not_false_eq_true, if_true, if_false,
      Bool.false_eq_true, decide_true, decide_false, Bool.true_and, Bool.false_and, Bool.or_false]
  all_goals rw [bit _ (hc he)]

/-- `SR[6:1]` is all zero exactly when none of its bits is set (R31). -/
theorem errorBits_eq_zero (sr : Word32) :
    errorBits sr = 0#6 ↔ ∀ b, 1 ≤ b → b ≤ 6 → sr.getLsbD b = false := by
  constructor
  · intro h b h1 h6
    have := congrArg (fun x => x.getLsbD (b - 1)) h
    simp [errorBits, BitVec.getLsbD_extractLsb'] at this
    have e : 1 + (b - 1) = b := by omega
    rw [e] at this
    exact this (by omega)
  · intro h
    apply BitVec.eq_of_getLsbD_eq
    intro i hi
    simp [errorBits, BitVec.getLsbD_extractLsb']
    intro _
    exact h _ (by omega) (by omega)

/-- The packed header bit by bit: the places of the fields (R24), `VALID` in bit 40, zero above. -/
theorem Header.pack_getLsbD (h : Header) (b : Nat) :
    h.pack.getLsbD b =
      if b < 29 then h.id.getLsbD b
      else if b = 29 then h.ext
      else if b = 30 then h.rtr
      else if b = 31 then h.brs
      else if b = 32 then h.fdf
      else if b < 40 then h.dlen.getLsbD (b - 33)
      else if b = 40 then h.valid
      else false := by
  have hz : ∀ c i, (BitVec.ofBool c).getLsbD i = (c && decide (i = 0)) := by
    intro c i
    cases c <;> rcases i with _ | i <;> simp
  simp only [Header.pack, BitVec.getLsbD_append, hz]
  by_cases h1 : b < 29
  · simp [h1]
  rcases (by omega : b = 29 ∨ b = 30 ∨ b = 31 ∨ b = 32 ∨ (33 ≤ b ∧ b < 40) ∨ b = 40 ∨ 41 ≤ b) with
    rfl | rfl | rfl | rfl | ⟨h1, h2⟩ | rfl | h
  · simp
  · simp
  · simp
  · simp
  · obtain ⟨j, rfl⟩ : ∃ j, b = 33 + j := ⟨b - 33, by omega⟩
    have e : 33 + j - 29 - 1 - 1 - 1 - 1 = j := by omega
    have e' : 33 + j - 33 = j := by omega
    simp (disch := omega) only [if_pos, if_neg, e, e']
  · simp
  · simp (disch := omega) [if_neg]

end Sys2Proof.Machine
end

