-- ==== Sys2Proof/Laws/Codec.lean ====
section
/-! SUPPORT. What the shared operations of the instructions can do: the end of a command in the words of
Sys2Proof/Safety.lean, a slot's presence, and each of the four codec operations. -/

namespace Sys2Proof.Machine

/-! ### Errors -/

/-- The mask form of "`SR[6:1]` is all zero" (R31). -/
theorem errorBits_mask (sr : Word32) : errorBits sr = 0#6 ↔ sr &&& 0x7E#32 = 0#32 := by
  rw [errorBits_eq_zero]
  have hm : ∀ i, i < 32 → (0x7E#32).getLsbD i = (decide (1 ≤ i) && decide (i ≤ 6)) := by decide
  constructor
  · intro h
    apply BitVec.eq_of_getLsbD_eq
    intro i hi
    rw [BitVec.getLsbD_and, hm i hi]
    by_cases h1 : 1 ≤ i <;> by_cases h2 : i ≤ 6 <;> simp [h1, h2]
    exact h i h1 h2
  · intro h b h1 h2
    have := congrArg (fun x => x.getLsbD b) h
    rw [BitVec.getLsbD_and, hm b (by omega)] at this
    simpa [h1, h2] using this

/-- `raise` in the words of the claims (R300). -/
theorem raise_eq_afterError {e : Err} (he : e ≠ .ok) (s : State) : raise e s = afterError e s := by
  rw [raise_eq s e he]
  simp only [afterError, errorBits_mask]

/-- What an error leaves where it was, and its response (R300). -/
theorem raise_frame {e : Err} (s : State) :
    (raise e s).buf = s.buf ∧ (raise e s).fh = s.fh ∧ (raise e s).desc = s.desc ∧
      (raise e s).inputs = s.inputs ∧ (raise e s).resp = ⟨e, false, 0⟩ := ⟨rfl, rfl, rfl, rfl, rfl⟩

/-! ### Slots -/

/-- The slot `slotAt` finds is the one of that number, and it is constructed. -/
theorem slotAt_eq_some {n : Nat} (slots : Vector Desc n) (k : BitVec 4) (d : Desc) :
    slotAt slots k = some d ↔ slots[k.toNat]? = some d ∧ d.v = true := by
  unfold slotAt
  split
  · rename_i d' h
    by_cases hv : d'.v = true
    · simp [hv, h]
      rintro rfl
      exact hv
    · simp [hv, h]
      rintro rfl
      simpa using hv
  · rename_i h
    simp [h]

/-- `slotAt` finds none when the slot is absent or not constructed. -/
theorem slotAt_eq_none {n : Nat} (slots : Vector Desc n) (k : BitVec 4) :
    slotAt slots k = none ↔ ∀ d, slots[k.toNat]? = some d → d.v = false := by
  constructor
  · intro h d hd
    cases hv : d.v
    · rfl
    · rw [(slotAt_eq_some slots k d).2 ⟨hd, hv⟩] at h
      cases h
  · intro h
    cases hs : slotAt slots k with
    | none => rfl
    | some d =>
      obtain ⟨h1, h2⟩ := (slotAt_eq_some slots k d).1 hs
      rw [h d h1] at h2
      cases h2

/-- `withSlot` on a constructed slot is the operation on it. -/
theorem withSlot_some {k : BitVec 4} {s : State} {d : Desc} (op : Desc → State → State)
    (h1 : s.desc[k.toNat]? = some d) (h2 : d.v = true) : withSlot k s op = op d s := by
  rw [withSlot, (slotAt_eq_some _ _ _).2 ⟨h1, h2⟩]

/-- `withSlot` without a constructed slot is `NODESC` (R293). -/
theorem withSlot_none {k : BitVec 4} {s : State} (op : Desc → State → State)
    (h : ∀ d, s.desc[k.toNat]? = some d → d.v = false) : withSlot k s op = afterError .nodesc s := by
  rw [withSlot, (slotAt_eq_none _ _).2 h]
  exact raise_eq_afterError (by decide) s

/-! ### Values -/

/-- The `W(T)`-bit pattern of a value as a number (R81, R72). -/
theorem pattern_toNat (T : Ty) (v : Word64) : (T.pattern v).toNat = v.toNat % 2 ^ T.width := by
  have := v.isLt
  cases T <;> simp [Ty.pattern, Ty.width, BitVec.toNat_setWidth] <;> omega

/-- The `W(T)`-bit pattern of a value, in the words of the claims. -/
theorem pattern_eq (T : Ty) (v : Word64) :
    T.pattern v = BitVec.ofNat 64 (v.toNat % 2 ^ T.width) := by
  apply BitVec.eq_of_toNat_eq
  have h : v.toNat % 2 ^ T.width < 2 ^ 64 := lt_of_le_of_lt (Nat.mod_le _ _) v.isLt
  rw [pattern_toNat, BitVec.toNat_ofNat, Nat.mod_eq_of_lt h]

/-- A value has a bit at or above `len` exactly when it is at least `2^len`. -/
theorem exists_bit_iff (v : Word64) (len : Nat) :
    (∃ j, len ≤ j ∧ v.getLsbD j = true) ↔ 2 ^ len ≤ v.toNat := by
  constructor
  · rintro ⟨j, hj, h⟩
    exact le_trans (Nat.pow_le_pow_right (by norm_num) hj) (Nat.ge_two_pow_of_testBit h)
  · intro h
    by_contra hc
    have : v.toNat < 2 ^ len := by
      apply Nat.lt_pow_two_of_testBit
      intro i hi
      by_contra hb
      exact hc ⟨i, hi, by simpa [BitVec.getLsbD] using hb⟩
    omega

/-- The value operand of the claims is the transform's: the quotient's pattern, or the truncated integer's
pattern, or `CONV` (R220, R221). -/
theorem scaleSet_eq (T : Ty) (p f o : Word32) :
    scaleSet T p f o = match scaledPattern T p f o with
      | some v => .ok v
      | none => .error .conv := by
  have hrange : (integerRange T).1 = if T = .f32 then 0 else T.minInt := by cases T <;> rfl
  have hrange' : (integerRange T).2 = if T = .f32 then 0 else T.maxInt := by cases T <;> rfl
  unfold scaleSet scaledPattern scaledQuotient
  by_cases hT : T = .f32
  · simp [hT]
  · simp only [hT, if_false] at hrange hrange' ⊢
    cases (((Binary32.unpack p).sub (Binary32.unpack o)).div (Binary32.unpack f)).trunc? with
    | none => rfl
    | some n =>
      simp only [hrange, hrange']
      by_cases hn : T.minInt ≤ n ∧ n ≤ T.maxInt
      · rw [if_neg (by omega), if_pos hn]
        have hpat : (BitVec.ofInt T.width n).setWidth 64 = BitVec.ofNat 64 (n % 2 ^ T.width).toNat := by
          apply BitVec.eq_of_toNat_eq
          have h0 : 0 ≤ n % 2 ^ T.width := Int.emod_nonneg _ (by positivity)
          have h1 : n % 2 ^ T.width < 2 ^ T.width := Int.emod_lt_of_pos _ (by positivity)
          rw [BitVec.toNat_setWidth, BitVec.toNat_ofInt, BitVec.toNat_ofNat]
          norm_num
        rw [hpat]
      · rw [if_pos (by omega), if_neg hn]

/-- The operand of a scaled extraction is the one of the claims (R172, R182). -/
theorem interp_eq (T : Ty) (raw : Word64) : interp T raw = rawOperand T raw := by
  cases T <;> simp [interp, rawOperand, Ty.int, Ty.signed, Ty.width]

/-! ### The four operations -/

/-- Raw extraction where the field fits (R110). -/
theorem opGet_ok (T : Ty) {l : Layout} {s : State} (hf : FieldFits Config.bufSize l) :
    ∃ raw, HoldsField s.buf l raw ∧
      opGet T l s = { s with resp := ⟨.ok, false, BitVec.ofNat 64 (raw.toNat % 2 ^ T.width)⟩ } := by
  obtain ⟨raw, h1, h2⟩ := extract_ok s.buf hf
  refine ⟨raw, h2, ?_⟩
  rw [opGet, h1]
  simp only
  rw [succeed_eq, pattern_eq]

/-- Raw extraction where a layout check fails. -/
theorem opGet_error (T : Ty) {l : Layout} {s : State} {e : Err}
    (h : layoutError Config.bufSize l = some e) : opGet T l s = afterError e s := by
  rw [opGet, extract_error h]
  exact raise_eq_afterError (layoutError_ne_ok h) s

/-- Scaled extraction where the field fits (R190). -/
theorem opGets_ok (T : Ty) {l : Layout} (f o : Word32) {s : State}
    (hf : FieldFits Config.bufSize l) :
    ∃ raw, HoldsField s.buf l raw ∧
      opGets T l f o s =
        { s with resp := ⟨.ok, false,
          (((rawOperand T raw).mul (.unpack f)).add (.unpack o)).pack.setWidth 64⟩ } := by
  obtain ⟨raw, h1, h2⟩ := extract_ok s.buf hf
  refine ⟨raw, h2, ?_⟩
  rw [opGets, h1]
  simp only
  rw [succeed_eq, scaleGet, interp_eq]

/-- Scaled extraction where a layout check fails. -/
theorem opGets_error (T : Ty) {l : Layout} (f o : Word32) {s : State} {e : Err}
    (h : layoutError Config.bufSize l = some e) : opGets T l f o s = afterError e s := by
  rw [opGets, extract_error h]
  exact raise_eq_afterError (layoutError_ne_ok h) s

/-- Insertion where the field fits (R140, R230): the new buffer, the sticky overflow bit, the response. -/
theorem opInsert_ok (v : Word64) {l : Layout} {s : State} (hm : Memory.wf s.buf = true)
    (hf : FieldFits Config.bufSize l) :
    ∃ buf, Memory.wf buf = true ∧ FieldReplaced s.buf buf l v ∧
      (∀ i, (i < l.start.toNat / 8 ∨ (l.start.toNat + l.len.toNat - 1) / 8 < i) →
        Memory.read buf i = Memory.read s.buf i) ∧
      opInsert v l s =
        { s with
          buf := buf
          sr := if 2 ^ l.len.toNat ≤ v.toNat then s.sr ||| 1#32 else s.sr
          resp := ⟨.ok, decide (2 ^ l.len.toNat ≤ v.toNat), 0⟩ } := by
  obtain ⟨buf, ovf, h1, h2, h3, h4, h5⟩ := insert_ok hm v hf
  refine ⟨buf, h2, h3, h5, ?_⟩
  rw [exists_bit_iff] at h4
  have hov : ovf = decide (2 ^ l.len.toNat ≤ v.toNat) := by
    rw [Bool.eq_iff_iff, h4, decide_eq_true_iff]
  rw [opInsert, h1]
  simp only
  rw [succeed_ovf_eq, hov]
  simp only [decide_eq_true_eq]

/-- Insertion where a layout check fails. -/
theorem opInsert_error (v : Word64) {l : Layout} {s : State} {e : Err}
    (h : layoutError Config.bufSize l = some e) : opInsert v l s = afterError e s := by
  rw [opInsert, insert_error h]
  exact raise_eq_afterError (layoutError_ne_ok h) s

/-- Scaled insertion where a layout check fails: before any conversion (R230, R299). -/
theorem opSets_error (T : Ty) {l : Layout} (f o : Word32) {s : State} {e : Err}
    (h : layoutError Config.bufSize l = some e) : opSets T l f o s = afterError e s := by
  rw [opSets, layout_error h]
  exact raise_eq_afterError (layoutError_ne_ok h) s

/-- Scaled insertion where the field fits: `CONV`, or the insertion of the converted value (R230). -/
theorem opSets_fits (T : Ty) {l : Layout} (f o : Word32) {s : State}
    (hf : FieldFits Config.bufSize l) :
    opSets T l f o s = match scaledPattern T (s.packet.a.setWidth 32) f o with
      | some v => opInsert v l s
      | none => afterError .conv s := by
  rw [opSets, layout_ok hf]
  simp only
  rw [scaleSet_eq]
  cases scaledPattern T (s.packet.a.setWidth 32) f o with
  | some v => rfl
  | none => exact raise_eq_afterError (by decide) s

end Sys2Proof.Machine
end

