-- ==== Sys2Proof/Laws/Decode.lean ====
section
/-! SUPPORT. The command word's fields: what the encoder's two layouts hold, that every word is made of its
fields, the fields as numbers, the type codes, and what the decoder answers on each layout. -/

namespace Sys2Proof

variable (op ty k : BitVec 4) (le : Bool) (len : BitVec 7) (start : BitVec 16)

/-! ### Fields of a word laid out as `{OP, TY, LE, LEN, START}` -/

@[simp] theorem fieldOp_encodeFields : fieldOp (encodeFields op ty le len start) = op := by
  apply BitVec.eq_of_getLsbD_eq; intro i hi
  simp only [fieldOp, encodeFields, BitVec.getLsbD_extractLsb', BitVec.getLsbD_append]
  interval_cases i <;> simp

@[simp] theorem fieldTy_encodeFields : fieldTy (encodeFields op ty le len start) = ty := by
  apply BitVec.eq_of_getLsbD_eq; intro i hi
  simp only [fieldTy, encodeFields, BitVec.getLsbD_extractLsb', BitVec.getLsbD_append]
  interval_cases i <;> simp

@[simp] theorem fieldLeBit_encodeFields : fieldLeBit (encodeFields op ty le len start) = le := by
  simp only [fieldLeBit, encodeFields, BitVec.getLsbD_append]
  simp

@[simp] theorem fieldLen_encodeFields : fieldLen (encodeFields op ty le len start) = len := by
  apply BitVec.eq_of_getLsbD_eq; intro i hi
  simp only [fieldLen, encodeFields, BitVec.getLsbD_extractLsb', BitVec.getLsbD_append]
  interval_cases i <;> simp

@[simp] theorem fieldStart_encodeFields : fieldStart (encodeFields op ty le len start) = start := by
  apply BitVec.eq_of_getLsbD_eq; intro i hi
  simp only [fieldStart, encodeFields, BitVec.getLsbD_extractLsb', BitVec.getLsbD_append]
  interval_cases i <;> simp

/-- Bits 23:16 of a word are `LE` and `LEN`. -/
theorem leLen_encodeFields :
    (encodeFields op ty le len start).extractLsb' 16 8 = BitVec.ofBool le ++ len := by
  apply BitVec.eq_of_getLsbD_eq; intro i hi
  simp only [encodeFields, BitVec.getLsbD_extractLsb', BitVec.getLsbD_append]
  interval_cases i <;> simp

/-- Every word is made of its fields (R62). -/
theorem encodeFields_fields (cw : Word32) :
    encodeFields (fieldOp cw) (fieldTy cw) (fieldLeBit cw) (fieldLen cw) (fieldStart cw) = cw := by
  apply BitVec.eq_of_getLsbD_eq; intro i hi
  simp only [encodeFields, fieldOp, fieldTy, fieldLeBit, fieldLen, fieldStart, BitVec.getLsbD_append,
    BitVec.getLsbD_extractLsb']
  interval_cases i <;> simp

/-! ### Fields of a descriptor-bound word -/

/-- A descriptor-bound word with its twenty must-be-zero bits (R69). -/
abbrev boundWord (op ty : BitVec 4) (z : BitVec 20) (k : BitVec 4) : Word32 := op ++ ty ++ z ++ k

@[simp] theorem fieldOp_boundWord (z : BitVec 20) : fieldOp (boundWord op ty z k) = op := by
  apply BitVec.eq_of_getLsbD_eq; intro i hi
  simp only [fieldOp, BitVec.getLsbD_extractLsb', BitVec.getLsbD_append]
  interval_cases i <;> simp

@[simp] theorem fieldTy_boundWord (z : BitVec 20) : fieldTy (boundWord op ty z k) = ty := by
  apply BitVec.eq_of_getLsbD_eq; intro i hi
  simp only [fieldTy, BitVec.getLsbD_extractLsb', BitVec.getLsbD_append]
  interval_cases i <;> simp

@[simp] theorem fieldSlot_boundWord (z : BitVec 20) : fieldSlot (boundWord op ty z k) = k := by
  apply BitVec.eq_of_getLsbD_eq; intro i hi
  simp only [fieldSlot, BitVec.getLsbD_extractLsb', BitVec.getLsbD_append]
  interval_cases i <;> simp

@[simp] theorem zeros_boundWord (z : BitVec 20) : (boundWord op ty z k).extractLsb' 4 20 = z := by
  apply BitVec.eq_of_getLsbD_eq; intro i hi
  simp only [BitVec.getLsbD_extractLsb', BitVec.getLsbD_append]
  interval_cases i <;> simp

/-- Every word is made of the fields of the descriptor-bound layout. -/
theorem boundWord_fields (cw : Word32) :
    boundWord (fieldOp cw) (fieldTy cw) (cw.extractLsb' 4 20) (fieldSlot cw) = cw := by
  apply BitVec.eq_of_getLsbD_eq; intro i hi
  simp only [fieldOp, fieldTy, fieldSlot, BitVec.getLsbD_append, BitVec.getLsbD_extractLsb']
  interval_cases i <;> simp

/-- The encoder's descriptor-bound word. -/
theorem encodeBound_eq : encodeBound op ty k = boundWord op ty 0#20 k := rfl

/-! ### Fields as numbers -/

theorem fieldOp_toNat (cw : Word32) : (fieldOp cw).toNat = cw.toNat / 2 ^ 28 := by
  have := cw.isLt
  simp [fieldOp, BitVec.extractLsb'_toNat, Nat.shiftRight_eq_div_pow]
  omega

theorem fieldTy_toNat (cw : Word32) : (fieldTy cw).toNat = cw.toNat / 2 ^ 24 % 16 := by
  simp [fieldTy, BitVec.extractLsb'_toNat, Nat.shiftRight_eq_div_pow]

/-- Bits 23:4 are zero exactly when `LE`, `LEN` and `START[15:4]` are. -/
theorem zeros_iff (cw : Word32) : cw.extractLsb' 4 20 = 0#20 ↔
    cw.toNat / 2 ^ 23 % 2 = 0 ∧ cw.toNat / 2 ^ 16 % 128 = 0 ∧ cw.toNat % 2 ^ 16 / 16 = 0 := by
  rw [← BitVec.toNat_inj]
  simp [BitVec.extractLsb'_toNat, Nat.shiftRight_eq_div_pow]
  omega

/-- Bits 23:16 are zero exactly when `LE` and `LEN` are. -/
theorem leLen_iff (cw : Word32) : cw.extractLsb' 16 8 = 0#8 ↔
    cw.toNat / 2 ^ 23 % 2 = 0 ∧ cw.toNat / 2 ^ 16 % 128 = 0 := by
  rw [← BitVec.toNat_inj]
  simp [BitVec.extractLsb'_toNat, Nat.shiftRight_eq_div_pow]
  omega

theorem start_iff (cw : Word32) : fieldStart cw = 0#16 ↔ cw.toNat % 2 ^ 16 = 0 := by
  rw [← BitVec.toNat_inj]
  simp [fieldStart, BitVec.extractLsb'_toNat]

/-! ### Type codes (R64) -/

@[simp] theorem ofCode_code (T : Ty) : Ty.ofCode T.code = some T := by cases T <;> rfl

/-- A code names at most one type. -/
theorem ofCode_eq_some {c : BitVec 4} {T : Ty} (h : Ty.ofCode c = some T) : c = T.code := by
  revert h; revert T c; decide

/-- The reserved codes. -/
theorem ofCode_eq_none (c : BitVec 4) : Ty.ofCode c = none ↔ ¬ (c.toNat ≤ 7 ∨ c.toNat = 12) := by
  revert c; decide

/-! ### The decoder on each layout -/

variable (hs : Bool) (T : Ty)

theorem decodeWith_get : decodeWith hs (encodeFields 1#4 T.code le len start) =
    .ok (.get T le len start) := by simp [decodeWith, decodePositional]
theorem decodeWith_set : decodeWith hs (encodeFields 2#4 T.code le len start) =
    .ok (.set T le len start) := by simp [decodeWith, decodePositional]
theorem decodeWith_gets : decodeWith hs (encodeFields 3#4 T.code le len start) =
    if hs then .ok (.gets T le len start) else .error .noScaleUnit := by
  cases hs <;> simp [decodeWith, decodePositional]
theorem decodeWith_sets : decodeWith hs (encodeFields 4#4 T.code le len start) =
    if hs then .ok (.sets T le len start) else .error .noScaleUnit := by
  cases hs <;> simp [decodeWith, decodePositional]
theorem decodeWith_getd (z : BitVec 20) : decodeWith hs (boundWord 5#4 T.code z k) =
    if z = 0#20 then .ok (.getd T k) else .error .boundFieldNotZero := by
  simp [decodeWith, decodeBound]
theorem decodeWith_setd (z : BitVec 20) : decodeWith hs (boundWord 6#4 T.code z k) =
    if z = 0#20 then .ok (.setd T k) else .error .boundFieldNotZero := by
  simp [decodeWith, decodeBound]
theorem decodeWith_getsd (z : BitVec 20) : decodeWith hs (boundWord 7#4 T.code z k) =
    if hs then (if z = 0#20 then .ok (.getsd T k) else .error .boundFieldNotZero)
    else .error .noScaleUnit := by cases hs <;> simp [decodeWith, decodeBound]
theorem decodeWith_setsd (z : BitVec 20) : decodeWith hs (boundWord 8#4 T.code z k) =
    if hs then (if z = 0#20 then .ok (.setsd T k) else .error .boundFieldNotZero)
    else .error .noScaleUnit := by cases hs <;> simp [decodeWith, decodeBound]
theorem decodeWith_desc : decodeWith hs (encodeFields 9#4 k le len start) =
    .ok (.desc k le len start) := by simp [decodeWith]

/-- The encoder over the family selectors. -/
theorem encode_get : encode (.get T le len start) = encodeFields 1#4 T.code le len start := by
  cases T <;> rfl
theorem encode_set : encode (.set T le len start) = encodeFields 2#4 T.code le len start := by
  cases T <;> rfl
theorem encode_gets : encode (.gets T le len start) = encodeFields 3#4 T.code le len start := by
  cases T <;> rfl
theorem encode_sets : encode (.sets T le len start) = encodeFields 4#4 T.code le len start := by
  cases T <;> rfl
theorem encode_getd : encode (.getd T k) = encodeBound 5#4 T.code k := by cases T <;> rfl
theorem encode_setd : encode (.setd T k) = encodeBound 6#4 T.code k := by cases T <;> rfl
theorem encode_getsd : encode (.getsd T k) = encodeBound 7#4 T.code k := by cases T <;> rfl
theorem encode_setsd : encode (.setsd T k) = encodeBound 8#4 T.code k := by cases T <;> rfl

end Sys2Proof
end

