-- ==== Sys2Proof/Laws/Families.lean ====
section
/-! SUPPORT. The instructions family by family: one case rule over the eight codec families and the nine other
instructions, and what `exec` is on each family. -/

namespace Sys2Proof

/-- To show a property of every instruction, show it for each family over any type, and for `DESC` and the
eight system functions (R63 to R65). -/
theorem Instr.family_cases {P : Instr → Prop}
    (get : ∀ T le len start, P (.get T le len start))
    (set : ∀ T le len start, P (.set T le len start))
    (gets : ∀ T le len start, P (.gets T le len start))
    (sets : ∀ T le len start, P (.sets T le len start))
    (getd : ∀ T k, P (.getd T k)) (setd : ∀ T k, P (.setd T k))
    (getsd : ∀ T k, P (.getsd T k)) (setsd : ∀ T k, P (.setsd T k))
    (desc : ∀ k le len start, P (.desc k le len start))
    (nop : P .nop) (rdsr : P .rdsr) (clrsr : P .clrsr) (fclr : P .fclr) (fwr : P .fwr) (frd : P .frd)
    (rdb : ∀ index, P (.rdb index)) (wrb : ∀ index, P (.wrb index)) (i : Instr) : P i := by
  cases i
  case getU8 => exact get .u8 _ _ _
  case getI8 => exact get .i8 _ _ _
  case getU16 => exact get .u16 _ _ _
  case getI16 => exact get .i16 _ _ _
  case getU32 => exact get .u32 _ _ _
  case getI32 => exact get .i32 _ _ _
  case getU64 => exact get .u64 _ _ _
  case getI64 => exact get .i64 _ _ _
  case getF32 => exact get .f32 _ _ _
  case setU8 => exact set .u8 _ _ _
  case setI8 => exact set .i8 _ _ _
  case setU16 => exact set .u16 _ _ _
  case setI16 => exact set .i16 _ _ _
  case setU32 => exact set .u32 _ _ _
  case setI32 => exact set .i32 _ _ _
  case setU64 => exact set .u64 _ _ _
  case setI64 => exact set .i64 _ _ _
  case setF32 => exact set .f32 _ _ _
  case getsU8 => exact gets .u8 _ _ _
  case getsI8 => exact gets .i8 _ _ _
  case getsU16 => exact gets .u16 _ _ _
  case getsI16 => exact gets .i16 _ _ _
  case getsU32 => exact gets .u32 _ _ _
  case getsI32 => exact gets .i32 _ _ _
  case getsU64 => exact gets .u64 _ _ _
  case getsI64 => exact gets .i64 _ _ _
  case getsF32 => exact gets .f32 _ _ _
  case setsU8 => exact sets .u8 _ _ _
  case setsI8 => exact sets .i8 _ _ _
  case setsU16 => exact sets .u16 _ _ _
  case setsI16 => exact sets .i16 _ _ _
  case setsU32 => exact sets .u32 _ _ _
  case setsI32 => exact sets .i32 _ _ _
  case setsU64 => exact sets .u64 _ _ _
  case setsI64 => exact sets .i64 _ _ _
  case setsF32 => exact sets .f32 _ _ _
  case getdU8 => exact getd .u8 _
  case getdI8 => exact getd .i8 _
  case getdU16 => exact getd .u16 _
  case getdI16 => exact getd .i16 _
  case getdU32 => exact getd .u32 _
  case getdI32 => exact getd .i32 _
  case getdU64 => exact getd .u64 _
  case getdI64 => exact getd .i64 _
  case getdF32 => exact getd .f32 _
  case setdU8 => exact setd .u8 _
  case setdI8 => exact setd .i8 _
  case setdU16 => exact setd .u16 _
  case setdI16 => exact setd .i16 _
  case setdU32 => exact setd .u32 _
  case setdI32 => exact setd .i32 _
  case setdU64 => exact setd .u64 _
  case setdI64 => exact setd .i64 _
  case setdF32 => exact setd .f32 _
  case getsdU8 => exact getsd .u8 _
  case getsdI8 => exact getsd .i8 _
  case getsdU16 => exact getsd .u16 _
  case getsdI16 => exact getsd .i16 _
  case getsdU32 => exact getsd .u32 _
  case getsdI32 => exact getsd .i32 _
  case getsdU64 => exact getsd .u64 _
  case getsdI64 => exact getsd .i64 _
  case getsdF32 => exact getsd .f32 _
  case setsdU8 => exact setsd .u8 _
  case setsdI8 => exact setsd .i8 _
  case setsdU16 => exact setsd .u16 _
  case setsdI16 => exact setsd .i16 _
  case setsdU32 => exact setsd .u32 _
  case setsdI32 => exact setsd .i32 _
  case setsdU64 => exact setsd .u64 _
  case setsdI64 => exact setsd .i64 _
  case setsdF32 => exact setsd .f32 _
  case desc => exact desc _ _ _ _
  case nop => exact nop
  case rdsr => exact rdsr
  case clrsr => exact clrsr
  case fclr => exact fclr
  case fwr => exact fwr
  case frd => exact frd
  case rdb => exact rdb _
  case wrb => exact wrb _

namespace Machine

variable (T : Ty) (k : BitVec 4) (le : Bool) (len : BitVec 7) (start : BitVec 16) (s : State)

theorem exec_get : exec (.get T le len start) s = .next (opGet T ⟨start, len, le⟩ s) := by
  cases T <;> rfl
theorem exec_set : exec (.set T le len start) s = .next (opSet T ⟨start, len, le⟩ s) := by
  cases T <;> rfl
theorem exec_gets : exec (.gets T le len start) s =
    .next (opGets T ⟨start, len, le⟩ s.packet.f s.packet.o s) := by cases T <;> rfl
theorem exec_sets : exec (.sets T le len start) s =
    .next (opSets T ⟨start, len, le⟩ s.packet.f s.packet.o s) := by cases T <;> rfl
theorem exec_getd : exec (.getd T k) s =
    .next (withSlot k s fun d => opGet T d.layout) := by cases T <;> rfl
theorem exec_setd : exec (.setd T k) s =
    .next (withSlot k s fun d => opSet T d.layout) := by cases T <;> rfl
theorem exec_getsd : exec (.getsd T k) s =
    .next (withSlot k s fun d => opGets T d.layout d.f d.o) := by cases T <;> rfl
theorem exec_setsd : exec (.setsd T k) s =
    .next (withSlot k s fun d => opSets T d.layout d.f d.o) := by cases T <;> rfl

/-- No meaning stops. -/
theorem exec_next (i : Instr) (s : State) : ∃ t, exec i s = .next t := by
  cases i <;> exact ⟨_, rfl⟩

/-! ### The shape of every meaning -/

/-- `o` is the end of a command: response `r` completed over a state `u` that differs from `s` in what the
command wrote, and in nothing where `r` is an error. -/
structure EndsWith (s : State) (r : Response) (u t : State) : Prop where
  eq : t = complete r u
  inputs : u.inputs = s.inputs
  sr : u.sr = s.sr
  ecw : u.ecw = s.ecw
  error : r.err ≠ .ok → u = s ∧ r.ovf = false ∧ r.data = 0

theorem endsWith_raise (e : Err) : EndsWith s ⟨e, false, 0⟩ s (raise e s) :=
  ⟨rfl, rfl, rfl, rfl, fun _ => ⟨rfl, rfl, rfl⟩⟩

/-- Raw extraction writes nothing but the response. -/
theorem opGet_endsWith (l : Layout) :
    ∃ r, EndsWith s r s (opGet T l s) ∧ r.ovf = false := by
  unfold opGet
  cases extract Config.bufSize s.buf l with
  | error e => exact ⟨_, endsWith_raise s e, rfl⟩
  | ok raw => exact ⟨⟨.ok, false, _⟩, ⟨rfl, rfl, rfl, rfl, by simp⟩, rfl⟩

/-- Scaled extraction writes nothing but the response. -/
theorem opGets_endsWith (l : Layout) (f o : Word32) :
    ∃ r, EndsWith s r s (opGets T l f o s) ∧ r.ovf = false := by
  unfold opGets
  cases extract Config.bufSize s.buf l with
  | error e => exact ⟨_, endsWith_raise s e, rfl⟩
  | ok raw => exact ⟨⟨.ok, false, _⟩, ⟨rfl, rfl, rfl, rfl, by simp⟩, rfl⟩

/-- An insertion writes the buffer and the response. -/
theorem opInsert_endsWith (v : Word64) (l : Layout) :
    ∃ r buf, EndsWith s r { s with buf := buf } (opInsert v l s) := by
  unfold opInsert
  cases insert Config.bufSize s.buf v l with
  | error e => exact ⟨_, s.buf, endsWith_raise s e⟩
  | ok x => exact ⟨⟨.ok, x.2, 0⟩, x.1, ⟨rfl, rfl, rfl, rfl, by simp⟩⟩

/-- A scaled insertion writes the buffer and the response. -/
theorem opSets_endsWith (l : Layout) (f o : Word32) :
    ∃ r buf, EndsWith s r { s with buf := buf } (opSets T l f o s) := by
  unfold opSets
  cases layout Config.bufSize l with
  | error e => exact ⟨_, s.buf, endsWith_raise s e⟩
  | ok g =>
    simp only
    cases scaleSet T (s.packet.a.setWidth 32) f o with
    | error e => exact ⟨_, s.buf, endsWith_raise s e⟩
    | ok pat => exact opInsert_endsWith s pat l

/-- A descriptor-bound operation is `NODESC` or the operation on a constructed slot. -/
theorem withSlot_cases (op : Desc → State → State) :
    withSlot k s op = raise .nodesc s ∨
      ∃ d, s.desc[k.toNat]? = some d ∧ d.v = true ∧ withSlot k s op = op d s := by
  unfold withSlot
  cases h : slotAt s.desc k with
  | none => exact .inl rfl
  | some d =>
    obtain ⟨h1, h2⟩ := (slotAt_eq_some _ _ _).1 h
    exact .inr ⟨d, h1, h2, rfl⟩

/-- Every meaning but `CLRSR`'s ends a command: it writes at most the buffer, the header and the slots, then
completes its response; `ovf` comes from an insertion only. -/
theorem exec_endsWith (i : Instr) (s : State) (hi : i ≠ .clrsr) :
    ∃ r u t, exec i s = .next t ∧ EndsWith s r u t ∧ (r.ovf = true → IsInsertion i) ∧
      (¬ WritesBuf i → u.buf = s.buf) ∧ (i ≠ .fwr → i ≠ .fclr → u.fh = s.fh) ∧
      ((∀ k le len start, i ≠ .desc k le len start) → u.desc = s.desc) := by
  revert hi
  induction i using Instr.family_cases with
  | get T le len start =>
    intro _
    obtain ⟨r, h1, h2⟩ := opGet_endsWith T s ⟨start, len, le⟩
    exact ⟨r, s, _, exec_get .., h1, by simp [h2], fun _ => rfl, fun _ _ => rfl, fun _ => rfl⟩
  | set T le len start =>
    intro _
    obtain ⟨r, buf, h1⟩ := opInsert_endsWith s (T.pattern s.packet.a) ⟨start, len, le⟩
    exact ⟨r, _, _, exec_set .., h1, fun _ => .inl ⟨_, _, _, _, .inl rfl⟩,
      fun h => absurd (.inr (.inr (.inl ⟨_, _, _, _, .inl rfl⟩))) h, fun _ _ => rfl, fun _ => rfl⟩
  | gets T le len start =>
    intro _
    obtain ⟨r, h1, h2⟩ := opGets_endsWith T s ⟨start, len, le⟩ s.packet.f s.packet.o
    exact ⟨r, s, _, exec_gets .., h1, by simp [h2], fun _ => rfl, fun _ _ => rfl, fun _ => rfl⟩
  | sets T le len start =>
    intro _
    obtain ⟨r, buf, h1⟩ := opSets_endsWith T s ⟨start, len, le⟩ s.packet.f s.packet.o
    exact ⟨r, _, _, exec_sets .., h1, fun _ => .inl ⟨_, _, _, _, .inr rfl⟩,
      fun h => absurd (.inr (.inr (.inl ⟨_, _, _, _, .inr rfl⟩))) h, fun _ _ => rfl, fun _ => rfl⟩
  | getd T k =>
    intro _
    rcases withSlot_cases k s (fun d => opGet T d.layout) with h | ⟨d, _, _, h⟩
    · exact ⟨_, s, _, exec_getd .., h ▸ endsWith_raise s .nodesc, by simp, fun _ => rfl,
        fun _ _ => rfl, fun _ => rfl⟩
    · obtain ⟨r, h1, h2⟩ := opGet_endsWith T s d.layout
      exact ⟨r, s, _, exec_getd .., h ▸ h1, by simp [h2], fun _ => rfl, fun _ _ => rfl, fun _ => rfl⟩
  | setd T k =>
    intro _
    have hw : WritesBuf (.setd T k) := .inr (.inr (.inr ⟨_, _, .inl rfl⟩))
    rcases withSlot_cases k s (fun d => opSet T d.layout) with h | ⟨d, _, _, h⟩
    · exact ⟨_, s, _, exec_setd .., h ▸ endsWith_raise s .nodesc, by simp, fun _ => rfl,
        fun _ _ => rfl, fun _ => rfl⟩
    · obtain ⟨r, buf, h1⟩ := opInsert_endsWith s (T.pattern s.packet.a) d.layout
      exact ⟨r, { s with buf := buf }, _, exec_setd .., h ▸ h1, fun _ => .inr ⟨_, _, .inl rfl⟩, fun h => absurd hw h,
        fun _ _ => rfl, fun _ => rfl⟩
  | getsd T k =>
    intro _
    rcases withSlot_cases k s (fun d => opGets T d.layout d.f d.o) with h | ⟨d, _, _, h⟩
    · exact ⟨_, s, _, exec_getsd .., h ▸ endsWith_raise s .nodesc, by simp, fun _ => rfl,
        fun _ _ => rfl, fun _ => rfl⟩
    · obtain ⟨r, h1, h2⟩ := opGets_endsWith T s d.layout d.f d.o
      exact ⟨r, s, _, exec_getsd .., h ▸ h1, by simp [h2], fun _ => rfl, fun _ _ => rfl, fun _ => rfl⟩
  | setsd T k =>
    intro _
    have hw : WritesBuf (.setsd T k) := .inr (.inr (.inr ⟨_, _, .inr rfl⟩))
    rcases withSlot_cases k s (fun d => opSets T d.layout d.f d.o) with h | ⟨d, _, _, h⟩
    · exact ⟨_, s, _, exec_setsd .., h ▸ endsWith_raise s .nodesc, by simp, fun _ => rfl,
        fun _ _ => rfl, fun _ => rfl⟩
    · obtain ⟨r, buf, h1⟩ := opSets_endsWith T s d.layout d.f d.o
      exact ⟨r, { s with buf := buf }, _, exec_setsd .., h ▸ h1, fun _ => .inr ⟨_, _, .inr rfl⟩, fun h => absurd hw h,
        fun _ _ => rfl, fun _ => rfl⟩
  | desc k le len start =>
    intro _
    simp only [exec, execDesc]
    split
    · exact ⟨_, s, _, rfl, endsWith_raise s .nodesc, by simp, fun _ => rfl, fun _ _ => rfl,
        fun _ => rfl⟩
    · split
      · exact ⟨_, s, _, rfl, endsWith_raise s .length, by simp, fun _ => rfl, fun _ _ => rfl,
          fun _ => rfl⟩
      · exact ⟨⟨.ok, false, 0⟩, _, _, rfl, ⟨rfl, rfl, rfl, rfl, by simp⟩, by simp, fun _ => rfl,
          fun _ _ => rfl, fun h => absurd rfl (h _ _ _ _)⟩
  | nop => exact fun _ => ⟨⟨.ok, false, 0⟩, s, _, rfl, ⟨rfl, rfl, rfl, rfl, by simp⟩, by simp,
      fun _ => rfl, fun _ _ => rfl, fun _ => rfl⟩
  | rdsr => exact fun _ => ⟨⟨.ok, false, _⟩, s, _, rfl, ⟨rfl, rfl, rfl, rfl, by simp⟩, by simp,
      fun _ => rfl, fun _ _ => rfl, fun _ => rfl⟩
  | clrsr => exact fun h => absurd rfl h
  | fclr => exact fun _ => ⟨⟨.ok, false, 0⟩, _, _, rfl, ⟨rfl, rfl, rfl, rfl, by simp⟩, by simp,
      fun h => absurd (.inl rfl) h, fun _ h => absurd rfl h, fun _ => rfl⟩
  | fwr => exact fun _ => ⟨⟨.ok, false, 0⟩, _, _, rfl, ⟨rfl, rfl, rfl, rfl, by simp⟩, by simp,
      fun _ => rfl, fun h _ => absurd rfl h, fun _ => rfl⟩
  | frd => exact fun _ => ⟨⟨.ok, false, _⟩, s, _, rfl, ⟨rfl, rfl, rfl, rfl, by simp⟩, by simp,
      fun _ => rfl, fun _ _ => rfl, fun _ => rfl⟩
  | rdb index =>
    intro _
    simp only [exec, execRdb]
    split
    · exact ⟨_, s, _, rfl, endsWith_raise s .bounds, by simp, fun _ => rfl, fun _ _ => rfl,
        fun _ => rfl⟩
    · exact ⟨⟨.ok, false, _⟩, s, _, rfl, ⟨rfl, rfl, rfl, rfl, by simp⟩, by simp, fun _ => rfl,
        fun _ _ => rfl, fun _ => rfl⟩
  | wrb index =>
    intro _
    simp only [exec, execWrb]
    split
    · exact ⟨_, s, _, rfl, endsWith_raise s .bounds, by simp, fun _ => rfl, fun _ _ => rfl,
        fun _ => rfl⟩
    · exact ⟨⟨.ok, false, 0⟩, _, _, rfl, ⟨rfl, rfl, rfl, rfl, by simp⟩, by simp,
        fun h => absurd (.inr (.inl ⟨_, rfl⟩)) h, fun _ _ => rfl, fun _ => rfl⟩

end Machine

end Sys2Proof
end

