-- ==== Sys2Proof/Laws/Agreement.lean ====
section
/-! SUPPORT. What a command depends on: on two states with the same buffer, header and slots, and the same operands
where the instruction uses them, every meaning but those of `RDSR` and `CLRSR` makes the same writes and gives
the same response. -/

namespace Sys2Proof.Machine

/-- A command ends with one response and one set of writes on both states: `t` from `s`, `t'` from `s'`. -/
def SameEnd (s s' t t' : State) : Prop :=
  ∃ r buf fh desc, t = complete r { s with buf := buf, fh := fh, desc := desc } ∧
    t' = complete r { s' with buf := buf, fh := fh, desc := desc }

variable {s s' : State} (hb : s'.buf = s.buf) (hf : s'.fh = s.fh) (hd : s'.desc = s.desc)

include hb hf hd

/-- A command that writes nothing but its response. -/
theorem sameEnd_complete (r : Response) :
    SameEnd s s' (complete r s) (complete r s') :=
  ⟨r, s.buf, s.fh, s.desc, rfl, by rw [← hb, ← hf, ← hd]⟩

/-- Raw extraction depends on the buffer alone (R110). -/
theorem opGet_sameEnd (T : Ty) (l : Layout) :
    SameEnd s s' (opGet T l s) (opGet T l s') := by
  unfold opGet
  rw [hb]
  split <;> exact sameEnd_complete hb hf hd _

/-- Scaled extraction depends on the buffer alone, for one factor and offset (R190). -/
theorem opGets_sameEnd (T : Ty) (l : Layout) (f o) :
    SameEnd s s' (opGets T l f o s) (opGets T l f o s') := by
  unfold opGets
  rw [hb]
  split <;> exact sameEnd_complete hb hf hd _

/-- An insertion depends on the buffer alone, for one value (R140). -/
theorem opInsert_sameEnd (v : Word64) (l : Layout) :
    SameEnd s s' (opInsert v l s) (opInsert v l s') := by
  unfold opInsert
  rw [hb]
  split
  · exact sameEnd_complete hb hf hd _
  · exact ⟨_, _, s.fh, s.desc, rfl, by rw [← hf, ← hd]; rfl⟩

/-- Scaled insertion depends on the buffer and the physical value alone (R230). -/
theorem opSets_sameEnd (ha : s'.packet.a = s.packet.a)
    (T : Ty) (l : Layout) (f o) :
    SameEnd s s' (opSets T l f o s) (opSets T l f o s') := by
  unfold opSets
  rw [ha]
  split
  · exact sameEnd_complete hb hf hd _
  · split
    · exact sameEnd_complete hb hf hd _
    · exact opInsert_sameEnd hb hf hd _ _

/-- A descriptor-bound operation depends on the slots and on what the operation does (R111). -/
theorem withSlot_sameEnd (k : BitVec 4)
    (op : Desc → State → State) (hop : ∀ d, SameEnd s s' (op d s) (op d s')) :
    SameEnd s s' (withSlot k s op) (withSlot k s' op) := by
  unfold withSlot
  rw [hd]
  split
  · exact sameEnd_complete hb hf hd _
  · exact hop _

/-- What a meaning depends on: `BUF`, `FH`, `DESC` and the operands the instruction uses (R34, R60, R301); all
but `RDSR`, which reads `SR` and `ECW`, and `CLRSR`, which clears them. -/
theorem exec_sameEnd (i : Instr)
    (ha : UsesValue i → s'.packet.a = s.packet.a)
    (hs : UsesScale i → s'.packet.f = s.packet.f ∧ s'.packet.o = s.packet.o)
    (h1 : i ≠ .rdsr) (h2 : i ≠ .clrsr) :
    ∃ t t', exec i s = .next t ∧ exec i s' = .next t' ∧ SameEnd s s' t t' := by
  have base := sameEnd_complete hb hf hd
  induction i using Instr.family_cases with
  | get T le len start => exact ⟨_, _, exec_get .., exec_get .., opGet_sameEnd hb hf hd _ _⟩
  | set T le len start =>
    have ha := ha (.inr (.inr (.inl ⟨_, _, _, _, .inl rfl⟩)))
    refine ⟨_, _, exec_set .., exec_set .., ?_⟩
    unfold opSet
    rw [ha]
    exact opInsert_sameEnd hb hf hd _ _
  | gets T le len start =>
    obtain ⟨h3, h4⟩ := hs (.inl ⟨_, _, _, _, .inl rfl⟩)
    refine ⟨_, _, exec_gets .., exec_gets .., ?_⟩
    rw [h3, h4]
    exact opGets_sameEnd hb hf hd _ _ _ _
  | sets T le len start =>
    have ha := ha (.inr (.inr (.inl ⟨_, _, _, _, .inr rfl⟩)))
    obtain ⟨h3, h4⟩ := hs (.inl ⟨_, _, _, _, .inr rfl⟩)
    refine ⟨_, _, exec_sets .., exec_sets .., ?_⟩
    rw [h3, h4]
    exact opSets_sameEnd hb hf hd ha _ _ _ _
  | getd T k =>
    exact ⟨_, _, exec_getd .., exec_getd .., withSlot_sameEnd hb hf hd _ _ fun d =>
      opGet_sameEnd hb hf hd _ _⟩
  | setd T k =>
    have ha := ha (.inr (.inr (.inr ⟨_, _, .inl rfl⟩)))
    refine ⟨_, _, exec_setd .., exec_setd .., withSlot_sameEnd hb hf hd _ _ fun d => ?_⟩
    unfold opSet
    rw [ha]
    exact opInsert_sameEnd hb hf hd _ _
  | getsd T k =>
    exact ⟨_, _, exec_getsd .., exec_getsd .., withSlot_sameEnd hb hf hd _ _ fun d =>
      opGets_sameEnd hb hf hd _ _ _ _⟩
  | setsd T k =>
    have ha := ha (.inr (.inr (.inr ⟨_, _, .inr rfl⟩)))
    exact ⟨_, _, exec_setsd .., exec_setsd .., withSlot_sameEnd hb hf hd _ _ fun d =>
      opSets_sameEnd hb hf hd ha _ _ _ _⟩
  | desc k le len start =>
    obtain ⟨h3, h4⟩ := hs (.inr ⟨_, _, _, _, rfl⟩)
    refine ⟨_, _, rfl, rfl, ?_⟩
    rw [h3, h4, hd]
    split
    · exact base _
    · split
      · exact base _
      · exact ⟨_, s.buf, s.fh, _, rfl, by rw [← hb, ← hf]; rfl⟩
  | nop => exact ⟨_, _, rfl, rfl, base _⟩
  | rdsr => exact absurd rfl h1
  | clrsr => exact absurd rfl h2
  | fclr => exact ⟨_, _, rfl, rfl, _, [], Header.reset, s.desc, rfl, by rw [← hd]; rfl⟩
  | fwr =>
    refine ⟨_, _, rfl, rfl, _, s.buf, Header.unpack s.packet.a, s.desc, rfl, ?_⟩
    rw [← ha (.inl rfl), ← hb, ← hd]; rfl
  | frd => exact ⟨_, _, rfl, rfl, by rw [hf]; exact base _⟩
  | rdb index =>
    refine ⟨_, _, rfl, rfl, ?_⟩
    rw [hb]
    split <;> exact base _
  | wrb index =>
    refine ⟨_, _, rfl, rfl, ?_⟩
    rw [hb, ha (.inr (.inl ⟨_, rfl⟩))]
    split
    · exact base _
    · exact ⟨_, _, s.fh, s.desc, rfl, by rw [← hf, ← hd]; rfl⟩
end Sys2Proof.Machine
end

