-- ==== Sys2Proof/Laws/Binary32.lean ====
section
/-! SUPPORT. The binary32 arithmetic: a value's magnitude in units of `2^-149`, its packed exponent and fraction,
and rounding an exact quotient to an integer. -/

namespace Sys2Proof.Machine

/-- A finite magnitude is its number of units times `2^-149` (R170). -/
theorem magnitude_eq (e : Fin 255) (m : BitVec 23) :
    magnitude e m = (unitMagnitude e m : ℚ) * 2 ^ (-149 : ℤ) := by
  unfold magnitude unitMagnitude
  by_cases h : e.val = 0
  · simp [h]
  · simp only [h, if_false]
    have h1 : ((e.val : ℤ) - 150) = ((e.val - 1 : ℕ) : ℤ) + (-149) := by omega
    rw [h1, zpow_add₀ (by norm_num), zpow_natCast]
    push_cast
    ring

/-- A finite value is its number of units times `2^-149` (R170). -/
theorem signedValue_eq (s : Bool) (e : Fin 255) (m : BitVec 23) :
    signedValue s e m = (unitValue s e m : ℚ) * 2 ^ (-149 : ℤ) := by
  unfold signedValue unitValue
  rw [magnitude_eq]
  cases s <;> simp

/-- A magnitude is zero exactly when its number of units is. -/
theorem magnitude_eq_zero (e : Fin 255) (m : BitVec 23) : magnitude e m = 0 ↔ unitMagnitude e m = 0 := by
  rw [magnitude_eq]
  simp

/-- The packed exponent and fraction of a finite magnitude as one number. -/
def packedNumber (e : Fin 255) (m : BitVec 23) : Nat := e.val * 2 ^ 23 + m.toNat

/-- The number of units of a packed number with exponent at least 1, below exponent `t + 1`'s top. -/
theorem unitMagnitude_of_packed {t k : Nat} (hk : k ≤ 2 ^ 24) (ht : t = 0 ∨ 2 ^ 23 ≤ k)
    (h : (t * 2 ^ 23 + k) / 2 ^ 23 < 255) :
    unitMagnitude ⟨(t * 2 ^ 23 + k) / 2 ^ 23, h⟩ (BitVec.ofNat 23 (t * 2 ^ 23 + k)) = k * 2 ^ t := by
  unfold unitMagnitude
  simp only [BitVec.toNat_ofNat]
  have hq : (t * 2 ^ 23 + k) / 2 ^ 23 = t + k / 2 ^ 23 := by omega
  have hm : (t * 2 ^ 23 + k) % 2 ^ 23 = k % 2 ^ 23 := by omega
  rw [hq, hm]
  by_cases h0 : t + k / 2 ^ 23 = 0
  · have ht0 : t = 0 := by omega
    subst ht0
    rw [if_pos h0, Nat.mod_eq_of_lt (by omega)]
    simp
  · rw [if_neg h0]
    rcases (by omega : k / 2 ^ 23 = 0 ∨ k / 2 ^ 23 = 1 ∨ k = 2 ^ 24) with hk0 | hk1 | hk2
    · exfalso
      rcases ht with rfl | h23
      · omega
      · omega
    · have h1 : 2 ^ 23 + k % 2 ^ 23 = k := by omega
      rw [h1, hk1, Nat.add_sub_cancel]
    · subst hk2
      norm_num
      rw [pow_succ]
      ring

/-- Every finite magnitude with exponent at least `t + 1`, or any at `t = 0`, is a multiple of `2^t` units. -/
theorem unitMagnitude_multiple {t : Nat} {e : Fin 255} {m : BitVec 23} (h : t = 0 ∨ t + 1 ≤ e.val) :
    ∃ j, unitMagnitude e m = j * 2 ^ t := by
  rcases h with rfl | h
  · exact ⟨unitMagnitude e m, by simp⟩
  · refine ⟨(2 ^ 23 + m.toNat) * 2 ^ (e.val - 1 - t), ?_⟩
    unfold unitMagnitude
    rw [if_neg (by omega), mul_assoc, ← pow_add]
    congr 2
    omega

/-- A finite magnitude with exponent at most `t` is below `2^(23+t)` units. -/
theorem unitMagnitude_lt {t : Nat} {e : Fin 255} {m : BitVec 23} (h : e.val ≤ t) :
    unitMagnitude e m < 2 ^ (23 + t) := by
  have hm := m.isLt
  unfold unitMagnitude
  split
  · calc m.toNat < 2 ^ 23 := hm
      _ ≤ 2 ^ (23 + t) := Nat.pow_le_pow_right (by norm_num) (by omega)
  · calc (2 ^ 23 + m.toNat) * 2 ^ (e.val - 1) < 2 ^ 24 * 2 ^ (e.val - 1) := by
          apply Nat.mul_lt_mul_of_pos_right _ (by positivity)
          omega
      _ = 2 ^ (24 + (e.val - 1)) := by rw [pow_add]
      _ ≤ 2 ^ (23 + t) := Nat.pow_le_pow_right (by norm_num) (by omega)

/-- A finite magnitude determines its exponent and fraction. -/
theorem unitMagnitude_injective {e e' : Fin 255} {m m' : BitVec 23}
    (h : unitMagnitude e m = unitMagnitude e' m') : e = e' ∧ m = m' := by
  have lower : ∀ (e : Fin 255) (m : BitVec 23), e.val ≠ 0 → 2 ^ (22 + e.val) ≤ unitMagnitude e m := by
    intro e m he
    unfold unitMagnitude
    rw [if_neg he]
    calc 2 ^ (22 + e.val) = 2 ^ 23 * 2 ^ (e.val - 1) := by
          rw [← pow_add]; congr 1; omega
      _ ≤ (2 ^ 23 + m.toNat) * 2 ^ (e.val - 1) := Nat.mul_le_mul_right _ (by omega)
  have ordered : ∀ (e e' : Fin 255) (m m' : BitVec 23), unitMagnitude e m = unitMagnitude e' m' →
      e.val ≤ e'.val := by
    intro e e' m m' h
    by_contra hc
    have h1 := lower e m (by omega)
    have h2 : unitMagnitude e' m' < 2 ^ (23 + (e.val - 1)) := unitMagnitude_lt (by omega)
    have h3 : 23 + (e.val - 1) = 22 + e.val := by omega
    rw [h3] at h2
    omega
  have he : e = e' := Fin.ext (Nat.le_antisymm (ordered _ _ _ _ h) (ordered _ _ _ _ h.symm))
  subst he
  refine ⟨rfl, BitVec.eq_of_toNat_eq ?_⟩
  unfold unitMagnitude at h
  split at h
  · exact h
  · have := Nat.eq_of_mul_eq_mul_right (by positivity) h
    omega

/-- `roundHalfEven` is within a half of the quotient, and even where it is a half away. -/
theorem roundHalfEven_near (num : Nat) {den : Nat} (h : 0 < den) :
    |(roundHalfEven num den : ℚ) - (num : ℚ) / den| ≤ 1 / 2 ∧
      (|(roundHalfEven num den : ℚ) - (num : ℚ) / den| = 1 / 2 → roundHalfEven num den % 2 = 0) := by
  have hd : (0 : ℚ) < den := by exact_mod_cast h
  have hx : (num : ℚ) / den = (num / den : ℕ) + ((num % den : ℕ) : ℚ) / den := by
    have := Nat.div_add_mod num den
    rw [eq_comm, ← mul_left_inj' hd.ne', add_mul, div_mul_cancel₀ _ hd.ne', div_mul_cancel₀ _ hd.ne']
    rw [mul_comm]
    exact_mod_cast this
  have hr := Nat.mod_lt num h
  generalize hq : num / den = q at hx
  generalize hrr : num % den = r at hx hr
  have hr0 : (0 : ℚ) ≤ (r : ℚ) / den := by positivity
  unfold roundHalfEven
  simp only [hq, hrr]
  rw [hx]
  split
  · rename_i h1
    have : (r : ℚ) / den < 1 / 2 := by
      rw [div_lt_div_iff₀ hd (by norm_num)]
      exact_mod_cast by omega
    rw [show (q : ℚ) - (q + (r : ℚ) / den) = -((r : ℚ) / den) by ring, abs_neg, abs_of_nonneg hr0]
    exact ⟨this.le, fun he => absurd he this.ne⟩
  · split
    · rename_i h1 h2
      have h3 : 1 / 2 < (r : ℚ) / den := by
        rw [div_lt_div_iff₀ (by norm_num) hd]
        exact_mod_cast by omega
      have h4 : (r : ℚ) / den < 1 := by
        rw [div_lt_one hd]
        exact_mod_cast hr
      rw [show ((q + 1 : ℕ) : ℚ) - (q + (r : ℚ) / den) = 1 - (r : ℚ) / den by push_cast; ring,
        abs_of_nonneg (by linarith)]
      exact ⟨by linarith, fun he => by linarith⟩
    · rename_i h1 h2
      have h3 : (r : ℚ) / den = 1 / 2 := by
        rw [div_eq_div_iff hd.ne' (by norm_num)]
        exact_mod_cast by omega
      split
      · rename_i h4
        rw [show (q : ℚ) - (q + (r : ℚ) / den) = -((r : ℚ) / den) by ring, abs_neg, h3]
        norm_num
        exact h4
      · rename_i h4
        rw [show ((q + 1 : ℕ) : ℚ) - (q + (r : ℚ) / den) = 1 - (r : ℚ) / den by push_cast; ring, h3]
        norm_num
        omega

/-- Every other integer is no nearer, and as near only where `roundHalfEven` is even. -/
theorem roundHalfEven_nearest (num : Nat) {den : Nat} (h : 0 < den) (j : Nat) :
    |(roundHalfEven num den : ℚ) - (num : ℚ) / den| ≤ |(j : ℚ) - (num : ℚ) / den| ∧
      (|(roundHalfEven num den : ℚ) - (num : ℚ) / den| = |(j : ℚ) - (num : ℚ) / den| →
        j = roundHalfEven num den ∨ roundHalfEven num den % 2 = 0) := by
  obtain ⟨h1, h2⟩ := roundHalfEven_near num h
  generalize roundHalfEven num den = k at h1 h2
  generalize (num : ℚ) / den = x at h1 h2
  by_cases hj : j = k
  · subst hj
    exact ⟨le_refl _, fun _ => .inl rfl⟩
  · have hjk : (1 : ℚ) ≤ |(j : ℚ) - k| := by
      have : (1 : ℤ) ≤ |(j : ℤ) - k| := Int.one_le_abs (by omega)
      exact_mod_cast this
    have htri : |(j : ℚ) - k| ≤ |(j : ℚ) - x| + |(k : ℚ) - x| := by
      have := abs_sub_le (j : ℚ) x k
      rwa [abs_sub_comm x (k : ℚ)] at this
    constructor
    · linarith
    · intro he
      exact .inr (h2 (by linarith))

end Sys2Proof.Machine
end

