-- ==== Sys2Proof/Laws/PerInstr.lean ====
section
/-! SUPPORT. Statements made per instruction. `TableRow`: an instruction's word carries the fixed bits of its row of
spec/opcode_table.json (R77: `cw & mask = match`). -/

namespace Sys2Proof.Laws.TableRow

/-- The `mask` and the `match` of an instruction's row of spec/opcode_table.json. -/
def row : Instr → Word32 × Word32
  | .getU8 _ _ _ => (0xFF000000#32, 0x10000000#32)
  | .getI8 _ _ _ => (0xFF000000#32, 0x11000000#32)
  | .getU16 _ _ _ => (0xFF000000#32, 0x12000000#32)
  | .getI16 _ _ _ => (0xFF000000#32, 0x13000000#32)
  | .getU32 _ _ _ => (0xFF000000#32, 0x14000000#32)
  | .getI32 _ _ _ => (0xFF000000#32, 0x15000000#32)
  | .getU64 _ _ _ => (0xFF000000#32, 0x16000000#32)
  | .getI64 _ _ _ => (0xFF000000#32, 0x17000000#32)
  | .getF32 _ _ _ => (0xFF000000#32, 0x1C000000#32)
  | .getdU8 _ => (0xFFFFFFF0#32, 0x50000000#32)
  | .getdI8 _ => (0xFFFFFFF0#32, 0x51000000#32)
  | .getdU16 _ => (0xFFFFFFF0#32, 0x52000000#32)
  | .getdI16 _ => (0xFFFFFFF0#32, 0x53000000#32)
  | .getdU32 _ => (0xFFFFFFF0#32, 0x54000000#32)
  | .getdI32 _ => (0xFFFFFFF0#32, 0x55000000#32)
  | .getdU64 _ => (0xFFFFFFF0#32, 0x56000000#32)
  | .getdI64 _ => (0xFFFFFFF0#32, 0x57000000#32)
  | .getdF32 _ => (0xFFFFFFF0#32, 0x5C000000#32)
  | .setU8 _ _ _ => (0xFF000000#32, 0x20000000#32)
  | .setI8 _ _ _ => (0xFF000000#32, 0x21000000#32)
  | .setU16 _ _ _ => (0xFF000000#32, 0x22000000#32)
  | .setI16 _ _ _ => (0xFF000000#32, 0x23000000#32)
  | .setU32 _ _ _ => (0xFF000000#32, 0x24000000#32)
  | .setI32 _ _ _ => (0xFF000000#32, 0x25000000#32)
  | .setU64 _ _ _ => (0xFF000000#32, 0x26000000#32)
  | .setI64 _ _ _ => (0xFF000000#32, 0x27000000#32)
  | .setF32 _ _ _ => (0xFF000000#32, 0x2C000000#32)
  | .setdU8 _ => (0xFFFFFFF0#32, 0x60000000#32)
  | .setdI8 _ => (0xFFFFFFF0#32, 0x61000000#32)
  | .setdU16 _ => (0xFFFFFFF0#32, 0x62000000#32)
  | .setdI16 _ => (0xFFFFFFF0#32, 0x63000000#32)
  | .setdU32 _ => (0xFFFFFFF0#32, 0x64000000#32)
  | .setdI32 _ => (0xFFFFFFF0#32, 0x65000000#32)
  | .setdU64 _ => (0xFFFFFFF0#32, 0x66000000#32)
  | .setdI64 _ => (0xFFFFFFF0#32, 0x67000000#32)
  | .setdF32 _ => (0xFFFFFFF0#32, 0x6C000000#32)
  | .getsU8 _ _ _ => (0xFF000000#32, 0x30000000#32)
  | .getsI8 _ _ _ => (0xFF000000#32, 0x31000000#32)
  | .getsU16 _ _ _ => (0xFF000000#32, 0x32000000#32)
  | .getsI16 _ _ _ => (0xFF000000#32, 0x33000000#32)
  | .getsU32 _ _ _ => (0xFF000000#32, 0x34000000#32)
  | .getsI32 _ _ _ => (0xFF000000#32, 0x35000000#32)
  | .getsU64 _ _ _ => (0xFF000000#32, 0x36000000#32)
  | .getsI64 _ _ _ => (0xFF000000#32, 0x37000000#32)
  | .getsF32 _ _ _ => (0xFF000000#32, 0x3C000000#32)
  | .getsdU8 _ => (0xFFFFFFF0#32, 0x70000000#32)
  | .getsdI8 _ => (0xFFFFFFF0#32, 0x71000000#32)
  | .getsdU16 _ => (0xFFFFFFF0#32, 0x72000000#32)
  | .getsdI16 _ => (0xFFFFFFF0#32, 0x73000000#32)
  | .getsdU32 _ => (0xFFFFFFF0#32, 0x74000000#32)
  | .getsdI32 _ => (0xFFFFFFF0#32, 0x75000000#32)
  | .getsdU64 _ => (0xFFFFFFF0#32, 0x76000000#32)
  | .getsdI64 _ => (0xFFFFFFF0#32, 0x77000000#32)
  | .getsdF32 _ => (0xFFFFFFF0#32, 0x7C000000#32)
  | .setsU8 _ _ _ => (0xFF000000#32, 0x40000000#32)
  | .setsI8 _ _ _ => (0xFF000000#32, 0x41000000#32)
  | .setsU16 _ _ _ => (0xFF000000#32, 0x42000000#32)
  | .setsI16 _ _ _ => (0xFF000000#32, 0x43000000#32)
  | .setsU32 _ _ _ => (0xFF000000#32, 0x44000000#32)
  | .setsI32 _ _ _ => (0xFF000000#32, 0x45000000#32)
  | .setsU64 _ _ _ => (0xFF000000#32, 0x46000000#32)
  | .setsI64 _ _ _ => (0xFF000000#32, 0x47000000#32)
  | .setsF32 _ _ _ => (0xFF000000#32, 0x4C000000#32)
  | .setsdU8 _ => (0xFFFFFFF0#32, 0x80000000#32)
  | .setsdI8 _ => (0xFFFFFFF0#32, 0x81000000#32)
  | .setsdU16 _ => (0xFFFFFFF0#32, 0x82000000#32)
  | .setsdI16 _ => (0xFFFFFFF0#32, 0x83000000#32)
  | .setsdU32 _ => (0xFFFFFFF0#32, 0x84000000#32)
  | .setsdI32 _ => (0xFFFFFFF0#32, 0x85000000#32)
  | .setsdU64 _ => (0xFFFFFFF0#32, 0x86000000#32)
  | .setsdI64 _ => (0xFFFFFFF0#32, 0x87000000#32)
  | .setsdF32 _ => (0xFFFFFFF0#32, 0x8C000000#32)
  | .desc _ _ _ _ => (0xF0000000#32, 0x90000000#32)
  | .nop => (0xFFFFFFFF#32, 0xA0000000#32)
  | .rdsr => (0xFFFFFFFF#32, 0xA1000000#32)
  | .clrsr => (0xFFFFFFFF#32, 0xA2000000#32)
  | .fclr => (0xFFFFFFFF#32, 0xA3000000#32)
  | .fwr => (0xFFFFFFFF#32, 0xA4000000#32)
  | .frd => (0xFFFFFFFF#32, 0xA5000000#32)
  | .rdb _ => (0xFFFF0000#32, 0xA6000000#32)
  | .wrb _ => (0xFFFF0000#32, 0xA7000000#32)

/-- The instruction's word has its row's fixed bits (R77). -/
def Statement (i : Instr) : Prop := encode i &&& (row i).1 = (row i).2

/-- The bits a positional word fixes are `OP` and `TY` (R62). -/
theorem positional (op ty : BitVec 4) (le : Bool) (len : BitVec 7) (start : BitVec 16) :
    encodeFields op ty le len start &&& 0xFF000000#32 = op ++ ty ++ 0#24 := by
  apply BitVec.eq_of_getLsbD_eq
  intro i hi
  simp only [encodeFields, BitVec.getLsbD_and, BitVec.getLsbD_append]
  interval_cases i <;> simp

/-- The bits a descriptor-bound word fixes are all but the slot number (R69). -/
theorem bound (op ty k : BitVec 4) :
    encodeBound op ty k &&& 0xFFFFFFF0#32 = op ++ ty ++ 0#24 := by
  apply BitVec.eq_of_getLsbD_eq
  intro i hi
  simp only [encodeBound, BitVec.getLsbD_and, BitVec.getLsbD_append]
  interval_cases i <;> simp

/-- The bits a `DESC` word fixes are `OP` (R70). -/
theorem descWord (op k : BitVec 4) (le : Bool) (len : BitVec 7) (start : BitVec 16) :
    encodeFields op k le len start &&& 0xF0000000#32 = op ++ 0#28 := by
  apply BitVec.eq_of_getLsbD_eq
  intro i hi
  simp only [encodeFields, BitVec.getLsbD_and, BitVec.getLsbD_append]
  interval_cases i <;> simp

/-- The bits an indexed `SYS` word fixes are all but the byte index (R71). -/
theorem indexed (op ty : BitVec 4) (index : BitVec 16) :
    encodeFields op ty false 0#7 index &&& 0xFFFF0000#32 = op ++ ty ++ 0#24 := by
  apply BitVec.eq_of_getLsbD_eq
  intro i hi
  simp only [encodeFields, BitVec.getLsbD_and, BitVec.getLsbD_append]
  interval_cases i <;> simp

theorem getU8 (le : Bool) (len : BitVec 7) (start : BitVec 16) : Statement (.getU8 le len start) :=
  positional 1#4 0#4 le len start
theorem getI8 (le : Bool) (len : BitVec 7) (start : BitVec 16) : Statement (.getI8 le len start) :=
  positional 1#4 1#4 le len start
theorem getU16 (le : Bool) (len : BitVec 7) (start : BitVec 16) : Statement (.getU16 le len start) :=
  positional 1#4 2#4 le len start
theorem getI16 (le : Bool) (len : BitVec 7) (start : BitVec 16) : Statement (.getI16 le len start) :=
  positional 1#4 3#4 le len start
theorem getU32 (le : Bool) (len : BitVec 7) (start : BitVec 16) : Statement (.getU32 le len start) :=
  positional 1#4 4#4 le len start
theorem getI32 (le : Bool) (len : BitVec 7) (start : BitVec 16) : Statement (.getI32 le len start) :=
  positional 1#4 5#4 le len start
theorem getU64 (le : Bool) (len : BitVec 7) (start : BitVec 16) : Statement (.getU64 le len start) :=
  positional 1#4 6#4 le len start
theorem getI64 (le : Bool) (len : BitVec 7) (start : BitVec 16) : Statement (.getI64 le len start) :=
  positional 1#4 7#4 le len start
theorem getF32 (le : Bool) (len : BitVec 7) (start : BitVec 16) : Statement (.getF32 le len start) :=
  positional 1#4 12#4 le len start
theorem getdU8 (k : BitVec 4) : Statement (.getdU8 k) :=
  bound 5#4 0#4 k
theorem getdI8 (k : BitVec 4) : Statement (.getdI8 k) :=
  bound 5#4 1#4 k
theorem getdU16 (k : BitVec 4) : Statement (.getdU16 k) :=
  bound 5#4 2#4 k
theorem getdI16 (k : BitVec 4) : Statement (.getdI16 k) :=
  bound 5#4 3#4 k
theorem getdU32 (k : BitVec 4) : Statement (.getdU32 k) :=
  bound 5#4 4#4 k
theorem getdI32 (k : BitVec 4) : Statement (.getdI32 k) :=
  bound 5#4 5#4 k
theorem getdU64 (k : BitVec 4) : Statement (.getdU64 k) :=
  bound 5#4 6#4 k
theorem getdI64 (k : BitVec 4) : Statement (.getdI64 k) :=
  bound 5#4 7#4 k
theorem getdF32 (k : BitVec 4) : Statement (.getdF32 k) :=
  bound 5#4 12#4 k
theorem setU8 (le : Bool) (len : BitVec 7) (start : BitVec 16) : Statement (.setU8 le len start) :=
  positional 2#4 0#4 le len start
theorem setI8 (le : Bool) (len : BitVec 7) (start : BitVec 16) : Statement (.setI8 le len start) :=
  positional 2#4 1#4 le len start
theorem setU16 (le : Bool) (len : BitVec 7) (start : BitVec 16) : Statement (.setU16 le len start) :=
  positional 2#4 2#4 le len start
theorem setI16 (le : Bool) (len : BitVec 7) (start : BitVec 16) : Statement (.setI16 le len start) :=
  positional 2#4 3#4 le len start
theorem setU32 (le : Bool) (len : BitVec 7) (start : BitVec 16) : Statement (.setU32 le len start) :=
  positional 2#4 4#4 le len start
theorem setI32 (le : Bool) (len : BitVec 7) (start : BitVec 16) : Statement (.setI32 le len start) :=
  positional 2#4 5#4 le len start
theorem setU64 (le : Bool) (len : BitVec 7) (start : BitVec 16) : Statement (.setU64 le len start) :=
  positional 2#4 6#4 le len start
theorem setI64 (le : Bool) (len : BitVec 7) (start : BitVec 16) : Statement (.setI64 le len start) :=
  positional 2#4 7#4 le len start
theorem setF32 (le : Bool) (len : BitVec 7) (start : BitVec 16) : Statement (.setF32 le len start) :=
  positional 2#4 12#4 le len start
theorem setdU8 (k : BitVec 4) : Statement (.setdU8 k) :=
  bound 6#4 0#4 k
theorem setdI8 (k : BitVec 4) : Statement (.setdI8 k) :=
  bound 6#4 1#4 k
theorem setdU16 (k : BitVec 4) : Statement (.setdU16 k) :=
  bound 6#4 2#4 k
theorem setdI16 (k : BitVec 4) : Statement (.setdI16 k) :=
  bound 6#4 3#4 k
theorem setdU32 (k : BitVec 4) : Statement (.setdU32 k) :=
  bound 6#4 4#4 k
theorem setdI32 (k : BitVec 4) : Statement (.setdI32 k) :=
  bound 6#4 5#4 k
theorem setdU64 (k : BitVec 4) : Statement (.setdU64 k) :=
  bound 6#4 6#4 k
theorem setdI64 (k : BitVec 4) : Statement (.setdI64 k) :=
  bound 6#4 7#4 k
theorem setdF32 (k : BitVec 4) : Statement (.setdF32 k) :=
  bound 6#4 12#4 k
theorem getsU8 (le : Bool) (len : BitVec 7) (start : BitVec 16) : Statement (.getsU8 le len start) :=
  positional 3#4 0#4 le len start
theorem getsI8 (le : Bool) (len : BitVec 7) (start : BitVec 16) : Statement (.getsI8 le len start) :=
  positional 3#4 1#4 le len start
theorem getsU16 (le : Bool) (len : BitVec 7) (start : BitVec 16) : Statement (.getsU16 le len start) :=
  positional 3#4 2#4 le len start
theorem getsI16 (le : Bool) (len : BitVec 7) (start : BitVec 16) : Statement (.getsI16 le len start) :=
  positional 3#4 3#4 le len start
theorem getsU32 (le : Bool) (len : BitVec 7) (start : BitVec 16) : Statement (.getsU32 le len start) :=
  positional 3#4 4#4 le len start
theorem getsI32 (le : Bool) (len : BitVec 7) (start : BitVec 16) : Statement (.getsI32 le len start) :=
  positional 3#4 5#4 le len start
theorem getsU64 (le : Bool) (len : BitVec 7) (start : BitVec 16) : Statement (.getsU64 le len start) :=
  positional 3#4 6#4 le len start
theorem getsI64 (le : Bool) (len : BitVec 7) (start : BitVec 16) : Statement (.getsI64 le len start) :=
  positional 3#4 7#4 le len start
theorem getsF32 (le : Bool) (len : BitVec 7) (start : BitVec 16) : Statement (.getsF32 le len start) :=
  positional 3#4 12#4 le len start
theorem getsdU8 (k : BitVec 4) : Statement (.getsdU8 k) :=
  bound 7#4 0#4 k
theorem getsdI8 (k : BitVec 4) : Statement (.getsdI8 k) :=
  bound 7#4 1#4 k
theorem getsdU16 (k : BitVec 4) : Statement (.getsdU16 k) :=
  bound 7#4 2#4 k
theorem getsdI16 (k : BitVec 4) : Statement (.getsdI16 k) :=
  bound 7#4 3#4 k
theorem getsdU32 (k : BitVec 4) : Statement (.getsdU32 k) :=
  bound 7#4 4#4 k
theorem getsdI32 (k : BitVec 4) : Statement (.getsdI32 k) :=
  bound 7#4 5#4 k
theorem getsdU64 (k : BitVec 4) : Statement (.getsdU64 k) :=
  bound 7#4 6#4 k
theorem getsdI64 (k : BitVec 4) : Statement (.getsdI64 k) :=
  bound 7#4 7#4 k
theorem getsdF32 (k : BitVec 4) : Statement (.getsdF32 k) :=
  bound 7#4 12#4 k
theorem setsU8 (le : Bool) (len : BitVec 7) (start : BitVec 16) : Statement (.setsU8 le len start) :=
  positional 4#4 0#4 le len start
theorem setsI8 (le : Bool) (len : BitVec 7) (start : BitVec 16) : Statement (.setsI8 le len start) :=
  positional 4#4 1#4 le len start
theorem setsU16 (le : Bool) (len : BitVec 7) (start : BitVec 16) : Statement (.setsU16 le len start) :=
  positional 4#4 2#4 le len start
theorem setsI16 (le : Bool) (len : BitVec 7) (start : BitVec 16) : Statement (.setsI16 le len start) :=
  positional 4#4 3#4 le len start
theorem setsU32 (le : Bool) (len : BitVec 7) (start : BitVec 16) : Statement (.setsU32 le len start) :=
  positional 4#4 4#4 le len start
theorem setsI32 (le : Bool) (len : BitVec 7) (start : BitVec 16) : Statement (.setsI32 le len start) :=
  positional 4#4 5#4 le len start
theorem setsU64 (le : Bool) (len : BitVec 7) (start : BitVec 16) : Statement (.setsU64 le len start) :=
  positional 4#4 6#4 le len start
theorem setsI64 (le : Bool) (len : BitVec 7) (start : BitVec 16) : Statement (.setsI64 le len start) :=
  positional 4#4 7#4 le len start
theorem setsF32 (le : Bool) (len : BitVec 7) (start : BitVec 16) : Statement (.setsF32 le len start) :=
  positional 4#4 12#4 le len start
theorem setsdU8 (k : BitVec 4) : Statement (.setsdU8 k) :=
  bound 8#4 0#4 k
theorem setsdI8 (k : BitVec 4) : Statement (.setsdI8 k) :=
  bound 8#4 1#4 k
theorem setsdU16 (k : BitVec 4) : Statement (.setsdU16 k) :=
  bound 8#4 2#4 k
theorem setsdI16 (k : BitVec 4) : Statement (.setsdI16 k) :=
  bound 8#4 3#4 k
theorem setsdU32 (k : BitVec 4) : Statement (.setsdU32 k) :=
  bound 8#4 4#4 k
theorem setsdI32 (k : BitVec 4) : Statement (.setsdI32 k) :=
  bound 8#4 5#4 k
theorem setsdU64 (k : BitVec 4) : Statement (.setsdU64 k) :=
  bound 8#4 6#4 k
theorem setsdI64 (k : BitVec 4) : Statement (.setsdI64 k) :=
  bound 8#4 7#4 k
theorem setsdF32 (k : BitVec 4) : Statement (.setsdF32 k) :=
  bound 8#4 12#4 k
theorem desc (k : BitVec 4) (le : Bool) (len : BitVec 7) (start : BitVec 16) : Statement (.desc k le len start) :=
  descWord 9#4 k le len start
theorem nop : Statement .nop :=
  by unfold Statement; decide
theorem rdsr : Statement .rdsr :=
  by unfold Statement; decide
theorem clrsr : Statement .clrsr :=
  by unfold Statement; decide
theorem fclr : Statement .fclr :=
  by unfold Statement; decide
theorem fwr : Statement .fwr :=
  by unfold Statement; decide
theorem frd : Statement .frd :=
  by unfold Statement; decide
theorem rdb (index : BitVec 16) : Statement (.rdb index) :=
  indexed 10#4 6#4 index
theorem wrb (index : BitVec 16) : Statement (.wrb index) :=
  indexed 10#4 7#4 index

end Sys2Proof.Laws.TableRow
end

