-- ==== Sys2Proof/Tests/Slice0.lean ====
section
/-! SUPPORT. Tests: the WellFormed smoke test, every constructor's decoding from words of the spec's examples,
one step of each instruction on the spec's examples, and for each statement with hypotheses a witness that
meets them. Expected values come from spec/41 to spec/45, spec/60 and spec/70. -/

namespace Sys2Proof.Tests

open Sys2Proof.Machine

/-! ### Helpers -/

/-- The reset state with the host's events presented. -/
def present (events : List HostEvent) : State := { State.reset with inputs := events }

/-- A command with its operands. -/
def command (cw : Word32) (a : Word64) (f o : Word32) : HostEvent :=
  .command { cw := cw, a := a, f := f, o := o }

/-- The example buffer `EB` of spec/41_get.md. -/
def eb : Memory :=
  [(0, 0x01#8), (1, 0x23#8), (2, 0x45#8), (3, 0x67#8), (4, 0x89#8), (5, 0xAB#8), (6, 0xCD#8),
    (7, 0xEF#8), (8, 0xFE#8), (9, 0xDC#8), (10, 0xBA#8), (11, 0x98#8), (12, 0x76#8), (13, 0x54#8),
    (14, 0x32#8), (15, 0x10#8)]

/-- No slot constructed. -/
def noSlots : Vector Desc Config.nDesc := Vector.replicate Config.nDesc Desc.reset

/-- One slot constructed. -/
def slot (k start len : Nat) (le : Bool) (f o : Word32) : Vector Desc Config.nDesc :=
  noSlots.setIfInBounds k
    { v := true, start := BitVec.ofNat 16 start, len := BitVec.ofNat 7 len, le := le, f := f, o := o }

/-- The next state of a step, where there is one. -/
def nextState (s : State) : Option State :=
  match step s with
  | .next t => some t
  | .fault _ => none
  | .refused _ => none

/-- Every word decodes to the instruction beside it. -/
def decodesTo (rows : List (Nat × Instr)) : Bool :=
  rows.all fun r => decide (decodeTableWord 32 r.1 = some r.2)

/-- A packet, the slots and the buffer before it, the response, and the buffer's first `n` bytes after it
(the pairs listed, the others zero). -/
abbrev Example := Packet × Vector Desc Config.nDesc × Memory × Err × Bool × Word64 × Nat × Memory

/-- Every example's step gives its response and its bytes. -/
def answers (rows : List Example) : Bool :=
  rows.all fun (p, slots, m, err, ovf, data, n, after) =>
    match nextState { present [.command p] with desc := slots, buf := m } with
    | some t =>
      decide (t.resp = { err := err, ovf := ovf, data := data }) &&
        (List.range n).all fun i => decide (Memory.read t.buf i = Memory.read after i)
    | none => false

/-! ### WellFormed -/

/-- The one check refuses a scaled instruction without the scale unit (R184). -/
theorem test_wellFormed_refuses_scaled :
    Instr.wellFormedWith false (.getsU8 true 8#7 0#16) = false ∧
      Instr.wellFormedWith false (.setsI16 true 8#7 0#16) = false ∧
      Instr.wellFormedWith false (.getsdF32 0#4) = false ∧
      Instr.wellFormedWith false (.setsdU64 0#4) = false ∧
      Instr.wellFormedWith false (.getU8 true 8#7 0#16) = true ∧
      Instr.wellFormed (.getsU8 true 8#7 0#16) = true := by decide

/-! ### Decoding (words of the examples of spec/41 to spec/45) -/

/-- Words of R110, one for each type, from the examples of its family's rules. -/
theorem test_decode_get :
    decodesTo [
      (0x10880004, .getU8 true 8#7 4#16),
      (0x11880038, .getI8 true 8#7 56#16),
      (0x12900000, .getU16 true 16#7 0#16),
      (0x13100040, .getI16 false 16#7 64#16),
      (0x14A00000, .getU32 true 32#7 0#16),
      (0x15A00020, .getI32 true 32#7 32#16),
      (0x16C00000, .getU64 true 64#7 0#16),
      (0x17C00040, .getI64 true 64#7 64#16),
      (0x1CA00000, .getF32 true 32#7 0#16)] = true := by decide

/-- Words of R140, one for each type, from the examples of its family's rules. -/
theorem test_decode_set :
    decodesTo [
      (0x20880004, .setU8 true 8#7 4#16),
      (0x21880000, .setI8 true 8#7 0#16),
      (0x22900000, .setU16 true 16#7 0#16),
      (0x238C0004, .setI16 true 12#7 4#16),
      (0x24A00000, .setU32 true 32#7 0#16),
      (0x25A00008, .setI32 true 32#7 8#16),
      (0x26C00000, .setU64 true 64#7 0#16),
      (0x27400008, .setI64 false 64#7 8#16),
      (0x2CA00000, .setF32 true 32#7 0#16)] = true := by decide

/-- Words of R190, one for each type, from the examples of its family's rules. -/
theorem test_decode_gets :
    decodesTo [
      (0x30880000, .getsU8 true 8#7 0#16),
      (0x31880000, .getsI8 true 8#7 0#16),
      (0x32100018, .getsU16 false 16#7 24#16),
      (0x33900000, .getsI16 true 16#7 0#16),
      (0x34A00000, .getsU32 true 32#7 0#16),
      (0x35A00000, .getsI32 true 32#7 0#16),
      (0x36C00000, .getsU64 true 64#7 0#16),
      (0x37C00000, .getsI64 true 64#7 0#16),
      (0x3CA00000, .getsF32 true 32#7 0#16)] = true := by decide

/-- Words of R230, one for each type, from the examples of its family's rules. -/
theorem test_decode_sets :
    decodesTo [
      (0x40880000, .setsU8 true 8#7 0#16),
      (0x41880000, .setsI8 true 8#7 0#16),
      (0x42100018, .setsU16 false 16#7 24#16),
      (0x43900000, .setsI16 true 16#7 0#16),
      (0x44A00000, .setsU32 true 32#7 0#16),
      (0x45A00000, .setsI32 true 32#7 0#16),
      (0x46C00000, .setsU64 true 64#7 0#16),
      (0x47C00000, .setsI64 true 64#7 0#16),
      (0x4CA00000, .setsF32 true 32#7 0#16)] = true := by decide

/-- Words of R111, one for each type, from the examples of its family's rules. -/
theorem test_decode_getd :
    decodesTo [
      (0x50000000, .getdU8 0#4),
      (0x51000001, .getdI8 1#4),
      (0x52000002, .getdU16 2#4),
      (0x53000003, .getdI16 3#4),
      (0x54000000, .getdU32 0#4),
      (0x55000001, .getdI32 1#4),
      (0x56000002, .getdU64 2#4),
      (0x57000003, .getdI64 3#4),
      (0x5C000000, .getdF32 0#4)] = true := by decide

/-- Words of R141, one for each type, from the examples of its family's rules. -/
theorem test_decode_setd :
    decodesTo [
      (0x60000000, .setdU8 0#4),
      (0x61000001, .setdI8 1#4),
      (0x62000002, .setdU16 2#4),
      (0x63000003, .setdI16 3#4),
      (0x64000000, .setdU32 0#4),
      (0x65000001, .setdI32 1#4),
      (0x66000002, .setdU64 2#4),
      (0x67000003, .setdI64 3#4),
      (0x6C000000, .setdF32 0#4)] = true := by decide

/-- Words of R191, one for each type, from the examples of its family's rules. -/
theorem test_decode_getsd :
    decodesTo [
      (0x70000000, .getsdU8 0#4),
      (0x71000001, .getsdI8 1#4),
      (0x72000002, .getsdU16 2#4),
      (0x73000003, .getsdI16 3#4),
      (0x74000000, .getsdU32 0#4),
      (0x75000001, .getsdI32 1#4),
      (0x76000002, .getsdU64 2#4),
      (0x77000003, .getsdI64 3#4),
      (0x7C000000, .getsdF32 0#4)] = true := by decide

/-- Words of R231, one for each type, from the examples of its family's rules. -/
theorem test_decode_setsd :
    decodesTo [
      (0x80000000, .setsdU8 0#4),
      (0x81000001, .setsdI8 1#4),
      (0x82000002, .setsdU16 2#4),
      (0x83000003, .setsdI16 3#4),
      (0x84000000, .setsdU32 0#4),
      (0x85000001, .setsdI32 1#4),
      (0x86000002, .setsdU64 2#4),
      (0x87000003, .setsdI64 3#4),
      (0x8C000000, .setsdF32 0#4)] = true := by decide
/-- Words of R260 to R268. -/
theorem test_decode_system :
    decodesTo [
      (0x92100018, .desc 2#4 false 16#7 24#16),
      (0xA0000000, .nop),
      (0xA1000000, .rdsr),
      (0xA2000000, .clrsr),
      (0xA3000000, .fclr),
      (0xA4000000, .fwr),
      (0xA5000000, .frd),
      (0xA6000040, .rdb 64#16),
      (0xA7000003, .wrb 3#16)] = true := by decide

/-- Each condition of R74 is refused by its name, at a word that breaks it alone. -/
theorem test_decode_refuses :
    decode 0x00000000#32 = .error .reservedOp ∧ decode 0xFFFFFFFF#32 = .error .reservedOp ∧
      decode 0x18880000#32 = .error .reservedType ∧ decode 0x5F000000#32 = .error .reservedType ∧
      decodeWith false 0x30880000#32 = .error .noScaleUnit ∧
      decode 0x50800000#32 = .error .boundFieldNotZero ∧
      decode 0x50010000#32 = .error .boundFieldNotZero ∧
      decode 0x50000010#32 = .error .boundFieldNotZero ∧
      decode 0xA8000000#32 = .error .reservedFunction ∧
      decode 0xA6800000#32 = .error .sysFieldNotZero ∧
      decode 0xA0000001#32 = .error .sysStartNotZero := by
  refine ⟨?_, ?_, ?_, ?_, ?_, ?_, ?_, ?_, ?_, ?_, ?_⟩ <;> rfl

/-! ### One step (examples of spec/41 to spec/45) -/

/-- Examples of R110's family, one for each type and each error shown. -/
theorem test_get_examples : answers [
    (⟨0x10880004#32, 0x0#64, 0x00000000#32, 0x00000000#32⟩, noSlots, eb, .ok, false, 0x30#64, 0, []),
    (⟨0x108801F9#32, 0x0#64, 0x00000000#32, 0x00000000#32⟩, noSlots, eb, .bounds, false, 0x0#64, 0, []),
    (⟨0x11880038#32, 0x0#64, 0x00000000#32, 0x00000000#32⟩, noSlots, eb, .ok, false, 0xEF#64, 0, []),
    (⟨0x12900000#32, 0x0#64, 0x00000000#32, 0x00000000#32⟩, noSlots, eb, .ok, false, 0x2301#64, 0, []),
    (⟨0x12800000#32, 0x0#64, 0x00000000#32, 0x00000000#32⟩, noSlots, eb, .length, false, 0x0#64, 0, []),
    (⟨0x13100040#32, 0x0#64, 0x00000000#32, 0x00000000#32⟩, noSlots, eb, .ok, false, 0xFEDC#64, 0, []),
    (⟨0x14A00000#32, 0x0#64, 0x00000000#32, 0x00000000#32⟩,
      noSlots, eb, .ok, false, 0x67452301#64, 0, []),
    (⟨0x15A00020#32, 0x0#64, 0x00000000#32, 0x00000000#32⟩,
      noSlots, eb, .ok, false, 0xEFCDAB89#64, 0, []),
    (⟨0x16C00000#32, 0x0#64, 0x00000000#32, 0x00000000#32⟩,
      noSlots, eb, .ok, false, 0xEFCDAB8967452301#64, 0, []),
    (⟨0x16C00001#32, 0x0#64, 0x00000000#32, 0x00000000#32⟩, noSlots, eb, .span, false, 0x0#64, 0, []),
    (⟨0x17C00040#32, 0x0#64, 0x00000000#32, 0x00000000#32⟩,
      noSlots, eb, .ok, false, 0x1032547698BADCFE#64, 0, []),
    (⟨0x1CA00000#32, 0x0#64, 0x00000000#32, 0x00000000#32⟩,
      noSlots, eb, .ok, false, 0x67452301#64, 0, [])] = true := by decide

/-- Examples of R140's family, one for each type and each error shown. -/
theorem test_set_examples : answers [
    (⟨0x20880004#32, 0xA5#64, 0x00000000#32, 0x00000000#32⟩,
      noSlots, [], .ok, false, 0x0#64, 10, [(0, 0x50#8), (1, 0x0A#8)]),
    (⟨0x20810200#32, 0x1#64, 0x00000000#32, 0x00000000#32⟩, noSlots, [], .bounds, false, 0x0#64, 0, []),
    (⟨0x21880000#32, 0xFF#64, 0x00000000#32, 0x00000000#32⟩,
      noSlots, [], .ok, false, 0x0#64, 10, [(0, 0xFF#8)]),
    (⟨0x22900000#32, 0x1234#64, 0x00000000#32, 0x00000000#32⟩,
      noSlots, [], .ok, false, 0x0#64, 10, [(0, 0x34#8), (1, 0x12#8)]),
    (⟨0x22800000#32, 0x1234#64, 0x00000000#32, 0x00000000#32⟩,
      noSlots, [], .length, false, 0x0#64, 0, []),
    (⟨0x238C0004#32, 0xFFFF#64, 0x00000000#32, 0x00000000#32⟩,
      noSlots, [], .ok, true, 0x0#64, 10, [(0, 0xF0#8), (1, 0xFF#8)]),
    (⟨0x24A00000#32, 0xDEADBEEF#64, 0x00000000#32, 0x00000000#32⟩,
      noSlots, [], .ok, false, 0x0#64, 10, [(0, 0xEF#8), (1, 0xBE#8), (2, 0xAD#8), (3, 0xDE#8)]),
    (⟨0x25A00008#32, 0xFFFFFFFE#64, 0x00000000#32, 0x00000000#32⟩,
      noSlots, [], .ok, false, 0x0#64, 10, [(1, 0xFE#8), (2, 0xFF#8), (3, 0xFF#8), (4, 0xFF#8)]),
    (⟨0x26C00000#32, 0x123456789ABCDEF#64, 0x00000000#32, 0x00000000#32⟩,
      noSlots, [], .ok, false, 0x0#64, 10, [(0, 0xEF#8), (1, 0xCD#8), (2, 0xAB#8), (3, 0x89#8), (4,
        0x67#8), (5, 0x45#8), (6, 0x23#8), (7, 0x01#8)]),
    (⟨0x26400004#32, 0x1#64, 0x00000000#32, 0x00000000#32⟩, noSlots, [], .span, false, 0x0#64, 0, []),
    (⟨0x27400008#32, 0xFFFFFFFFFFFFFFFF#64, 0x00000000#32, 0x00000000#32⟩,
      noSlots, [], .ok, false, 0x0#64, 10, [(1, 0xFF#8), (2, 0xFF#8), (3, 0xFF#8), (4, 0xFF#8), (5,
        0xFF#8), (6, 0xFF#8), (7, 0xFF#8), (8, 0xFF#8)]),
    (⟨0x2CA00000#32, 0x3FC00000#64, 0x00000000#32, 0x00000000#32⟩,
      noSlots, [], .ok, false, 0x0#64, 10, [(2, 0xC0#8), (3, 0x3F#8)])] = true := by decide

/-- Examples of R190's family, one for each type and each error shown. -/
theorem test_gets_examples : answers [
    (⟨0x30880000#32, 0x0#64, 0x3F000000#32, 0xC2200000#32⟩,
      noSlots, [(0, 0xC8#8)], .ok, false, 0x42700000#64, 0, []),
    (⟨0x31880000#32, 0x0#64, 0x3F000000#32, 0x00000000#32⟩,
      noSlots, [(0, 0xF0#8)], .ok, false, 0xC1000000#64, 0, []),
    (⟨0x32100018#32, 0x0#64, 0x3DCCCCCD#32, 0x00000000#32⟩,
      noSlots, [(3, 0x0B#8), (4, 0xB8#8)], .ok, false, 0x43960000#64, 0, []),
    (⟨0x33900000#32, 0x0#64, 0x3C23D70A#32, 0x00000000#32⟩,
      noSlots, [(0, 0x18#8), (1, 0xFC#8)], .ok, false, 0xC1200000#64, 0, []),
    (⟨0x34A00000#32, 0x0#64, 0x3F800000#32, 0x00000000#32⟩,
      noSlots, [(0, 0x01#8), (3, 0x01#8)], .ok, false, 0x4B800000#64, 0, []),
    (⟨0x35A00000#32, 0x0#64, 0x3C23D70A#32, 0x00000000#32⟩,
      noSlots, [(0, 0x96#8)], .ok, false, 0x3FC00000#64, 0, []),
    (⟨0x36C00000#32, 0x0#64, 0x3F800000#32, 0x00000000#32⟩,
      noSlots, [(0, 0xFF#8), (1, 0xFF#8), (2, 0xFF#8), (3, 0xFF#8), (4, 0xFF#8), (5, 0xFF#8), (6,
        0xFF#8), (7, 0xFF#8)], .ok, false, 0x5F800000#64, 0, []),
    (⟨0x37C00000#32, 0x0#64, 0x3F800000#32, 0x00000000#32⟩,
      noSlots, [(0, 0xFF#8), (1, 0xFF#8), (2, 0xFF#8), (3, 0xFF#8), (4, 0xFF#8), (5, 0xFF#8), (6,
        0xFF#8), (7, 0xFF#8)], .ok, false, 0xBF800000#64, 0, []),
    (⟨0x3CA00000#32, 0x0#64, 0x40000000#32, 0x3F800000#32⟩,
      noSlots, [(2, 0xC0#8), (3, 0x3F#8)], .ok, false, 0x40800000#64, 0, [])] = true := by decide

/-- Examples of R230's family, one for each type and each error shown. -/
theorem test_sets_examples : answers [
    (⟨0x40880000#32, 0x42700000#64, 0x3F000000#32, 0xC2200000#32⟩,
      noSlots, [], .ok, false, 0x0#64, 8, [(0, 0xC8#8)]),
    (⟨0x40880000#32, 0x43800000#64, 0x3F800000#32, 0x00000000#32⟩,
      noSlots, [], .conv, false, 0x0#64, 8, []),
    (⟨0x40800000#32, 0x447A0000#64, 0x3F800000#32, 0x00000000#32⟩,
      noSlots, [], .length, false, 0x0#64, 2, []),
    (⟨0x40880200#32, 0x447A0000#64, 0x3F800000#32, 0x00000000#32⟩,
      noSlots, [], .bounds, false, 0x0#64, 2, []),
    (⟨0x41880000#32, 0xC1480000#64, 0x3F000000#32, 0x00000000#32⟩,
      noSlots, [], .ok, false, 0x0#64, 8, [(0, 0xE7#8)]),
    (⟨0x42100018#32, 0x43960000#64, 0x3DCCCCCD#32, 0x00000000#32⟩,
      noSlots, [], .ok, false, 0x0#64, 8, [(3, 0x0B#8), (4, 0xB8#8)]),
    (⟨0x43900000#32, 0xC1200000#64, 0x3C23D70A#32, 0x00000000#32⟩,
      noSlots, [], .ok, false, 0x0#64, 8, [(0, 0x18#8), (1, 0xFC#8)]),
    (⟨0x44A00000#32, 0x3FC00000#64, 0x3C23D70A#32, 0x00000000#32⟩,
      noSlots, [], .ok, false, 0x0#64, 8, [(0, 0x96#8)]),
    (⟨0x45A00000#32, 0x3FC00000#64, 0x3C23D70A#32, 0x00000000#32⟩,
      noSlots, [], .ok, false, 0x0#64, 8, [(0, 0x96#8)]),
    (⟨0x46C00000#32, 0x5F000000#64, 0x3F800000#32, 0x00000000#32⟩,
      noSlots, [], .ok, false, 0x0#64, 8, [(7, 0x80#8)]),
    (⟨0x47C00000#32, 0xDF000000#64, 0x3F800000#32, 0x00000000#32⟩,
      noSlots, [], .ok, false, 0x0#64, 8, [(7, 0x80#8)]),
    (⟨0x4CA00000#32, 0x40400000#64, 0x40000000#32, 0x3F800000#32⟩,
      noSlots, [], .ok, false, 0x0#64, 8, [(2, 0x80#8), (3, 0x3F#8)])] = true := by decide

/-- Examples of R111's family, one for each type and each error shown. -/
theorem test_getd_examples : answers [
    (⟨0x50000000#32, 0x0#64, 0x00000000#32, 0x00000000#32⟩,
      (slot 0 12 8 true 0x3F800000#32 0x00000000#32), eb, .ok, false, 0x52#64, 0, []),
    (⟨0x51000001#32, 0x0#64, 0x00000000#32, 0x00000000#32⟩,
      (slot 1 63 8 false 0x3F800000#32 0x00000000#32), eb, .ok, false, 0xFF#64, 0, []),
    (⟨0x52000002#32, 0x0#64, 0x00000000#32, 0x00000000#32⟩,
      (slot 2 8 16 true 0x3F800000#32 0x00000000#32), eb, .ok, false, 0x4523#64, 0, []),
    (⟨0x53000003#32, 0x0#64, 0x00000000#32, 0x00000000#32⟩,
      (slot 3 64 16 false 0x3F800000#32 0x00000000#32), eb, .ok, false, 0xFEDC#64, 0, []),
    (⟨0x54000000#32, 0x0#64, 0x00000000#32, 0x00000000#32⟩,
      (slot 0 32 32 false 0x3F800000#32 0x00000000#32), eb, .ok, false, 0x89ABCDEF#64, 0, []),
    (⟨0x55000001#32, 0x0#64, 0x00000000#32, 0x00000000#32⟩,
      (slot 1 96 32 true 0x3F800000#32 0x00000000#32), eb, .ok, false, 0x10325476#64, 0, []),
    (⟨0x56000002#32, 0x0#64, 0x00000000#32, 0x00000000#32⟩,
      (slot 2 0 64 false 0x3F800000#32 0x00000000#32), eb, .ok, false, 0x123456789ABCDEF#64, 0, []),
    (⟨0x57000003#32, 0x0#64, 0x00000000#32, 0x00000000#32⟩,
      (slot 3 64 64 true 0x3F800000#32 0x00000000#32), eb, .ok, false, 0x1032547698BADCFE#64, 0, []),
    (⟨0x5C000000#32, 0x0#64, 0x00000000#32, 0x00000000#32⟩,
      (slot 0 96 32 false 0x3F800000#32 0x00000000#32), eb, .ok, false, 0x76543210#64, 0, [])] =
    true := by decide

/-- Examples of R141's family, one for each type and each error shown. -/
theorem test_setd_examples : answers [
    (⟨0x60000000#32, 0x5A#64, 0x00000000#32, 0x00000000#32⟩,
      (slot 0 12 8 true 0x3F800000#32 0x00000000#32), [], .ok, false, 0x0#64, 10, [(1, 0xA0#8), (2,
        0x05#8)]),
    (⟨0x61000001#32, 0xF5#64, 0x00000000#32, 0x00000000#32⟩,
      (slot 1 2 5 false 0x3F800000#32 0x00000000#32), [], .ok, true, 0x0#64, 10, [(0, 0x2A#8)]),
    (⟨0x62000002#32, 0xBEEF#64, 0x00000000#32, 0x00000000#32⟩,
      (slot 2 8 16 true 0x3F800000#32 0x00000000#32), [], .ok, false, 0x0#64, 10, [(1, 0xEF#8), (2,
        0xBE#8)]),
    (⟨0x63000003#32, 0x8001#64, 0x00000000#32, 0x00000000#32⟩,
      (slot 3 8 16 false 0x3F800000#32 0x00000000#32), [], .ok, false, 0x0#64, 10, [(1, 0x80#8), (2,
        0x01#8)]),
    (⟨0x64000000#32, 0x1020304#64, 0x00000000#32, 0x00000000#32⟩,
      (slot 0 32 32 false 0x3F800000#32 0x00000000#32), [], .ok, false, 0x0#64, 10, [(4, 0x01#8), (5,
        0x02#8), (6, 0x03#8), (7, 0x04#8)]),
    (⟨0x65000001#32, 0xFFFFFFFF#64, 0x00000000#32, 0x00000000#32⟩,
      (slot 1 20 32 true 0x3F800000#32 0x00000000#32), [], .ok, false, 0x0#64, 10, [(2, 0xF0#8), (3,
        0xFF#8), (4, 0xFF#8), (5, 0xFF#8), (6, 0x0F#8)]),
    (⟨0x66000002#32, 0x1122334455667788#64, 0x00000000#32, 0x00000000#32⟩,
      (slot 2 0 64 false 0x3F800000#32 0x00000000#32), [], .ok, false, 0x0#64, 10, [(0, 0x11#8), (1,
        0x22#8), (2, 0x33#8), (3, 0x44#8), (4, 0x55#8), (5, 0x66#8), (6, 0x77#8), (7, 0x88#8)]),
    (⟨0x67000003#32, 0xFFFF000000000001#64, 0x00000000#32, 0x00000000#32⟩,
      (slot 3 16 48 true 0x3F800000#32 0x00000000#32), [], .ok, true, 0x0#64, 10, [(2, 0x01#8)]),
    (⟨0x6C000000#32, 0xC0490FDB#64, 0x00000000#32, 0x00000000#32⟩,
      (slot 0 16 32 false 0x3F800000#32 0x00000000#32), [], .ok, false, 0x0#64, 10, [(2, 0xC0#8), (3,
        0x49#8), (4, 0x0F#8), (5, 0xDB#8)])] =
    true := by decide

/-- Examples of R191's family, one for each type and each error shown. -/
theorem test_getsd_examples : answers [
    (⟨0x70000000#32, 0x0#64, 0x00000000#32, 0x00000000#32⟩,
      (slot 0 0 8 true 0x3F000000#32 0xC2200000#32), [(0, 0xC8#8)], .ok, false, 0x42700000#64, 0, []),
    (⟨0x71000001#32, 0x0#64, 0x00000000#32, 0x00000000#32⟩,
      (slot 1 8 8 false 0x3E800000#32 0x00000000#32), [(1, 0x80#8)], .ok, false, 0xC2000000#64, 0, []),
    (⟨0x72000002#32, 0x0#64, 0x00000000#32, 0x00000000#32⟩,
      (slot 2 24 16 false 0x3DCCCCCD#32 0x00000000#32), [(3, 0x0B#8), (4, 0xB8#8)], .ok, false,
        0x43960000#64, 0, []),
    (⟨0x73000003#32, 0x0#64, 0x00000000#32, 0x00000000#32⟩,
      (slot 3 16 16 true 0x3A83126F#32 0x3F800000#32), [(2, 0x18#8), (3, 0xFC#8)], .ok, false, 0x0#64,
        0, []),
    (⟨0x74000000#32, 0x0#64, 0x00000000#32, 0x00000000#32⟩,
      (slot 0 0 32 false 0x3F000000#32 0x00000000#32), [(2, 0x01#8)], .ok, false, 0x43000000#64, 0, []),
    (⟨0x75000001#32, 0x0#64, 0x00000000#32, 0x00000000#32⟩,
      (slot 1 0 32 true 0x3C23D70A#32 0x00000000#32), [(0, 0x96#8)], .ok, false, 0x3FC00000#64, 0, []),
    (⟨0x76000002#32, 0x0#64, 0x00000000#32, 0x00000000#32⟩,
      (slot 2 0 64 false 0x3F800000#32 0x00000000#32), [(0, 0x80#8)], .ok, false, 0x5F000000#64, 0, []),
    (⟨0x77000003#32, 0x0#64, 0x00000000#32, 0x00000000#32⟩,
      (slot 3 0 64 false 0x3F800000#32 0x00000000#32), [(0, 0x80#8)], .ok, false, 0xDF000000#64, 0, []),
    (⟨0x7C000000#32, 0x0#64, 0x00000000#32, 0x00000000#32⟩,
      (slot 0 0 32 false 0x41200000#32 0xBF800000#32), [(0, 0x3F#8), (1, 0xC0#8)], .ok, false,
        0x41600000#64, 0, [])] =
    true := by decide

/-- Examples of R231's family, one for each type and each error shown. -/
theorem test_setsd_examples : answers [
    (⟨0x80000000#32, 0x42700000#64, 0x00000000#32, 0x00000000#32⟩,
      (slot 0 0 8 true 0x3F000000#32 0xC2200000#32), [], .ok, false, 0x0#64, 8, [(0, 0xC8#8)]),
    (⟨0x81000001#32, 0xC2000000#64, 0x00000000#32, 0x00000000#32⟩,
      (slot 1 8 8 false 0x3E800000#32 0x00000000#32), [], .ok, false, 0x0#64, 8, [(1, 0x80#8)]),
    (⟨0x82000002#32, 0x43960000#64, 0x00000000#32, 0x00000000#32⟩,
      (slot 2 24 16 false 0x3DCCCCCD#32 0x00000000#32), [], .ok, false, 0x0#64, 8, [(3, 0x0B#8), (4,
        0xB8#8)]),
    (⟨0x83000003#32, 0x3F000000#64, 0x00000000#32, 0x00000000#32⟩,
      (slot 3 16 16 true 0x3A83126F#32 0x3F800000#32), [], .ok, false, 0x0#64, 8, [(2, 0x0D#8), (3,
        0xFE#8)]),
    (⟨0x84000000#32, 0x47000000#64, 0x00000000#32, 0x00000000#32⟩,
      (slot 0 0 32 false 0x3F000000#32 0x00000000#32), [], .ok, false, 0x0#64, 8, [(1, 0x01#8)]),
    (⟨0x85000001#32, 0xBFC00000#64, 0x00000000#32, 0x00000000#32⟩,
      (slot 1 0 32 true 0x3C23D70A#32 0x00000000#32), [], .ok, false, 0x0#64, 8, [(0, 0x6A#8), (1,
        0xFF#8), (2, 0xFF#8), (3, 0xFF#8)]),
    (⟨0x86000002#32, 0x53800000#64, 0x00000000#32, 0x00000000#32⟩,
      (slot 2 0 64 false 0x3F800000#32 0x00000000#32), [], .ok, false, 0x0#64, 8, [(2, 0x01#8)]),
    (⟨0x87000003#32, 0xC0000000#64, 0x00000000#32, 0x00000000#32⟩,
      (slot 3 0 64 false 0x3F800000#32 0x00000000#32), [], .ok, false, 0x0#64, 8, [(0, 0xFF#8), (1,
        0xFF#8), (2, 0xFF#8), (3, 0xFF#8), (4, 0xFF#8), (5, 0xFF#8), (6, 0xFF#8), (7, 0xFE#8)]),
    (⟨0x8C000000#32, 0x41600000#64, 0x00000000#32, 0x00000000#32⟩,
      (slot 0 0 32 false 0x41200000#32 0xBF800000#32), [], .ok, false, 0x0#64, 8, [(0, 0x3F#8), (1,
        0xC0#8)])] =
    true := by decide
/-- R260: a slot constructed, `NODESC` and `LENGTH`. -/
theorem test_desc_examples :
    ((nextState (present [command 0x92100018#32 0 0x3DCCCCCD#32 0])).bind fun t => t.desc[2]?) =
        some ⟨true, 24#16, 16#7, false, 0x3DCCCCCD#32, 0#32⟩ ∧
      answers [
        (⟨0x94880000#32, 0, 0, 0⟩, noSlots, [], .nodesc, false, 0, 0, []),
        (⟨0x93800000#32, 0, 0, 0⟩, noSlots, [], .length, false, 0, 0, []),
        (⟨0x93C10000#32, 0, 0, 0⟩, noSlots, [], .length, false, 0, 0, []),
        (⟨0x93400007#32, 0, 0, 0⟩, noSlots, [], .ok, false, 0, 0, [])] = true := by decide

/-- R261, R267, R268: `NOP` and its illegal neighbour, `RDB` and `WRB` inside and outside the buffer. -/
theorem test_byte_examples : answers [
    (⟨0xA0000000#32, 0, 0, 0⟩, noSlots, eb, .ok, false, 0, 2, eb),
    (⟨0xA0000001#32, 0, 0, 0⟩, noSlots, eb, .illegal, false, 0, 2, eb),
    (⟨0xA6000003#32, 0, 0, 0⟩, noSlots, [(3, 0xA5#8)], .ok, false, 0xA5#64, 0, []),
    (⟨0xA6000040#32, 0, 0, 0⟩, noSlots, eb, .bounds, false, 0, 0, []),
    (⟨0xA7000003#32, 0x1A5#64, 0, 0⟩, noSlots, [], .ok, false, 0, 5, [(3, 0xA5#8)]),
    (⟨0xA7000040#32, 1#64, 0, 0⟩, noSlots, [], .bounds, false, 0, 0, [])] = true := by decide

/-- R262, R263: `RDSR` after a first `BOUNDS` and a later `ILLEGAL`; `CLRSR`. -/
theorem test_status_examples :
    ((nextState { present [command 0xA1000000#32 0 0 0] with
        sr := 0x22#32, ecw := 0xA6000040#32 }).map fun t => t.resp.data) =
      some 0xA600004000000022#64 ∧
    ((nextState { present [command 0xA2000000#32 0 0 0] with
        sr := 0x22#32, ecw := 0xA6000040#32 }).map fun t => (t.sr, t.ecw)) = some (0#32, 0#32) ∧
    ((nextState { present [command 0xA0000001#32 0 0 0] with
        sr := 0x20#32, ecw := 0xA6000040#32 }).map fun t => (t.sr, t.ecw)) =
      some (0x22#32, 0xA6000040#32) := by decide

/-- R264, R265, R266: `FRD` of the headers of R266's table, `FCLR`. -/
theorem test_header_examples :
    ((nextState { present [command 0xA5000000#32 0 0 0] with
        fh := Header.unpack 0xFFFFFF117ABCDE0F#64 }).map fun t => t.resp.data) =
      some 0x000000117ABCDE0F#64 ∧
    ((nextState { present [command 0xA5000000#32 0 0 0] with
        fh := Header.unpack 0x0000001980000123#64 }).map fun t => t.resp.data) =
      some 0x0000011980000123#64 ∧
    ((nextState (present [command 0xA4000000#32 0x0000008200000000#64 0 0])).map fun t => t.fh) =
      some ⟨0#29, false, false, false, false, 65#7⟩ ∧
    ((nextState { present [command 0xA3000000#32 0 0 0] with
        fh := Header.unpack 0x1980000123#64, buf := eb }).map fun t => (t.buf, t.fh)) =
      some ([], Header.reset) := by decide

/-! ### Witnesses: a state and operands that meet the hypotheses of each statement -/

/-- A state with one constructed slot, the command `RDB 64` presented, and no error seen. -/
def slotState : State := { present [command 0xA6000040#32 0 0 0] with desc := slot 1 12 8 true 0 0 }

/-- `DecodeEncodeRoundTrip`: both clauses. -/
theorem test_witness_DecodeEncodeRoundTrip :
    Instr.wellFormedWith true (.getsU8 true 64#7 65535#16) = true ∧
      Instr.wellFormedWith false (.getsU8 true 64#7 65535#16) = false := by decide

/-- `EncodeDecodeRoundTrip`. -/
theorem test_witness_EncodeDecodeRoundTrip :
    decodeWith false 0x1FFFFFFF#32 ≠ .ok .nop ∧
      decodeWith false 0x1CFFFFFF#32 = .ok (.getF32 true 127#7 65535#16) := by
  exact ⟨by decide, rfl⟩

/-- `IllegalWordsExactly`: an illegal and a legal word, and an illegal one presented. -/
theorem test_witness_IllegalWordsExactly :
    IllegalWord true 0x50000010#32 ∧ ¬ IllegalWord true 0x5000000F#32 ∧
      (present [command 0xA0000001#32 0 0 0]).inputs = .command ⟨0xA0000001#32, 0, 0, 0⟩ :: [] ∧
      IllegalWord Config.hasScale 0xA0000001#32 := by
  refine ⟨?_, ?_, rfl, ?_⟩ <;> unfold IllegalWord <;> decide

/-- `StepRunsDecodedInstruction`, `IgnoredOperandsHaveNoEffect` (a factor changed under `SET`). -/
theorem test_witness_command :
    (present [command 0x20880004#32 1 2 3]).inputs = .command ⟨0x20880004#32, 1, 2, 3⟩ :: [] ∧
      decode 0x20880004#32 = .ok (.setU8 true 8#7 4#16) ∧
      (Instr.setU8 true 8#7 4#16).wellFormed = true ∧
      UsesValue (.setU8 true 8#7 4#16) ∧ ¬ UsesScale (.setU8 true 8#7 4#16) := by
  refine ⟨rfl, rfl, rfl, .inr (.inr (.inl ⟨.u8, _, _, _, .inl rfl⟩)), ?_⟩
  rintro (⟨T, _, _, _, h | h⟩ | ⟨_, _, _, _, h⟩)
  · cases T <;> cases h
  · cases T <;> cases h
  · cases h

/-- `IgnoredOperandsHaveNoEffect`: an instruction that uses `f` and `o`. -/
theorem test_witness_scale : UsesScale (.desc 1#4 true 8#7 0#16) ∧ ¬ UsesValue .nop := by
  refine ⟨.inr ⟨_, _, _, _, rfl⟩, ?_⟩
  rintro (h | ⟨_, h⟩ | ⟨T, _, _, _, h | h⟩ | ⟨T, _, h | h⟩)
  · cases h
  · cases h
  all_goals cases T <;> cases h

/-- `ResetEventRestoresResetValues` and the reset clause of `StatusAfterCommand`. -/
theorem test_witness_reset_event :
    ∃ t, step { slotState with inputs := [.reset] } = .next t ∧
      ({ slotState with inputs := [.reset] } : State).inputs = .reset :: [] := ⟨_, rfl, rfl⟩

/-- `ResetConsequences`, `GetExtractsField` and the other positional statements: fields that fit, at both
ends of the buffer and of the lengths. -/
theorem test_witness_field_fits :
    FieldFits Config.bufSize ⟨0#16, 1#7, true⟩ ∧ FieldFits Config.bufSize ⟨448#16, 64#7, false⟩ ∧
      FieldFits Config.bufSize ⟨511#16, 1#7, false⟩ ∧ FieldFits Config.bufSize ⟨454#16, 58#7, true⟩ := by
  decide

/-- The error clauses of the positional statements: each error, at the first value that fails. -/
theorem test_witness_layout_error :
    layoutError Config.bufSize ⟨0#16, 0#7, true⟩ = some .length ∧
      layoutError Config.bufSize ⟨0#16, 65#7, true⟩ = some .length ∧
      layoutError Config.bufSize ⟨7#16, 58#7, true⟩ = some .span ∧
      layoutError Config.bufSize ⟨512#16, 1#7, false⟩ = some .bounds ∧
      layoutError Config.bufSize ⟨449#16, 64#7, false⟩ = some .span := by decide

/-- `IdleStepChangesNothing`. -/
theorem test_witness_idle : ({ slotState with inputs := [] } : State).inputs = [] := rfl

/-- `StepKeepsInvariant`, and the invariant clause of the descriptor-bound statements: a state with a
constructed slot. -/
theorem test_witness_invariant : Invariant slotState ∧ ∃ t, step slotState = .next t := by
  refine ⟨⟨rfl, ?_, ?_, fun _ => rfl⟩, _, rfl⟩
  · intro k d h hv
    by_cases hk : k < 4
    · interval_cases k
      · cases h; cases hv
      · cases h; decide
      · cases h; cases hv
      · cases h; cases hv
    · rw [Vector.getElem?_eq_none (by simp only [Config.nDesc]; omega)] at h
      cases h
  · intro b _
    change (0#32).getLsbD b = false
    simp

/-- `StatusAfterCommand` (first error), `FaultingCommandWritesNothing`. -/
theorem test_witness_first_error :
    ∃ t, step slotState = .next t ∧ decode 0xA6000040#32 ≠ .ok .clrsr ∧ t.resp.err ≠ .ok ∧
      NoErrorBit slotState.sr := by
  refine ⟨_, rfl, by decide, by decide, ?_⟩
  intro b _ _
  change (0#32).getLsbD b = false
  simp

/-- `StatusAfterCommand`: a later error, and `CLRSR`. -/
theorem test_witness_later_error :
    (∃ t, step { slotState with sr := 0x40#32 } = .next t ∧
      ¬ (t.resp.err ≠ .ok ∧ NoErrorBit (0x40#32))) ∧
      ∃ t, step (present [command 0xA2000000#32 0 0 0]) = .next t ∧
        decode 0xA2000000#32 = .ok .clrsr :=
  ⟨⟨_, rfl, fun h => absurd (h.2 6 (by decide) (by decide)) (by decide)⟩, _, rfl, rfl⟩

/-- `OverflowOnlyFromInsertions`: an insertion that drops a bit. -/
theorem test_witness_overflow :
    (nextState (present [command 0x20840000#32 0x15#64 0 0])).map (fun t => t.resp.ovf) = some true := by
  decide

/-- `HeaderReachedOnlyByItsInstructions`: each clause. -/
theorem test_witness_header :
    (∃ t, exec .nop slotState = .next t) ∧ Instr.nop ≠ .fwr ∧ Instr.nop ≠ .fclr ∧ Instr.nop ≠ .frd ∧
      ∃ t, exec .fwr slotState = .next t := ⟨⟨_, rfl⟩, by decide, by decide, by decide, _, rfl⟩

/-- `SlotsWrittenOnlyByDesc`: a `DESC` that changes a slot, an instruction that is none, a constructed
slot. -/
theorem test_witness_slots :
    (∃ t, exec (.desc 3#4 true 64#7 0#16) slotState = .next t ∧ t.desc ≠ slotState.desc) ∧
      (∀ k le len start, Instr.nop ≠ .desc k le len start) ∧
      ∃ d, slotState.desc[1]? = some d ∧ d.v = true :=
  ⟨⟨_, rfl, by decide⟩, fun _ _ _ _ h => (by cases h), _, rfl, rfl⟩

/-- `BufferReachedOnlyByItsInstructions`: an instruction that does not reach the buffer. -/
theorem test_witness_buffer :
    (∃ t, exec .nop slotState = .next t) ∧ ¬ WritesBuf .nop ∧ ¬ TouchesBuf .nop := by
  refine ⟨⟨_, rfl⟩, ?_, ?_⟩
  · rintro (h | ⟨_, h⟩ | ⟨T, _, _, _, h | h⟩ | ⟨T, _, h | h⟩)
    · cases h
    · cases h
    all_goals cases T <;> cases h
  · rintro (h | ⟨_, h | h⟩ | ⟨T, _, _, _, h | h | h | h⟩ | ⟨T, _, h | h | h | h⟩)
    · cases h
    · cases h
    · cases h
    all_goals cases T <;> cases h

/-- `ResponseNotCarried`, `StatusNeverGates`. -/
theorem test_witness_not_gated :
    slotState.inputs ≠ [] ∧ decode 0xA6000040#32 ≠ .ok .rdsr ∧ ∃ t, step slotState = .next t :=
  ⟨by decide, by decide, _, rfl⟩

/-- `RepeatedCodecCommandAgrees`: an insertion and an extraction on a canonical buffer. -/
theorem test_witness_repeat :
    Memory.wf slotState.buf = true ∧ IsInsertion (.setU8 true 8#7 0#16) ∧
      (∃ t, exec (.setU8 true 8#7 0#16) slotState = .next t) ∧
      ¬ IsInsertion (.getU8 true 8#7 0#16) ∧ ∃ t, exec (.getU8 true 8#7 0#16) slotState = .next t := by
  refine ⟨rfl, .inl ⟨.u8, _, _, _, .inl rfl⟩, ⟨_, rfl⟩, ?_, _, rfl⟩
  rintro (⟨T, _, _, _, h | h⟩ | ⟨T, _, h | h⟩) <;> cases T <;> cases h

/-- The descriptor-bound statements: a constructed slot whose field fits, slots whose field fails each check
at its use, a slot that is not constructed, and numbers of slots that are absent. -/
theorem test_witness_bound :
    (slotState.desc[(1#4).toNat]?).map Desc.v = some true ∧
      (slotState.desc[(1#4).toNat]?).map (fun d => decide (FieldFits Config.bufSize d.layout)) =
        some true ∧
      ((slot 3 7 64 false 0 0)[3]?).map (fun d => (d.v, layoutError Config.bufSize d.layout)) =
        some (true, some .span) ∧
      ((slot 3 512 8 false 0 0)[3]?).map (fun d => (d.v, layoutError Config.bufSize d.layout)) =
        some (true, some .bounds) ∧
      (slotState.desc[(0#4).toNat]?).map Desc.v = some false ∧
      slotState.desc[(4#4).toNat]? = none ∧ slotState.desc[(15#4).toNat]? = none := by decide

/-- A buffer with bytes at both ends, one constructed slot over its last byte, and a scaled insertion of 60.0
with factor 0.5 and offset -40.0 presented, that is of raw 200 (R232). -/
def storeState : State :=
  { present [command 0x408801F8#32 0x42700000#64 0x3F000000#32 0xC2200000#32] with
    buf := [(0, 1#8), (63, 255#8)], desc := slot 3 504 8 true 0x3F000000#32 0xC2200000#32 }

/-- `SetInsertsField`, `WrbWritesByte`: a canonical buffer and a field that fits, the last bit. -/
theorem test_witness_SetInsertsField :
    Memory.wf storeState.buf = true ∧ FieldFits Config.bufSize ⟨511#16, 1#7, true⟩ ∧
      (63#16).toNat < Config.bufSize := by decide

/-- `SetdInsertsSlotField`: a canonical buffer and a constructed slot whose field fits, the last byte. -/
theorem test_witness_SetdInsertsSlotField :
    Memory.wf storeState.buf = true ∧
      (storeState.desc[(3#4).toNat]?).map (fun d => (d.v, decide (FieldFits Config.bufSize d.layout))) =
        some (true, true) := by decide

/-- `SetsInsertsScaledValue`: a canonical buffer, a field that fits, and a value with a pattern; the same with
a value that has none. -/
theorem test_witness_SetsInsertsScaledValue :
    Memory.wf storeState.buf = true ∧ FieldFits Config.bufSize ⟨504#16, 8#7, true⟩ ∧
      scaledPattern .u8 (storeState.packet.a.setWidth 32) storeState.packet.f storeState.packet.o =
        some 0xC8#64 ∧
      scaledPattern .i8 (storeState.packet.a.setWidth 32) storeState.packet.f storeState.packet.o =
        none := by decide

/-- `SetsdInsertsScaledSlotValue`: the same with a constructed slot. -/
theorem test_witness_SetsdInsertsScaledSlotValue :
    Memory.wf storeState.buf = true ∧
      (storeState.desc[(3#4).toNat]?).map (fun d => (d.v, decide (FieldFits Config.bufSize d.layout),
        scaledPattern .u8 (storeState.packet.a.setWidth 32) d.f d.o,
        scaledPattern .i8 (storeState.packet.a.setWidth 32) d.f d.o)) =
        some (true, true, some 0xC8#64, none) := by decide

/-- Where an integer type has a pattern and where it has none, at the ends of its range (R221). -/
theorem test_pattern_range :
    scaledPattern .u8 0x437FE666#32 0x3F800000#32 0#32 = some 0xFF#64 ∧
      scaledPattern .u8 0x43800000#32 0x3F800000#32 0#32 = none ∧
      scaledPattern .u8 0xBF666666#32 0x3F800000#32 0#32 = some 0#64 ∧
      scaledPattern .u8 0xBF800000#32 0x3F800000#32 0#32 = none ∧
      scaledPattern .u64 0x5F7FFFFF#32 0x3F800000#32 0#32 = some 18446742974197923840#64 ∧
      scaledPattern .u64 0x5F800000#32 0x3F800000#32 0#32 = none ∧
      scaledPattern .i32 0x4EFFFFFF#32 0x3F800000#32 0#32 = some 2147483520#64 ∧
      scaledPattern .f32 0x40000000#32 0x40000000#32 0#32 = some 0x3F800000#64 := by decide

/-- `ZeroFactorEndsInConv`, `SETSD`: a constructed slot with a zero factor whose field fits, on a canonical
buffer. -/
theorem test_witness_zero_factor_slot :
    ∃ (s : State) (d : Desc), s.desc[(3#4).toNat]? = some d ∧ d.v = true ∧
      FieldFits Config.bufSize { start := d.start, len := d.len, le := d.le } ∧ d.f = 0x80000000#32 ∧
      Memory.wf s.buf = true :=
  ⟨{ storeState with desc := slot 3 480 32 true 0x80000000#32 0#32 }, _, rfl, rfl, by decide, rfl, rfl⟩

/-- `ZeroFactorEndsInConv`, `SETS`: a state with a zero factor of each sign, for an integer type and for `F32`,
with a difference that is zero and one that is not. -/
theorem test_witness_zero_factor :
    FieldFits Config.bufSize ⟨0#16, 32#7, true⟩ ∧
      (present [command 0x44A00000#32 0x3F800000#64 0#32 0#32]).packet.f = 0x00000000#32 ∧
      (present [command 0x44A00000#32 0x3F800000#64 0x80000000#32 0#32]).packet.f = 0x80000000#32 ∧
      Ty.u32 ≠ .f32 ∧
      (∃ neg e m, (Binary32.unpack 0x3F800000#32).sub (Binary32.unpack 0x3F800000#32) =
        .finite neg e m ∧ magnitude e m = 0) ∧
      ¬ (IsNan ((Binary32.unpack 0x7F800000#32).sub (Binary32.unpack 0#32)) ∨
        ∃ neg e m, (Binary32.unpack 0x7F800000#32).sub (Binary32.unpack 0#32) = .finite neg e m ∧
          magnitude e m = 0) := by
  have h : (Binary32.unpack 0x7F800000#32).sub (Binary32.unpack 0#32) = .inf false := by decide
  refine ⟨by decide, rfl, rfl, by decide, ⟨false, 0, 0#23, by decide, by simp [magnitude]⟩, ?_⟩
  rw [h]
  rintro (⟨_, h⟩ | ⟨_, _, _, h, _⟩) <;> cases h

/-- `ScaledRoundTrip`: a scaled insertion that drops no bit, read back in the state it leaves. -/
theorem test_witness_scaled_round_trip :
    Memory.wf State.reset.buf = true ∧
      ((nextState (present [command 0x40880000#32 0x42700000#64 0x3F000000#32 0xC2200000#32])).map
        fun t => (t.resp.err, t.resp.ovf, Memory.read t.buf 0)) = some (.ok, false, 0xC8#8) := by decide

/-- `DescConstructsSlot`: each clause, at its boundary values. -/
theorem test_witness_desc :
    Config.nDesc ≤ (4#4).toNat ∧ (3#4).toNat < Config.nDesc ∧ (0#7).toNat = 0 ∧
      64 < (65#7).toNat ∧ 1 ≤ (1#7).toNat ∧ (64#7).toNat ≤ 64 := by decide

/-- `NopChangesNothing` to `FrdReadsHeader`: words with and without a bit below the function code set. -/
theorem test_witness_sys_words :
    (0#24) = 0#24 ∧ (1#24) ≠ 0#24 ∧ decode (0xA3#8 ++ 0#24) = .ok .fclr := ⟨rfl, by decide, rfl⟩

/-- `HeaderRoundTrip`. -/
theorem test_witness_header_round_trip : ∃ t, exec .fwr slotState = .next t := ⟨_, rfl⟩

/-- `RdbReadsByte`, `WrbWritesByte` (with `test_witness_SetInsertsField`): each clause, at its boundary values. -/
theorem test_witness_byte_index :
    (63#16).toNat < Config.bufSize ∧ Config.bufSize ≤ (64#16).toNat ∧
      8 * (8191#16).toNat < 2 ^ 16 ∧ (1#8) ≠ 0#8 := by decide

/-- `InsertThenExtract`: an insertion without and one with a dropped bit. -/
theorem test_witness_insert :
    Memory.wfFrom 64 0 [] = true ∧
      (∃ m, insert 64 [] 0x5#64 ⟨5#16, 3#7, true⟩ = .ok (m, false)) ∧
      ∃ m, insert 64 [] 0x1FF#64 ⟨0#16, 8#7, true⟩ = .ok (m, true) := ⟨rfl, ⟨_, rfl⟩, _, rfl⟩

/-- `DisjointInsert`: neighbouring fields of different modes in one byte. -/
theorem test_witness_disjoint :
    DisjointFields ⟨0#16, 4#7, true⟩ ⟨0#16, 4#7, false⟩ ∧
      ∃ m, insert 64 [] 0x5#64 ⟨0#16, 4#7, true⟩ = .ok (m, false) := by
  refine ⟨?_, _, rfl⟩
  rintro b b' ⟨h1, h2⟩ ⟨h3, h4⟩ ⟨h5, h6⟩
  simp at h1 h2 h3 h4 h6
  omega

/-- `ClampNeverObserved`: a field whose window overhangs a buffer of one byte, and an extension of it. -/
theorem test_witness_clamp :
    Memory.wfFrom 1 0 [(0, 0x55#8)] = true ∧ Memory.wfFrom 64 0 [(0, 0x55#8), (1, 0xFF#8)] = true ∧
      (∀ i < 1, Memory.read [(0, 0x55#8), (1, 0xFF#8)] i = Memory.read [(0, 0x55#8)] i) ∧
      FieldFits 1 ⟨4#16, 4#7, true⟩ := by decide

/-- `SingleByteNumberings`: fields with and without `2s + LEN = 8`. -/
theorem test_witness_single_byte :
    63 < 64 ∧ 63 < 8192 ∧ 1 ≤ (1#7).toNat ∧ 7 + (1#7).toNat ≤ 8 ∧ 2 * 7 + (1#7).toNat ≠ 8 ∧
      2 * 2 + (4#7).toNat = 8 := by decide

/-- `LengthSixtyFour`: the last field that fits, and one off a byte boundary. -/
theorem test_witness_sixty_four :
    FieldFits 64 ⟨448#16, 64#7, false⟩ ∧ (64#7).toNat = 64 ∧ (1#16).toNat % 8 ≠ 0 := by decide

/-- `RoundingIsNearestEven`, `IntegerConversion`: a magnitude below and one at the overflow threshold. -/
theorem test_witness_rounding :
    0 < 1 ∧ ((1 : ℚ) < 2 ^ 128 - 2 ^ 103) ∧ ((2 : ℚ) ^ 128 - 2 ^ 103 ≤ 2 ^ 128) ∧
      (16777215 : ℤ).natAbs < 2 ^ 24 ∧ (18446744073709551615 : ℤ).natAbs < 2 ^ 64 := by
  norm_num

/-- `MultiplicationRounds`, `DivisionRounds`: a zero and a smallest magnitude. -/
theorem test_witness_magnitudes : magnitude 0 0#23 = 0 ∧ magnitude 0 1#23 ≠ 0 := by
  refine ⟨by simp [magnitude], ?_⟩
  rw [Ne, magnitude_eq_zero]
  decide

/-- `AdditionRounds`: a positive, a negative and a zero sum. -/
theorem test_witness_sums :
    0 < signedValue false 1 0#23 + signedValue false 1 0#23 ∧
      signedValue true 1 0#23 + signedValue true 1 0#23 < 0 ∧
      signedValue false 1 0#23 + signedValue true 1 0#23 = 0 := by
  simp only [signedValue, magnitude]
  norm_num

/-- `SubtractionIsAdditionOfNegation`, `PatternsAndValues`: a NaN, an infinity, a subnormal and a normal. -/
theorem test_witness_kinds :
    IsNan (Binary32.unpack 0x7F800001#32) ∧ ¬ IsNan (Binary32.unpack 0x7F800000#32) ∧
      Binary32.unpack 0x00000001#32 = .finite false 0 1#23 ∧
      Binary32.unpack 0x3F800000#32 = .finite false 127 0#23 ∧
      ¬ IsNan ((Binary32.inf false).add (Binary32.inf true).neg) := by
  have h1 : Binary32.unpack 0x7F800000#32 = .inf false := by decide
  have h2 : (Binary32.inf false).add (Binary32.inf true).neg = .inf false := by decide
  refine ⟨⟨⟨false, 0⟩, by decide⟩, ?_, by decide, by decide, ?_⟩
  · rw [h1]; rintro ⟨_, h⟩; cases h
  · rw [h2]; rintro ⟨_, h⟩; cases h

/-- `TruncationTowardZero`: a value of each sign. -/
theorem test_witness_truncation : 0 ≤ signedValue false 127 0#23 ∧ signedValue true 127 0#23 ≤ 0 := by
  simp only [signedValue, magnitude]
  norm_num

end Sys2Proof.Tests
end

section
/-! PROOFS. The state (10_state.md): what one step does by the event presented, what an instruction leaves
unchanged, that every step keeps the invariant, and what a step does not depend on. -/

namespace Sys2Proof.Machine

variable {s t : State} {p : Packet} {rest : List HostEvent} {i : Instr}

/-! ### One step, by the event presented -/

theorem step_reset (h : s.inputs = .reset :: rest) : step s = .next (resetEvent rest s) := by
  simp only [step, h]

theorem step_illegal {r : Illegal} (h : s.inputs = .command p :: rest) (hd : decode p.cw = .error r) :
    step s = .next (retire rest (raise .illegal s)) := by
  simp only [step, h, hd]

theorem step_exec (h : s.inputs = .command p :: rest) (hd : decode p.cw = .ok i)
    (he : exec i s = .next t) : step s = .next (retire rest t) := by
  simp only [step, h, hd, he]

/-- Everything a command can do: `ILLEGAL`, or the meaning of the instruction it decodes to; either way it
leaves the host's sequence. -/
theorem step_command_cases (h : s.inputs = .command p :: rest) (ht : step s = .next t) :
    ((∃ r, decode p.cw = .error r) ∧ t = retire rest (raise .illegal s)) ∨
      ∃ i u, decode p.cw = .ok i ∧ exec i s = .next u ∧ t = retire rest u := by
  cases hd : decode p.cw with
  | error r =>
    rw [step_illegal h hd, Host.Outcome.next.injEq] at ht
    exact .inl ⟨⟨r, rfl⟩, ht.symm⟩
  | ok i =>
    obtain ⟨u, hu⟩ := exec_next i s
    rw [step_exec h hd hu, Host.Outcome.next.injEq] at ht
    exact .inr ⟨i, u, rfl, hu, ht.symm⟩

/-- Everything a step can do. -/
theorem step_cases (ht : step s = .next t) :
    (s.inputs = [] ∧ t = s) ∨ (∃ rest, s.inputs = .reset :: rest ∧ t = resetEvent rest s) ∨
      ∃ p rest, s.inputs = .command p :: rest ∧
        (t = retire rest (raise .illegal s) ∨ ∃ i u, exec i s = .next u ∧ t = retire rest u) := by
  match h : s.inputs with
  | [] =>
    simp only [step, h, Host.Outcome.next.injEq] at ht
    exact .inl ⟨rfl, ht.symm⟩
  | .reset :: rest =>
    rw [step_reset h, Host.Outcome.next.injEq] at ht
    exact .inr (.inl ⟨rest, rfl, ht.symm⟩)
  | .command p :: rest =>
    refine .inr (.inr ⟨p, rest, rfl, ?_⟩)
    rcases step_command_cases h ht with ⟨-, ht⟩ | ⟨i, u, -, hu, ht⟩
    · exact .inl ht
    · exact .inr ⟨i, u, hu, ht⟩

/-! ### The end of a command -/

section EndsWith

variable {r : Response} {u : State}

theorem EndsWith.sr_eq (h : EndsWith s r u t) : t.sr = srAfter r s.sr := by
  rw [h.eq, complete_sr, h.sr]

theorem EndsWith.ecw_eq (h : EndsWith s r u t) :
    t.ecw = ecwAfter s.packet.cw r s.sr s.ecw := by
  rw [h.eq, complete_ecw, h.sr, h.ecw, State.packet, h.inputs, ← State.packet]

theorem EndsWith.resp_eq (h : EndsWith s r u t) : t.resp = r := by rw [h.eq, complete_resp]

end EndsWith

/-- Every command but `CLRSR`, legal or not, ends with one response, whose `ovf` is 1 for an insertion
only. -/
theorem step_endsWith (h : s.inputs = .command p :: rest) (hd : decode p.cw ≠ .ok .clrsr)
    (ht : step s = .next t) :
    ∃ r u v, t = retire rest v ∧ EndsWith s r u v ∧
      (r.ovf = true → ∃ i, decode p.cw = .ok i ∧ IsInsertion i) := by
  rcases step_command_cases h ht with ⟨-, rfl⟩ | ⟨i, v, hi, hv, rfl⟩
  · exact ⟨_, s, _, rfl, endsWith_raise s .illegal, by simp⟩
  · have hc : i ≠ .clrsr := by
      rintro rfl
      exact hd hi
    obtain ⟨r, u, v', hv', hend, hovf, -⟩ := exec_endsWith i s hc
    cases hv.symm.trans hv'
    exact ⟨r, u, v, rfl, hend, fun ho => ⟨i, hi, hovf ho⟩⟩

/-- `CLRSR` zeroes both status registers and succeeds without overflow (R263). -/
theorem step_clrsr (h : s.inputs = .command p :: rest) (hd : decode p.cw = .ok .clrsr) :
    step s = .next (retire rest (succeed false 0 { s with sr := 0, ecw := 0 })) :=
  step_exec h hd rfl

/-! ### What an instruction leaves unchanged -/

/-- An instruction that writes none of `BUF`, `FH` and the slots leaves it (R23, R26, R28). -/
theorem exec_frame (h : exec i s = .next t) :
    (¬ WritesBuf i → t.buf = s.buf) ∧ (i ≠ .fwr → i ≠ .fclr → t.fh = s.fh) ∧
      ((∀ k le len start, i ≠ .desc k le len start) → t.desc = s.desc) := by
  by_cases hc : i = .clrsr
  · subst hc
    cases h
    exact ⟨fun _ => rfl, fun _ _ => rfl, fun _ => rfl⟩
  · obtain ⟨r, u, t', ht', hend, -, hframe⟩ := exec_endsWith i s hc
    cases h.symm.trans ht'
    simpa only [hend.eq, complete_buf, complete_fh, complete_desc] using hframe

theorem setSlot_same {n : Nat} (slots : Vector Desc n) {k : BitVec 4} (hk : k.toNat < n) (d : Desc) :
    (setSlot slots k d)[k.toNat]? = some d := by
  simp [setSlot, hk]

theorem setSlot_other {n j : Nat} (slots : Vector Desc n) {k : BitVec 4} (hj : j ≠ k.toNat) (d : Desc) :
    (setSlot slots k d)[j]? = slots[j]? :=
  Vector.getElem?_setIfInBounds_ne hj.symm

/-- The slot contents a `DESC` writes, all six fields (R260). -/
def constructedSlot (le : Bool) (len : BitVec 7) (start : BitVec 16) (p : Packet) : Desc :=
  { v := true, start := start, len := len, le := le, f := p.f, o := p.o }

/-- Everything an instruction can do to the slots: nothing, or, for a `DESC` that passes its checks, the
construction of its own (R28, R260). -/
theorem exec_desc_cases (h : exec i s = .next t) :
    t.desc = s.desc ∨ ∃ k le len start, i = .desc k le len start ∧ k.toNat < Config.nDesc ∧
      (1 ≤ len.toNat ∧ len.toNat ≤ 64) ∧
      t.desc = setSlot s.desc k (constructedSlot le len start s.packet) := by
  by_cases hi : ∃ k le len start, i = .desc k le len start
  · obtain ⟨k, le, len, start, rfl⟩ := hi
    simp only [exec, execDesc, Host.Outcome.next.injEq] at h
    subst h
    split
    · exact .inl rfl
    · split
      · exact .inl rfl
      · exact .inr ⟨k, le, len, start, rfl, by omega, by omega, rfl⟩
  · obtain ⟨-, -, hdesc⟩ := exec_frame h
    exact .inl (hdesc fun k le len start he => hi ⟨k, le, len, start, he⟩)

/-! ### Every operation keeps the buffer canonical -/

section Canonical

variable (hm : Memory.wf s.buf = true)
include hm

theorem opInsert_keeps_wf (v : Word64) (l : Layout) : Memory.wf (opInsert v l s).buf = true := by
  rcases insert_spec hm v l with ⟨m', ovf, hok, -, hm', -⟩ | ⟨e, herr, -⟩
  · rw [opInsert, hok]
    exact hm'
  · rw [opInsert, herr]
    exact hm

theorem opSets_keeps_wf (T : Ty) (l : Layout) (f o : Word32) :
    Memory.wf (opSets T l f o s).buf = true := by
  cases hl : layoutError Config.bufSize l with
  | some e =>
    rw [opSets_error T f o hl]
    exact hm
  | none =>
    rw [opSets_fits T f o ((layoutError_eq_none _ l).1 hl)]
    cases scaledPattern T (s.packet.a.setWidth 32) f o with
    | some v => exact opInsert_keeps_wf hm v l
    | none => exact hm

theorem withSlot_keeps_wf (k : BitVec 4) (op : Desc → State → State)
    (hop : ∀ d, Memory.wf (op d s).buf = true) : Memory.wf (withSlot k s op).buf = true := by
  rcases withSlot_cases k s op with h | ⟨d, -, -, h⟩
  · rw [h]
    exact hm
  · rw [h]
    exact hop d

theorem exec_keeps_wf (h : exec i s = .next t) : Memory.wf t.buf = true := by
  by_cases hw : WritesBuf i
  · rcases hw with rfl | ⟨index, rfl⟩ | ⟨T, le, len, start, rfl | rfl⟩ | ⟨T, k, rfl | rfl⟩
    · cases h
      exact wf_clear s.buf
    · simp only [exec, execWrb, Host.Outcome.next.injEq] at h
      subst h
      split
      · exact hm
      · exact wfFrom_write hm (Nat.zero_le _) (by omega) _
    · cases (exec_set ..).symm.trans h
      exact opInsert_keeps_wf hm _ _
    · cases (exec_sets ..).symm.trans h
      exact opSets_keeps_wf hm ..
    · cases (exec_setd ..).symm.trans h
      exact withSlot_keeps_wf hm _ _ fun d => opInsert_keeps_wf hm _ _
    · cases (exec_setsd ..).symm.trans h
      exact withSlot_keeps_wf hm _ _ fun d => opSets_keeps_wf hm ..
  · obtain ⟨hbuf, -⟩ := exec_frame h
    rwa [hbuf hw]

end Canonical

/-! ### Every step keeps the invariant -/

/-- The reserved bits of `SR` stay zero: the highest error code is 6 (R29, R291). -/
theorem srAfter_reserved {sr : Word32} (r : Response) (h : ∀ b, 7 ≤ b → sr.getLsbD b = false)
    (b : Nat) (hb : 7 ≤ b) : (srAfter r sr).getLsbD b = false := by
  have hcode : r.err ≠ .ok → b ≠ r.err.code := fun he => by
    have := code_range r.err he
    omega
  have hb0 : b ≠ 0 := by omega
  simpa [srAfter_getLsbD, h b hb, hb0] using hcode

/-- `SR[6:1]` is zero after a command only if it was before and the command raised nothing (R30). -/
theorem noErrorBit_of_srAfter {r : Response} {sr : Word32} (h : NoErrorBit (srAfter r sr)) :
    r.err = .ok ∧ NoErrorBit sr := by
  constructor
  · by_contra he
    obtain ⟨h1, h6⟩ := code_range r.err he
    have := h r.err.code h1 h6
    simp [srAfter_getLsbD, he] at this
  · intro b h1 h6
    have := h b h1 h6
    simp only [srAfter_getLsbD, Bool.or_eq_false_iff] at this
    exact this.1.1

/-- The end of a command keeps the invariant: `ECW` is written only where an error bit is set (R30, R31). -/
theorem Invariant.complete (h : Invariant s) (r : Response) : Invariant (complete r s) where
  buf := h.buf
  slots := h.slots
  statusReserved := srAfter_reserved r h.statusReserved
  errorWord hzero := by
    obtain ⟨hok, hsr⟩ := noErrorBit_of_srAfter hzero
    simpa [ecwAfter, hok] using h.errorWord hsr

theorem Invariant.retire (h : Invariant s) (rest : List HostEvent) : Invariant (retire rest s) :=
  ⟨h.buf, h.slots, h.statusReserved, h.errorWord⟩

theorem invariant_reset : Invariant State.reset where
  buf := rfl
  slots k d hk hv := by
    obtain ⟨-, rfl⟩ : k < Config.nDesc ∧ Desc.reset = d := by
      simpa [State.reset, Vector.getElem?_replicate] using hk
    cases hv
  statusReserved b _ := by simp [State.reset]
  errorWord _ := rfl

/-- A constructed slot has a length of 1 to 64 after every instruction: `DESC` checks it (R28 a, R260). -/
theorem exec_keeps_slotLengths (hs : Invariant s) (h : exec i s = .next t) {k : Nat} {d : Desc}
    (hd : t.desc[k]? = some d) (hv : d.v = true) : 1 ≤ d.len.toNat ∧ d.len.toNat ≤ 64 := by
  rcases exec_desc_cases h with heq | ⟨j, le, len, start, -, hj, hlen, heq⟩
  · exact hs.slots k d (heq ▸ hd) hv
  · rw [heq] at hd
    by_cases hk : k = j.toNat
    · subst hk
      rw [setSlot_same s.desc hj] at hd
      cases hd
      exact hlen
    · rw [setSlot_other s.desc hk] at hd
      exact hs.slots k d hd hv

theorem exec_keeps_invariant (hs : Invariant s) (h : exec i s = .next t) : Invariant t := by
  have hbuf := exec_keeps_wf hs.buf h
  have hslots := fun k d => exec_keeps_slotLengths hs h (k := k) (d := d)
  by_cases hc : i = .clrsr
  · subst hc
    cases h
    exact ⟨hbuf, hslots, fun b _ => by simp, fun _ => by simp⟩
  · obtain ⟨r, u, t', ht', hend, -⟩ := exec_endsWith i s hc
    cases h.symm.trans ht'
    have hu : Invariant u :=
      { buf := by rwa [hend.eq] at hbuf
        slots := by rwa [hend.eq] at hslots
        statusReserved := hend.sr ▸ hs.statusReserved
        errorWord := by
          rw [hend.sr, hend.ecw]
          exact hs.errorWord }
    rw [hend.eq]
    exact hu.complete r

theorem step_keeps_invariant (hs : Invariant s) (h : step s = .next t) : Invariant t := by
  rcases step_cases h with ⟨-, rfl⟩ | ⟨rest, -, rfl⟩ | ⟨p, rest, -, rfl | ⟨i, u, hu, rfl⟩⟩
  · exact hs
  · exact invariant_reset.retire rest
  · exact (hs.complete _).retire rest
  · exact (exec_keeps_invariant hs hu).retire rest

/-! ### What a step does not depend on -/

/-- Once its command is retired, what an instruction did depends neither on what is presented after the
command nor on the response port before it. -/
theorem exec_ignores_later (i : Instr) (s : State) (p : Packet) :
    ∃ t, ∀ rest r, ∃ u, exec i { s with inputs := .command p :: rest, resp := r } = .next u ∧
      retire rest u = retire rest t := by
  by_cases h1 : i = .rdsr
  · subst h1
    exact ⟨succeed false (s.ecw ++ s.sr) s, fun rest r => ⟨_, rfl, by simp [succeed_eq, retire]⟩⟩
  by_cases h2 : i = .clrsr
  · subst h2
    exact ⟨succeed false 0 { s with sr := 0, ecw := 0 },
      fun rest r => ⟨_, rfl, by simp [succeed_eq, retire]⟩⟩
  obtain ⟨t, ht⟩ := exec_next i { s with inputs := [.command p] }
  refine ⟨t, fun rest r => ?_⟩
  obtain ⟨t', u, ht', hu, resp, buf, fh, desc, rfl, rfl⟩ :=
    exec_sameEnd (s := { s with inputs := [.command p] })
      (s' := { s with inputs := .command p :: rest, resp := r }) rfl rfl rfl i
      (fun _ => rfl) (fun _ => ⟨rfl, rfl⟩) h1 h2
  cases ht.symm.trans ht'
  exact ⟨_, hu, rfl⟩

/-- What a step that handles an event does depends neither on what is presented later nor on the response
port (R22, R34, R52). -/
theorem step_ignores_later (s : State) (e : HostEvent) :
    ∃ t, ∀ rest r, step { s with inputs := e :: rest, resp := r } = .next (retire rest t) := by
  cases e with
  | reset => exact ⟨State.reset, fun _ _ => step_reset rfl⟩
  | command p =>
    cases hd : decode p.cw with
    | error _ =>
      exact ⟨raise .illegal { s with inputs := [.command p] }, fun _ _ => step_illegal rfl hd⟩
    | ok i =>
      obtain ⟨t, ht⟩ := exec_ignores_later i s p
      refine ⟨t, fun rest r => ?_⟩
      obtain ⟨u, hu, hut⟩ := ht rest r
      rw [step_exec rfl hd hu, hut]

theorem run_succ {s u : core.State} (n : Nat) (h : core.step s = .next u) :
    core.run (n + 1) s = core.run n u := by
  rw [Host.Core.run, h]

/-- A run over a list of events ends in a state that does not depend on what is presented after them. -/
theorem run_ignores_later (events : List HostEvent) (s : State) :
    ∃ t, ∀ later, core.run events.length { s with inputs := events ++ later } =
      .next (retire later t) := by
  induction events generalizing s with
  | nil => exact ⟨s, fun _ => rfl⟩
  | cons e events ih =>
    obtain ⟨u, hu⟩ := step_ignores_later s e
    obtain ⟨t, ht⟩ := ih u
    refine ⟨t, fun later => ?_⟩
    have hstep : core.step { s with inputs := e :: events ++ later } =
        .next (retire (events ++ later) u) := hu (events ++ later) s.resp
    exact (run_succ _ hstep).trans (ht later)

/-! The header: a codec operation does the same under any header and leaves it in place. -/

section Header

variable (T : Ty) (l : Layout) (f o : Word32) (fh : Header)

theorem opGet_withHeader : opGet T l { s with fh := fh } = { opGet T l s with fh := fh } := by
  simp only [opGet]
  cases extract Config.bufSize s.buf l <;> rfl

theorem opGets_withHeader : opGets T l f o { s with fh := fh } = { opGets T l f o s with fh := fh } := by
  simp only [opGets]
  cases extract Config.bufSize s.buf l <;> rfl

theorem opInsert_withHeader (v : Word64) :
    opInsert v l { s with fh := fh } = { opInsert v l s with fh := fh } := by
  simp only [opInsert]
  cases insert Config.bufSize s.buf v l <;> rfl

theorem opSets_withHeader : opSets T l f o { s with fh := fh } = { opSets T l f o s with fh := fh } := by
  have hp : State.packet { s with fh := fh } = s.packet := rfl
  simp only [opSets, hp]
  cases layout Config.bufSize l with
  | error e => rfl
  | ok g =>
    cases scaleSet T (s.packet.a.setWidth 32) f o with
    | error e => rfl
    | ok v => exact opInsert_withHeader l fh v

theorem withSlot_withHeader (k : BitVec 4) (op : Desc → State → State)
    (hop : ∀ d, op d { s with fh := fh } = { op d s with fh := fh }) :
    withSlot k { s with fh := fh } op = { withSlot k s op with fh := fh } := by
  simp only [withSlot]
  cases slotAt s.desc k with
  | none => rfl
  | some d => exact hop d

end Header

/-- An instruction other than `FRD`, `FWR` and `FCLR` does the same under any header, and leaves that header
in place (R26). -/
theorem exec_withHeader (i : Instr) (s : State) (fh : Header) (hfrd : i ≠ .frd) (hfwr : i ≠ .fwr)
    (hfclr : i ≠ .fclr) {t : State} (h : exec i s = .next t) :
    exec i { s with fh := fh } = .next { t with fh := fh } := by
  induction i using Instr.family_cases with
  | get T le len start =>
    cases (exec_get ..).symm.trans h
    rw [exec_get, opGet_withHeader]
  | set T le len start =>
    cases (exec_set ..).symm.trans h
    rw [exec_set]
    exact congrArg _ (opInsert_withHeader ..)
  | gets T le len start =>
    cases (exec_gets ..).symm.trans h
    rw [exec_gets]
    exact congrArg _ (opGets_withHeader ..)
  | sets T le len start =>
    cases (exec_sets ..).symm.trans h
    rw [exec_sets]
    exact congrArg _ (opSets_withHeader ..)
  | getd T k =>
    cases (exec_getd ..).symm.trans h
    rw [exec_getd, withSlot_withHeader]
    exact fun d => opGet_withHeader ..
  | setd T k =>
    cases (exec_setd ..).symm.trans h
    rw [exec_setd, withSlot_withHeader]
    exact fun d => opInsert_withHeader ..
  | getsd T k =>
    cases (exec_getsd ..).symm.trans h
    rw [exec_getsd, withSlot_withHeader]
    exact fun d => opGets_withHeader ..
  | setsd T k =>
    cases (exec_setsd ..).symm.trans h
    rw [exec_setsd, withSlot_withHeader]
    exact fun d => opSets_withHeader ..
  | desc k le len start =>
    cases h
    simp only [exec, execDesc, Host.Outcome.next.injEq]
    split
    · rfl
    · split <;> rfl
  | rdb index =>
    cases h
    simp only [exec, execRdb, Host.Outcome.next.injEq]
    split <;> rfl
  | wrb index =>
    cases h
    simp only [exec, execWrb, Host.Outcome.next.injEq]
    split <;> rfl
  | nop | rdsr | clrsr =>
    cases h
    rfl
  | frd => exact absurd rfl hfrd
  | fwr => exact absurd rfl hfwr
  | fclr => exact absurd rfl hfclr

/-- An instruction outside R41's list does the same on any buffer, and leaves that buffer in place. -/
theorem exec_withBuf (i : Instr) (s : State) (m : Memory) (hi : ¬ TouchesBuf i) {t : State}
    (h : exec i s = .next t) : exec i { s with buf := m } = .next { t with buf := m } := by
  have notCodec : ∀ {T le len start}, ¬ (i = .get T le len start ∨ i = .set T le len start ∨
      i = .gets T le len start ∨ i = .sets T le len start) :=
    fun hc => hi (.inr (.inr (.inl ⟨_, _, _, _, hc⟩)))
  have notBound : ∀ {T k}, ¬ (i = .getd T k ∨ i = .setd T k ∨ i = .getsd T k ∨ i = .setsd T k) :=
    fun hc => hi (.inr (.inr (.inr ⟨_, _, hc⟩)))
  induction i using Instr.family_cases with
  | get T le len start => exact absurd (.inl rfl) notCodec
  | set T le len start => exact absurd (.inr (.inl rfl)) notCodec
  | gets T le len start => exact absurd (.inr (.inr (.inl rfl))) notCodec
  | sets T le len start => exact absurd (.inr (.inr (.inr rfl))) notCodec
  | getd T k => exact absurd (.inl rfl) notBound
  | setd T k => exact absurd (.inr (.inl rfl)) notBound
  | getsd T k => exact absurd (.inr (.inr (.inl rfl))) notBound
  | setsd T k => exact absurd (.inr (.inr (.inr rfl))) notBound
  | fclr => exact absurd (.inl rfl) hi
  | rdb index => exact absurd (.inr (.inl ⟨index, .inl rfl⟩)) hi
  | wrb index => exact absurd (.inr (.inl ⟨index, .inr rfl⟩)) hi
  | desc k le len start =>
    cases h
    simp only [exec, execDesc, Host.Outcome.next.injEq]
    split
    · rfl
    · split <;> rfl
  | nop | rdsr | clrsr | fwr | frd =>
    cases h
    rfl

/-! ### The header's packed form -/

/-- Packing what `FWR` unpacked gives back bits 39:0 (R24, R265, R266). -/
theorem pack_unpack_getLsbD (a : Word64) {b : Nat} (hb : b < 40) :
    (Header.unpack a).pack.getLsbD b = a.getLsbD b := by
  rw [Header.pack_getLsbD]
  rcases (by omega : b < 29 ∨ b = 29 ∨ b = 30 ∨ b = 31 ∨ b = 32 ∨ 33 ≤ b) with
    h | rfl | rfl | rfl | rfl | h
  · simp [h, Header.unpack]
  · rfl
  · rfl
  · rfl
  · rfl
  · have hadd : 33 + (b - 33) = b := by omega
    simp (disch := omega) [if_neg, hb, hadd, Header.unpack]

/-- `VALID` of the header `FWR` stores, on the bits of its operand (R25). -/
theorem unpack_valid_iff (a : Word64) :
    (Header.unpack a).valid = true ↔
      ¬ (a.getLsbD 30 = true ∧ a.getLsbD 32 = true) ∧
      ¬ (a.getLsbD 31 = true ∧ a.getLsbD 32 = false) ∧ a.toNat / 2 ^ 33 % 128 ≤ 64 := by
  have hdlen : (a.extractLsb' 33 7).toNat = a.toNat / 2 ^ 33 % 128 := by
    rw [BitVec.extractLsb'_toNat, Nat.shiftRight_eq_div_pow]
  simp only [Header.valid, Header.unpack, hdlen, Bool.and_eq_true, Bool.not_eq_true',
    ← Bool.not_eq_true, decide_eq_true_eq, and_assoc]

end Sys2Proof.Machine
end

section
/-! PROOFS. The statements about the state, settled. -/

namespace Sys2Proof.Machine

/-- Settles O12: field by field, from what an instruction can do to the buffer, the slots and the status
registers. -/
theorem stepKeepsInvariant : Obligations.StepKeepsInvariant :=
  fun _ _ hs h => step_keeps_invariant hs h

/-- Settles O11, by induction on the list of events. -/
theorem runIgnoresLaterCommands : Obligations.RunIgnoresLaterCommands :=
  fun s events => run_ignores_later events s

/-- Settles O14: every command but `CLRSR` ends with one response, from which `SR` and `ECW` follow. -/
theorem statusAfterCommand : Obligations.StatusAfterCommand := by
  intro s t ht
  constructor
  · intro rest h
    cases (step_reset h).symm.trans ht
    exact ⟨rfl, rfl⟩
  · intro p rest h
    constructor
    · intro hd
      cases (step_clrsr h hd).symm.trans ht
      exact ⟨rfl, by simp⟩
    · intro hd
      obtain ⟨r, u, v, rfl, hend, -⟩ := step_endsWith h hd ht
      have hp := packet_of_command s h
      simp only [retire_sr, retire_ecw, retire_resp, hend.sr_eq, hend.ecw_eq, hend.resp_eq, hp]
      refine ⟨fun b => ?_, fun herr hzero => ?_, fun hkeep => ?_⟩
      · simp [srAfter_getLsbD, or_assoc]
      · exact if_pos ⟨herr, (errorBits_eq_zero _).2 hzero⟩
      · exact if_neg fun ⟨herr, hzero⟩ => hkeep ⟨herr, (errorBits_eq_zero _).1 hzero⟩

/-- Settles O16: an error's response has `ovf` 0, and only an insertion computes it. -/
theorem overflowOnlyFromInsertions : Obligations.OverflowOnlyFromInsertions := by
  intro s t p rest h ht hovf
  by_cases hd : decode p.cw = .ok .clrsr
  · cases (step_clrsr h hd).symm.trans ht
    simp at hovf
  · obtain ⟨r, u, v, rfl, hend, hins⟩ := step_endsWith h hd ht
    rw [retire_resp, hend.resp_eq] at hovf ⊢
    refine ⟨?_, hins hovf⟩
    by_contra herr
    obtain ⟨-, hnone, -⟩ := hend.error herr
    simp [hovf] at hnone

/-- Settles O17. -/
theorem headerReachedOnlyByItsInstructions : Obligations.HeaderReachedOnlyByItsInstructions := by
  intro i s t fh h
  obtain ⟨-, hframe, -⟩ := exec_frame h
  refine ⟨hframe, fun hfrd hfwr hfclr => exec_withHeader i s fh hfrd hfwr hfclr h, ?_⟩
  rintro (rfl | rfl)
  · exact h
  · exact h

/-- Settles O18, from the two things an instruction can do to the slots. -/
theorem slotsWrittenOnlyByDesc : Obligations.SlotsWrittenOnlyByDesc := by
  intro i s t h
  obtain ⟨-, -, hframe⟩ := exec_frame h
  refine ⟨hframe, ?_, ?_⟩
  · rintro k le len start rfl hne
    rcases exec_desc_cases h with heq | ⟨k', le', len', start', hi, hk, -, heq⟩
    · exact absurd heq hne
    · cases hi
      rw [heq]
      exact ⟨setSlot_same s.desc hk _, fun j hj => setSlot_other s.desc hj _⟩
  · intro j d hd hv
    rcases exec_desc_cases h with heq | ⟨k, le, len, start, -, hk, -, heq⟩
    · exact ⟨d, heq ▸ hd, hv⟩
    · rw [heq]
      by_cases hj : j = k.toNat
      · subst hj
        exact ⟨_, setSlot_same s.desc hk _, rfl⟩
      · exact ⟨d, (setSlot_other s.desc hj _).trans hd, hv⟩

/-- Settles O19. -/
theorem bufferReachedOnlyByItsInstructions : Obligations.BufferReachedOnlyByItsInstructions := by
  intro i s t m h
  obtain ⟨hframe, -⟩ := exec_frame h
  exact ⟨hframe, fun hi => exec_withBuf i s m hi h⟩

/-- Settles O21: both steps are the step of the same event. -/
theorem responseNotCarried : Obligations.ResponseNotCarried := by
  intro s r hne
  obtain ⟨e, rest, h⟩ := List.exists_cons_of_ne_nil hne
  obtain ⟨t, ht⟩ := step_ignores_later s e
  have hr := ht rest r
  have hs := ht rest s.resp
  rw [← h] at hr hs
  exact hr.trans hs.symm

/-- Settles O41, on the packed header bit by bit. -/
theorem headerRoundTrip : Obligations.HeaderRoundTrip := by
  intro s t h
  cases h
  refine ⟨_, rfl, rfl, rfl, fun b hb => pack_unpack_getLsbD _ hb, ?_, fun b hb => ?_⟩
  · have hvalid := Header.pack_getLsbD (Header.unpack s.packet.a) 40
    exact (Eq.to_iff (congrArg (· = true) hvalid)).trans (unpack_valid_iff _)
  · refine (Header.pack_getLsbD (Header.unpack s.packet.a) b).trans ?_
    simp (disch := omega) only [if_neg]

/-- Settles O5. -/
theorem stepRunsDecodedInstruction : Obligations.StepRunsDecodedInstruction := by
  intro s p rest i h hd _
  obtain ⟨t, ht⟩ := exec_next i s
  rw [step_exec h hd ht, ht]
  rfl

/-- Settles O7. -/
theorem resetStateValues : Obligations.ResetStateValues :=
  ⟨fun _ => rfl, rfl, fun k hk => by simp only [State.reset, Vector.getElem?_replicate, hk, if_true]; rfl,
    rfl, rfl⟩

/-- Settles O13. -/
theorem resetHasInvariant : Obligations.ResetHasInvariant := invariant_reset

end Sys2Proof.Machine
end

section
/-! PROOFS. The frame buffer (20_memory.md): a buffer is known by its numbered bits, what the bit-field unit does
depends on the bytes of the field alone, and repeating a codec operation changes nothing more. -/

namespace Sys2Proof.Machine

/-! ### Bytes and numbered bits (R98, R99) -/

theorem numberedBit_of_byte (m : Memory) (le : Bool) (i : Nat) {j : Nat} (hj : j < 8) :
    numberedBit m le (8 * i + if le then j else 7 - j) = (Memory.read m i).getLsbD j := by
  unfold numberedBit
  cases le
  · have hbyte : (8 * i + (7 - j)) / 8 = i := by omega
    have hbit : 7 - (7 - j) % 8 = j := by omega
    simp [hbyte, hbit]
  · have hbyte : (8 * i + j) / 8 = i := by omega
    have hbit : (8 * i + j) % 8 = j := by omega
    simp [hbyte, hbit]

/-- A byte is determined by its eight numbered bits, in either numbering. -/
theorem read_eq_of_numberedBit_eq {m m' : Memory} {i : Nat} (le : Bool)
    (h : ∀ b, b / 8 = i → numberedBit m le b = numberedBit m' le b) :
    Memory.read m i = Memory.read m' i := by
  apply BitVec.eq_of_getLsbD_eq
  intro j hj
  rw [← numberedBit_of_byte m le i hj, ← numberedBit_of_byte m' le i hj]
  exact h _ (by split <;> omega)

theorem numberedBit_congr {m m' : Memory} {le : Bool} {b : Nat}
    (h : Memory.read m (b / 8) = Memory.read m' (b / 8)) : numberedBit m le b = numberedBit m' le b := by
  rw [numberedBit, numberedBit, h]

/-! ### The bit-field unit on two buffers (R105) -/

theorem FieldFits.mono {n n' : Nat} {l : Layout} (hf : FieldFits n l) (hn : n ≤ n') : FieldFits n' l := by
  obtain ⟨hpos, hlen, hspan, hbounds⟩ := hf
  exact ⟨hpos, hlen, hspan, by omega⟩

/-- A field that fits lies in the first `n` bytes. -/
theorem FieldFits.byte_lt {n b : Nat} {l : Layout} (hf : FieldFits n l) (hb : InField l b) : b / 8 < n := by
  obtain ⟨-, -, -, hbounds⟩ := hf
  obtain ⟨-, hhigh⟩ := hb
  omega

theorem HoldsField.congr {m m' : Memory} {l : Layout} {raw : Word64} (h : HoldsField m l raw)
    (hm : ∀ b, InField l b → numberedBit m l.le b = numberedBit m' l.le b) : HoldsField m' l raw := by
  obtain ⟨hbits, hzero⟩ := h
  exact ⟨fun b hb => (hbits b hb).trans (hm b hb), hzero⟩

/-- Replacing the same field by the same value gives equal bits where the bits were equal before. -/
theorem FieldReplaced.congr {m m₁ m' m₁' : Memory} {l : Layout} {v : Word64} {b : Nat}
    (h : FieldReplaced m m₁ l v) (h' : FieldReplaced m' m₁' l v)
    (hm : ¬ InField l b → numberedBit m l.le b = numberedBit m' l.le b) :
    numberedBit m₁ l.le b = numberedBit m₁' l.le b := by
  rw [h b, h' b]
  split
  · rfl
  · exact hm ‹_›

section Extension

variable {n n' : Nat} {m m' : Memory} {l : Layout} (hn : n ≤ n')
  (hagree : ∀ i < n, Memory.read m' i = Memory.read m i) (hf : FieldFits n l)
include hn hagree hf

/-- An extraction reads no byte beyond the extent its field fits in (R43, R105). -/
theorem extract_extension : extract n' m' l = extract n m l := by
  obtain ⟨raw, hok, hraw⟩ := extract_ok m hf
  obtain ⟨raw', hok', hraw'⟩ := extract_ok m' (hf.mono hn)
  have hsame : HoldsField m l raw' :=
    hraw'.congr fun b hb => numberedBit_congr (hagree _ (hf.byte_lt hb))
  rw [hok, hok', holdsField_unique hsame hraw]

/-- An insertion drops the same bits and writes the same bytes on an extension, and none beyond the extent
its field fits in (R48, R105, R324). -/
theorem insert_extension (hm : Memory.wfFrom n 0 m = true) (hm' : Memory.wfFrom n' 0 m' = true)
    (v : Word64) :
    ∃ b b' ovf, insert n m v l = .ok (b, ovf) ∧ insert n' m' v l = .ok (b', ovf) ∧
      (∀ i < n, Memory.read b' i = Memory.read b i) ∧
      ∀ i, n ≤ i → Memory.read b' i = Memory.read m' i := by
  obtain ⟨b, ovf, hok, -, hrep, hovf, -⟩ := insert_ok hm v hf
  obtain ⟨b', ovf', hok', -, hrep', hovf', hframe'⟩ := insert_ok hm' v (hf.mono hn)
  obtain rfl : ovf' = ovf := Bool.eq_iff_iff.2 (hovf'.trans hovf.symm)
  refine ⟨b, b', ovf', hok, hok', fun i hi => ?_, fun i hi => ?_⟩
  · exact read_eq_of_numberedBit_eq l.le fun k hk =>
      hrep'.congr hrep fun _ => numberedBit_congr (hagree _ (hk ▸ hi))
  · obtain ⟨hpos, -, -, hbounds⟩ := hf
    exact hframe' i (.inr (by omega))

end Extension

/-! ### An insertion again (R50) -/

/-- Inserting the same value once more gives the buffer that already holds it, and the same `ovf`. -/
theorem insert_again {n : Nat} {m m' : Memory} {v : Word64} {l : Layout} {ovf : Bool}
    (hm : Memory.wfFrom n 0 m = true) (h : insert n m v l = .ok (m', ovf)) :
    insert n m' v l = .ok (m', ovf) := by
  rcases insert_spec hm v l with ⟨_, _, hok, hf, hm', hrep, hovf⟩ | ⟨e, herr, -⟩
  · cases h.symm.trans hok
    obtain ⟨m'', ovf'', hok'', hm'', hrep'', hovf'', -⟩ := insert_ok hm' v hf
    have hbuf : m'' = m' := memory_ext hm'' hm' fun i =>
      read_eq_of_numberedBit_eq l.le fun b _ => hrep''.congr hrep fun hb => by rw [hrep b, if_neg hb]
    have hflag : ovf'' = ovf := Bool.eq_iff_iff.2 (hovf''.trans hovf.symm)
    rw [hok'', hbuf, hflag]
  · cases h.symm.trans herr

/-! ### Operations that repeat (R50) -/

/-- Doing `op` again after `op` gives the same response and the same buffer; the slots and the packet, from
which the operation takes its operands, are left in place. -/
structure Repeats (op : State → State) (s : State) : Prop where
  resp : (op (op s)).resp = (op s).resp
  buf : (op (op s)).buf = (op s).buf
  desc : (op s).desc = s.desc
  packet : (op s).packet = s.packet

variable {s : State} {i : Instr}

theorem raise_repeats (e : Err) : Repeats (raise e) s := ⟨rfl, rfl, rfl, rfl⟩

/-- An operation need only repeat on the operation it is on the states with the slots and the packet of `s`. -/
theorem Repeats.of_eq {op op' : State → State} (h : Repeats op' s)
    (heq : ∀ u, u.desc = s.desc → u.packet = s.packet → op u = op' u) : Repeats op s := by
  have h₁ : op s = op' s := heq s rfl rfl
  have h₂ : op (op' s) = op' (op' s) := heq _ h.desc h.packet
  constructor <;> simp only [h₁, h₂, h.resp, h.buf, h.desc, h.packet]

/-- A descriptor-bound operation: the same slot is found again. -/
theorem withSlot_repeats (k : BitVec 4) {op : Desc → State → State} (h : ∀ d, Repeats (op d) s) :
    Repeats (fun u => withSlot k u op) s := by
  cases hk : slotAt s.desc k with
  | none => exact (raise_repeats .nodesc).of_eq fun u hd _ => by simp only [withSlot, hd, hk]
  | some d => exact (h d).of_eq fun u hd _ => by simp only [withSlot, hd, hk]

theorem opInsert_repeats (hm : Memory.wf s.buf = true) (v : Word64) (l : Layout) :
    Repeats (opInsert v l) s := by
  cases h : insert Config.bufSize s.buf v l with
  | error e =>
    have hop : opInsert v l s = raise e s := by rw [opInsert, h]
    have hop' : opInsert v l (raise e s) = raise e (raise e s) := by rw [opInsert, raise_buf, h]
    constructor <;> simp only [hop, hop'] <;> rfl
  | ok x =>
    obtain ⟨m', ovf⟩ := x
    have hop : opInsert v l s = succeed ovf 0 { s with buf := m' } := by rw [opInsert, h]
    have hop' : opInsert v l (succeed ovf 0 { s with buf := m' }) =
        succeed ovf 0 { succeed ovf 0 { s with buf := m' } with buf := m' } := by
      rw [opInsert, succeed_buf, insert_again hm h]
    constructor <;> simp only [hop, hop'] <;> rfl

theorem opSet_repeats (hm : Memory.wf s.buf = true) (T : Ty) (l : Layout) : Repeats (opSet T l) s :=
  (opInsert_repeats hm (T.pattern s.packet.a) l).of_eq fun u _ hp => by rw [opSet, hp]

theorem opSets_repeats (hm : Memory.wf s.buf = true) (T : Ty) (l : Layout) (f o : Word32) :
    Repeats (opSets T l f o) s := by
  cases hl : layout Config.bufSize l with
  | error e => exact (raise_repeats e).of_eq fun u _ _ => by rw [opSets, hl]
  | ok g =>
    cases hv : scaleSet T (s.packet.a.setWidth 32) f o with
    | error e => exact (raise_repeats e).of_eq fun u _ hp => by simp only [opSets, hl, hp, hv]
    | ok v => exact (opInsert_repeats hm v l).of_eq fun u _ hp => by simp only [opSets, hl, hp, hv]

/-- Each of the four insertion families is an operation that repeats on a canonical buffer. -/
theorem exec_insertion_repeats (hm : Memory.wf s.buf = true) (hi : IsInsertion i) :
    ∃ op, Repeats op s ∧ ∀ u, exec i u = .next (op u) := by
  rcases hi with ⟨T, le, len, start, rfl | rfl⟩ | ⟨T, k, rfl | rfl⟩
  · exact ⟨_, opSet_repeats hm T ⟨start, len, le⟩, exec_set T le len start⟩
  · exact ⟨fun u => opSets T ⟨start, len, le⟩ u.packet.f u.packet.o u,
      (opSets_repeats hm T ⟨start, len, le⟩ s.packet.f s.packet.o).of_eq fun u _ hp => by rw [hp],
      exec_sets T le len start⟩
  · exact ⟨_, withSlot_repeats k fun d => opSet_repeats hm T d.layout, exec_setd T k⟩
  · exact ⟨_, withSlot_repeats k fun d => opSets_repeats hm T d.layout d.f d.o, exec_setsd T k⟩

/-! ### Extractions write nothing but their response (R41, R50) -/

/-- The four extraction families. -/
def IsExtraction (i : Instr) : Prop :=
  (∃ T le len start, i = .get T le len start ∨ i = .gets T le len start) ∨
    ∃ T k, i = .getd T k ∨ i = .getsd T k

theorem opGet_eq_complete (T : Ty) (l : Layout) (s : State) :
    ∃ r, ∀ u, u.buf = s.buf → opGet T l u = complete r u := by
  cases h : extract Config.bufSize s.buf l with
  | error e => exact ⟨⟨e, false, 0⟩, fun u hb => by rw [opGet, hb, h]; rfl⟩
  | ok raw => exact ⟨⟨.ok, false, T.pattern raw⟩, fun u hb => by rw [opGet, hb, h]; rfl⟩

theorem opGets_eq_complete (T : Ty) (l : Layout) (f o : Word32) (s : State) :
    ∃ r, ∀ u, u.buf = s.buf → opGets T l f o u = complete r u := by
  cases h : extract Config.bufSize s.buf l with
  | error e => exact ⟨⟨e, false, 0⟩, fun u hb => by rw [opGets, hb, h]; rfl⟩
  | ok raw => exact ⟨⟨.ok, false, scaleGet T raw f o⟩, fun u hb => by rw [opGets, hb, h]; rfl⟩

theorem withSlot_eq_complete (k : BitVec 4) {op : Desc → State → State} {s : State}
    (hop : ∀ d, ∃ r, ∀ u, u.buf = s.buf → op d u = complete r u) :
    ∃ r, ∀ u, u.buf = s.buf → u.desc = s.desc → withSlot k u op = complete r u := by
  cases hk : slotAt s.desc k with
  | none => exact ⟨⟨.nodesc, false, 0⟩, fun u _ hd => by rw [withSlot, hd, hk]; rfl⟩
  | some d =>
    obtain ⟨r, hr⟩ := hop d
    exact ⟨r, fun u hb hd => by rw [withSlot, hd, hk]; exact hr u hb⟩

/-- An extraction ends with one response, the same on every state with the same buffer, slots and packet. -/
theorem exec_extraction_eq_complete (hi : IsExtraction i) (s : State) :
    ∃ r, ∀ u, u.buf = s.buf → u.desc = s.desc → u.packet = s.packet →
      exec i u = .next (complete r u) := by
  rcases hi with ⟨T, le, len, start, rfl | rfl⟩ | ⟨T, k, rfl | rfl⟩
  · obtain ⟨r, hr⟩ := opGet_eq_complete T ⟨start, len, le⟩ s
    exact ⟨r, fun u hb _ _ => by rw [exec_get, hr u hb]⟩
  · obtain ⟨r, hr⟩ := opGets_eq_complete T ⟨start, len, le⟩ s.packet.f s.packet.o s
    exact ⟨r, fun u hb _ hp => by rw [exec_gets, hp, hr u hb]⟩
  · obtain ⟨r, hr⟩ := withSlot_eq_complete k fun d => opGet_eq_complete T d.layout s
    exact ⟨r, fun u hb hd _ => by rw [exec_getd, hr u hb hd]⟩
  · obtain ⟨r, hr⟩ := withSlot_eq_complete k fun d => opGets_eq_complete T d.layout d.f d.o s
    exact ⟨r, fun u hb hd _ => by rw [exec_getsd, hr u hb hd]⟩

end Sys2Proof.Machine
end

section
/-! PROOFS. The statements about the frame buffer, settled. -/

namespace Sys2Proof.Machine

/-- Settles O23: an insertion finds its own field in place, and an extraction its buffer, so each does again
what it did. -/
theorem repeatedCodecCommandAgrees : Obligations.RepeatedCodecCommandAgrees := by
  intro i s t hm hi h
  rcases hi with hins | hext
  · obtain ⟨op, hrep, hop⟩ := exec_insertion_repeats hm hins
    cases (hop s).symm.trans h
    exact ⟨_, hop _, hrep.resp, hrep.buf, fun hno => absurd hins hno⟩
  · obtain ⟨r, hr⟩ := exec_extraction_eq_complete hext s
    cases (hr s rfl rfl rfl).symm.trans h
    exact ⟨_, hr (complete r s) rfl rfl rfl, rfl, rfl, fun _ => rfl⟩

/-- Settles O46. -/
theorem clampNeverObserved : Obligations.ClampNeverObserved :=
  fun _ _ _ _ v _ hm hm' hn hagree hf =>
    ⟨extract_extension hn hagree hf, insert_extension hn hagree hf hm hm' v⟩

end Sys2Proof.Machine
end

section
/-! PROOFS. The command word (30_encoding.md): the instructions by the layout of their word, what R74 says in the
word's fields, that a word either encodes an instruction or is illegal on every machine, and that the packet's operands
reach only an instruction that uses them. -/

namespace Sys2Proof

open Machine

/-! ### The instructions by the layout of their word (R63, R65) -/

/-- The families of `OP` 1 to 4, whose word holds the layout operands: the operation code, and whether the family
needs the scale unit. -/
inductive PositionalFamily : BitVec 4 → Bool → (Ty → Bool → BitVec 7 → BitVec 16 → Instr) → Prop
  | get : PositionalFamily 1#4 false .get
  | set : PositionalFamily 2#4 false .set
  | gets : PositionalFamily 3#4 true .gets
  | sets : PositionalFamily 4#4 true .sets

/-- The families of `OP` 5 to 8, whose word names a descriptor slot. -/
inductive BoundFamily : BitVec 4 → Bool → (Ty → BitVec 4 → Instr) → Prop
  | getd : BoundFamily 5#4 false .getd
  | setd : BoundFamily 6#4 false .setd
  | getsd : BoundFamily 7#4 true .getsd
  | setsd : BoundFamily 8#4 true .setsd

/-- The `SYS` functions: the function code, and `START`, which is zero but for a byte index. -/
inductive SysFunction : BitVec 4 → BitVec 16 → Instr → Prop
  | nop : SysFunction 0#4 0#16 .nop
  | rdsr : SysFunction 1#4 0#16 .rdsr
  | clrsr : SysFunction 2#4 0#16 .clrsr
  | fclr : SysFunction 3#4 0#16 .fclr
  | fwr : SysFunction 4#4 0#16 .fwr
  | frd : SysFunction 5#4 0#16 .frd
  | rdb (index : BitVec 16) : SysFunction 6#4 index (.rdb index)
  | wrb (index : BitVec 16) : SysFunction 7#4 index (.wrb index)

/-- To show a property of every instruction, show it for each layout of the command word. -/
theorem Instr.layout_cases {P : Instr → Prop}
    (positional : ∀ {op scaled family}, PositionalFamily op scaled family →
      ∀ T le len start, P (family T le len start))
    (bound : ∀ {op scaled family}, BoundFamily op scaled family → ∀ T k, P (family T k))
    (desc : ∀ k le len start, P (.desc k le len start))
    (sys : ∀ {ty start i}, SysFunction ty start i → P i) (i : Instr) : P i :=
  Instr.family_cases (positional .get) (positional .set) (positional .gets) (positional .sets)
    (bound .getd) (bound .setd) (bound .getsd) (bound .setsd) desc
    (sys .nop) (sys .rdsr) (sys .clrsr) (sys .fclr) (sys .fwr) (sys .frd)
    (fun index => sys (.rdb index)) (fun index => sys (.wrb index)) i

/-- Each operation code is that of one layout, or reserved (R63). -/
theorem opcode_cases (op : BitVec 4) :
    (∃ scaled family, PositionalFamily op scaled family) ∨ (∃ scaled family, BoundFamily op scaled family) ∨
      op = 9#4 ∨ op = 10#4 ∨ op.toNat = 0 ∨ 11 ≤ op.toNat := by
  obtain ⟨n, hn, rfl⟩ : ∃ n, n < 16 ∧ op = BitVec.ofNat 4 n := ⟨op.toNat, op.isLt, by simp⟩
  match n with
  | 0 => exact .inr (.inr (.inr (.inr (.inl rfl))))
  | 1 => exact .inl ⟨_, _, .get⟩
  | 2 => exact .inl ⟨_, _, .set⟩
  | 3 => exact .inl ⟨_, _, .gets⟩
  | 4 => exact .inl ⟨_, _, .sets⟩
  | 5 => exact .inr (.inl ⟨_, _, .getd⟩)
  | 6 => exact .inr (.inl ⟨_, _, .setd⟩)
  | 7 => exact .inr (.inl ⟨_, _, .getsd⟩)
  | 8 => exact .inr (.inl ⟨_, _, .setsd⟩)
  | 9 => exact .inr (.inr (.inl rfl))
  | 10 => exact .inr (.inr (.inr (.inl rfl)))
  | n + 11 =>
    refine .inr (.inr (.inr (.inr (.inr ?_))))
    rw [BitVec.toNat_ofNat, Nat.mod_eq_of_lt hn]
    omega

/-- Every function code up to 7 is a function's, with any byte index for `RDB` and `WRB` (R65, R71). -/
theorem exists_sysFunction {ty : BitVec 4} {start : BitVec 16} (hty : ty.toNat < 8)
    (hstart : ty.toNat ≤ 5 → start = 0#16) : ∃ i, SysFunction ty start i := by
  obtain ⟨n, hn, rfl⟩ : ∃ n, n < 8 ∧ ty = BitVec.ofNat 4 n := ⟨ty.toNat, hty, by simp⟩
  match n with
  | 0 => obtain rfl := hstart (by decide); exact ⟨_, .nop⟩
  | 1 => obtain rfl := hstart (by decide); exact ⟨_, .rdsr⟩
  | 2 => obtain rfl := hstart (by decide); exact ⟨_, .clrsr⟩
  | 3 => obtain rfl := hstart (by decide); exact ⟨_, .fclr⟩
  | 4 => obtain rfl := hstart (by decide); exact ⟨_, .fwr⟩
  | 5 => obtain rfl := hstart (by decide); exact ⟨_, .frd⟩
  | 6 => exact ⟨_, .rdb start⟩
  | 7 => exact ⟨_, .wrb start⟩

/-! ### The must-be-zero bits of a `SYS` word -/

/-- Bits 23:16 are zero only if `LE` and `LEN` are. -/
theorem le_len_of_zero {cw : Word32} (h : cw.extractLsb' 16 8 = 0#8) :
    fieldLeBit cw = false ∧ fieldLen cw = 0#7 := by
  have hle : fieldLeBit cw = (cw.extractLsb' 16 8).getLsbD 7 := by simp [fieldLeBit]
  have hlen : fieldLen cw = (cw.extractLsb' 16 8).extractLsb' 0 7 := by
    apply BitVec.eq_of_getLsbD_eq
    intro b hb
    simp [fieldLen, hb, Nat.lt_trans hb]
  rw [hle, hlen, h]
  decide

section Layouts

variable {op ty : BitVec 4} {scaled : Bool} {start : BitVec 16} {i : Instr}
  {positional : Ty → Bool → BitVec 7 → BitVec 16 → Instr} {bound : Ty → BitVec 4 → Instr}

/-! ### The encoder on each layout -/

theorem PositionalFamily.encode_eq (h : PositionalFamily op scaled positional) (T le len start) :
    encode (positional T le len start) = encodeFields op T.code le len start := by
  cases h with
  | get => exact encode_get ..
  | set => exact encode_set ..
  | gets => exact encode_gets ..
  | sets => exact encode_sets ..

theorem BoundFamily.encode_eq (h : BoundFamily op scaled bound) (T k) :
    encode (bound T k) = boundWord op T.code 0#20 k := by
  cases h with
  | getd => exact encode_getd ..
  | setd => exact encode_setd ..
  | getsd => exact encode_getsd ..
  | setsd => exact encode_setsd ..

theorem SysFunction.encode_eq (h : SysFunction ty start i) :
    encode i = encodeFields 10#4 ty false 0#7 start := by
  cases h <;> rfl

/-! ### Which instructions need the scale unit (R184) -/

theorem PositionalFamily.isScaled_eq (h : PositionalFamily op scaled positional) (T le len start) :
    (positional T le len start).isScaled = scaled := by
  cases h <;> cases T <;> rfl

theorem BoundFamily.isScaled_eq (h : BoundFamily op scaled bound) (T k) :
    (bound T k).isScaled = scaled := by
  cases h <;> cases T <;> rfl

theorem SysFunction.isScaled_eq (h : SysFunction ty start i) : i.isScaled = false := by
  cases h <;> rfl

theorem wellFormedWith_eq_false {hs : Bool} :
    i.wellFormedWith hs = false ↔ i.isScaled = true ∧ hs = false := by
  simp [Instr.wellFormedWith, and_comm]

/-! ### The decoder on each layout (R77) -/

theorem PositionalFamily.decodeWith_word (h : PositionalFamily op scaled positional) (hs T le len start) :
    decodeWith hs (encodeFields op T.code le len start) =
      if (positional T le len start).wellFormedWith hs then .ok (positional T le len start)
      else .error .noScaleUnit := by
  rw [Instr.wellFormedWith, h.isScaled_eq]
  cases h with
  | get => simp [decodeWith_get]
  | set => simp [decodeWith_set]
  | gets => simp [decodeWith_gets]
  | sets => simp [decodeWith_sets]

theorem BoundFamily.decodeWith_word (h : BoundFamily op scaled bound) (hs T z k) :
    decodeWith hs (boundWord op T.code z k) =
      if (bound T k).wellFormedWith hs then
        if z = 0#20 then .ok (bound T k) else .error .boundFieldNotZero
      else .error .noScaleUnit := by
  rw [Instr.wellFormedWith, h.isScaled_eq]
  cases h with
  | getd => simp [decodeWith_getd]
  | setd => simp [decodeWith_setd]
  | getsd => simp [decodeWith_getsd]
  | setsd => simp [decodeWith_setsd]

theorem decodeWith_sys {cw : Word32} (hs : Bool) (hop : fieldOp cw = 10#4) :
    decodeWith hs cw = decodeSys cw := by
  simp [decodeWith, hop]

theorem SysFunction.decodeWith_word (h : SysFunction ty start i) (hs) :
    decodeWith hs (encodeFields 10#4 ty false 0#7 start) = .ok i := by
  rw [decodeWith_sys hs (fieldOp_encodeFields ..)]
  cases h <;> simp [decodeSys, leLen_encodeFields]

end Layouts

/-! ### Decoding an encoded instruction -/

/-- The word of an instruction decodes to it on a machine that has it, and is refused for the absent scale unit
on any other. -/
theorem decodeWith_encode (hs : Bool) (i : Instr) :
    decodeWith hs (encode i) = if i.wellFormedWith hs then .ok i else .error .noScaleUnit := by
  induction i using Instr.layout_cases with
  | positional h T le len start => rw [h.encode_eq, h.decodeWith_word]
  | bound h T k => rw [h.encode_eq, h.decodeWith_word, if_pos rfl]
  | desc k le len start => simp [encode, decodeWith_desc, Instr.wellFormedWith, Instr.isScaled]
  | sys h => simp [h.encode_eq, h.decodeWith_word, Instr.wellFormedWith, h.isScaled_eq]

theorem decode_of_encode {cw : Word32} {i : Instr} (h : encode i = cw) : decode cw = .ok i := by
  rw [← h, decode, decodeWith_encode]
  rfl

/-! ### The conditions of R74 -/

/-- The seven conditions of R74 in the decoder's fields. -/
theorem illegalWord_iff (hs : Bool) (cw : Word32) : IllegalWord hs cw ↔
    ((fieldOp cw).toNat = 0 ∨ 11 ≤ (fieldOp cw).toNat)
    ∨ (1 ≤ (fieldOp cw).toNat ∧ (fieldOp cw).toNat ≤ 8 ∧ Ty.ofCode (fieldTy cw) = none)
    ∨ (((fieldOp cw).toNat = 3 ∨ (fieldOp cw).toNat = 4 ∨ (fieldOp cw).toNat = 7 ∨ (fieldOp cw).toNat = 8) ∧
      hs = false)
    ∨ (5 ≤ (fieldOp cw).toNat ∧ (fieldOp cw).toNat ≤ 8 ∧ cw.extractLsb' 4 20 ≠ 0#20)
    ∨ ((fieldOp cw).toNat = 10 ∧ 8 ≤ (fieldTy cw).toNat)
    ∨ ((fieldOp cw).toNat = 10 ∧ cw.extractLsb' 16 8 ≠ 0#8)
    ∨ ((fieldOp cw).toNat = 10 ∧ (fieldTy cw).toNat ≤ 5 ∧ fieldStart cw ≠ 0#16) := by
  simp only [IllegalWord, ofCode_eq_none, ne_eq, zeros_iff, leLen_iff, start_iff, fieldOp_toNat, fieldTy_toNat,
    Classical.not_and_iff_not_or_not]

/-- The word of an instruction meets condition 3 of R74 where the machine lacks the unit, and no other. -/
theorem illegalWord_encode (hs : Bool) (i : Instr) :
    IllegalWord hs (encode i) ↔ i.wellFormedWith hs = false := by
  rw [illegalWord_iff, wellFormedWith_eq_false]
  induction i using Instr.layout_cases with
  | positional h T le len start =>
    rw [h.isScaled_eq, h.encode_eq, fieldOp_encodeFields, fieldTy_encodeFields, ofCode_code]
    cases h <;> simp
  | bound h T k =>
    rw [h.isScaled_eq, h.encode_eq, fieldOp_boundWord, fieldTy_boundWord, zeros_boundWord, ofCode_code]
    cases h <;> simp
  | desc k le len start => simp [encode, Instr.isScaled]
  | sys h =>
    rw [h.isScaled_eq, h.encode_eq, fieldOp_encodeFields, fieldTy_encodeFields, fieldStart_encodeFields,
      leLen_encodeFields]
    cases h <;> simp

/-! ### Words the decoder refuses on every machine -/

section Refusals

variable {cw : Word32} (hs : Bool)

theorem decodeWith_reservedOp (hop : (fieldOp cw).toNat = 0 ∨ 11 ≤ (fieldOp cw).toNat) :
    decodeWith hs cw = .error .reservedOp := by
  unfold decodeWith
  split
  case h_11 => rfl
  all_goals omega

theorem decodeWith_reservedType (hpos : 1 ≤ (fieldOp cw).toNat) (hle : (fieldOp cw).toNat ≤ 8)
    (hT : Ty.ofCode (fieldTy cw) = none) : decodeWith hs cw = .error .reservedType := by
  interval_cases hop : (fieldOp cw).toNat <;> simp only [decodeWith, hop, decodePositional, decodeBound, hT]

theorem decodeSys_refuses
    (h : 8 ≤ (fieldTy cw).toNat ∨ cw.extractLsb' 16 8 ≠ 0#8 ∨
      (fieldTy cw).toNat ≤ 5 ∧ fieldStart cw ≠ 0#16) : ∃ r, decodeSys cw = .error r := by
  unfold decodeSys
  split_ifs with hty hlen hstart
  · exact ⟨_, rfl⟩
  · exact ⟨_, rfl⟩
  · exact ⟨_, rfl⟩
  · rcases h with h | h | h
    · exact absurd h hty
    · exact absurd h hlen
    · exact absurd h hstart

end Refusals

/-- A word that meets a condition of R74 and is refused, whether or not the machine has the scale unit. -/
def RefusedEverywhere (cw : Word32) : Prop :=
  ∀ hs, IllegalWord hs cw ∧ ∃ r, decodeWith hs cw = .error r

section Words

variable {cw : Word32} {scaled : Bool}

theorem refused_of_reservedType (hpos : 1 ≤ (fieldOp cw).toNat) (hle : (fieldOp cw).toNat ≤ 8)
    (hT : Ty.ofCode (fieldTy cw) = none) : RefusedEverywhere cw := fun hs =>
  ⟨(illegalWord_iff hs cw).2 (.inr (.inl ⟨hpos, hle, hT⟩)), _, decodeWith_reservedType hs hpos hle hT⟩

/-- A word of `OP` 1 to 4 with a type's code is that of an instruction: no bit of it is ignored. -/
theorem positional_word_cases {family} (h : PositionalFamily (fieldOp cw) scaled family) :
    (∃ i, encode i = cw) ∨ RefusedEverywhere cw := by
  cases hT : Ty.ofCode (fieldTy cw) with
  | none =>
    obtain ⟨hpos, hle⟩ : 1 ≤ (fieldOp cw).toNat ∧ (fieldOp cw).toNat ≤ 8 := by
      generalize fieldOp cw = op at h
      cases h <;> decide
    exact .inr (refused_of_reservedType hpos hle hT)
  | some T =>
    refine .inl ⟨family T (fieldLeBit cw) (fieldLen cw) (fieldStart cw), ?_⟩
    rw [h.encode_eq, ← ofCode_eq_some hT, encodeFields_fields]

/-- A word of `OP` 5 to 8 is that of an instruction when it has a type's code and its must-be-zero bits are
zero (R69). -/
theorem bound_word_cases {family} (h : BoundFamily (fieldOp cw) scaled family) :
    (∃ i, encode i = cw) ∨ RefusedEverywhere cw := by
  obtain ⟨hpos, hle⟩ : 5 ≤ (fieldOp cw).toNat ∧ (fieldOp cw).toNat ≤ 8 := by
    generalize fieldOp cw = op at h
    cases h <;> decide
  cases hT : Ty.ofCode (fieldTy cw) with
  | none => exact .inr (refused_of_reservedType (by omega) hle hT)
  | some T =>
    have hword := boundWord_fields cw
    rw [ofCode_eq_some hT] at hword
    by_cases hz : cw.extractLsb' 4 20 = 0#20
    · refine .inl ⟨family T (fieldSlot cw), ?_⟩
      rw [h.encode_eq, ← hz, hword]
    · refine .inr fun hs => ⟨(illegalWord_iff hs cw).2 (.inr (.inr (.inr (.inl ⟨hpos, hle, hz⟩)))), ?_⟩
      have hdec := h.decodeWith_word hs T (cw.extractLsb' 4 20) (fieldSlot cw)
      rw [hword, if_neg hz] at hdec
      split at hdec <;> exact ⟨_, hdec⟩

/-- A `SYS` word is that of a function when it has a function's code and its must-be-zero bits are zero (R65,
R71). -/
theorem sys_word_cases (hop : fieldOp cw = 10#4) : (∃ i, encode i = cw) ∨ RefusedEverywhere cw := by
  by_cases h : 8 ≤ (fieldTy cw).toNat ∨ cw.extractLsb' 16 8 ≠ 0#8 ∨
      (fieldTy cw).toNat ≤ 5 ∧ fieldStart cw ≠ 0#16
  · refine .inr fun hs => ⟨(illegalWord_iff hs cw).2 ?_, decodeWith_sys hs hop ▸ decodeSys_refuses h⟩
    have hop : (fieldOp cw).toNat = 10 := by rw [hop]; rfl
    tauto
  · push Not at h
    obtain ⟨hty, hlelen, hstart⟩ := h
    obtain ⟨i, hi⟩ := exists_sysFunction hty hstart
    refine .inl ⟨i, ?_⟩
    obtain ⟨hle, hlen⟩ := le_len_of_zero hlelen
    rw [hi.encode_eq, ← hop, ← hle, ← hlen, encodeFields_fields]

/-- Every word is the word of an instruction, or illegal and refused on every machine. -/
theorem word_cases (cw : Word32) : (∃ i, encode i = cw) ∨ RefusedEverywhere cw := by
  rcases opcode_cases (fieldOp cw) with ⟨_, _, h⟩ | ⟨_, _, h⟩ | h | h | h
  · exact positional_word_cases h
  · exact bound_word_cases h
  · refine .inl ⟨.desc (fieldTy cw) (fieldLeBit cw) (fieldLen cw) (fieldStart cw), ?_⟩
    rw [encode, ← h, encodeFields_fields]
  · exact sys_word_cases h
  · exact .inr fun hs => ⟨(illegalWord_iff hs cw).2 (.inl h), _, decodeWith_reservedOp hs h⟩

end Words

/-- The conditions of R74 are those of the decoder's refusals. -/
theorem illegalWord_iff_refused (hs : Bool) (cw : Word32) :
    IllegalWord hs cw ↔ ∃ r, decodeWith hs cw = .error r := by
  rcases word_cases cw with ⟨i, rfl⟩ | hrefused
  · rw [illegalWord_encode, decodeWith_encode]
    cases i.wellFormedWith hs <;> simp
  · obtain ⟨hillegal, hr⟩ := hrefused hs
    exact iff_of_true hillegal hr

/-! ### The operands an instruction ignores (R60) -/

/-- With another packet of the same word, the same in the operands it uses, an instruction does the same once
its command is retired (R60). -/
theorem exec_ignores_unused {s : State} {p q : Packet} {rest : List HostEvent} {i : Instr}
    (hp : s.packet = p) (hcw : q.cw = p.cw) (hvalue : UsesValue i → q.a = p.a)
    (hscale : UsesScale i → q.f = p.f ∧ q.o = p.o) :
    ∃ t t', exec i s = .next t ∧ exec i { s with inputs := .command q :: rest } = .next t' ∧
      retire rest t' = retire rest t := by
  subst hp
  by_cases hrdsr : i = .rdsr
  · subst hrdsr
    exact ⟨_, _, rfl, rfl, by simp [succeed_eq, retire]⟩
  by_cases hclrsr : i = .clrsr
  · subst hclrsr
    exact ⟨_, _, rfl, rfl, by simp [succeed_eq, retire]⟩
  obtain ⟨t, t', ht, ht', r, buf, fh, desc, rfl, rfl⟩ :=
    exec_sameEnd (s := s) (s' := { s with inputs := .command q :: rest }) rfl rfl rfl i
      hvalue hscale hrdsr hclrsr
  refine ⟨_, _, ht, ht', ?_⟩
  simp only [retire, complete, State.packet] at hcw ⊢
  rw [hcw]

end Sys2Proof
end

section
/-! PROOFS. The statements about the command word, settled. -/

namespace Sys2Proof

open Machine

/-- Settles O1: the decoder on each layout of the command word. -/
theorem decodeEncodeRoundTrip : Obligations.DecodeEncodeRoundTrip := by
  intro hs i
  rw [decodeWith_encode]
  exact ⟨fun h => if_pos h, fun h => if_neg (Bool.eq_false_iff.1 h)⟩

/-- Settles O2: a word that decodes encodes some instruction, which by O1 is the one it decodes to. -/
theorem encodeDecodeRoundTrip : Obligations.EncodeDecodeRoundTrip := by
  intro hs cw i h
  rcases word_cases cw with ⟨j, rfl⟩ | hrefused
  · rw [decodeWith_encode] at h
    split at h
    · cases h
      exact ⟨rfl, ‹_›⟩
    · cases h
  · obtain ⟨-, r, hr⟩ := hrefused hs
    cases hr.symm.trans h

/-- Settles O3: a word is refused where it encodes no instruction of the machine, and there a condition of R74
holds. -/
theorem illegalWordsExactly : Obligations.IllegalWordsExactly := by
  refine ⟨fun hs cw => ⟨illegalWord_iff_refused hs cw, fun hlegal => ?_, ?_, ?_⟩, ?_⟩
  · rw [illegalWord_iff_refused] at hlegal
    cases hd : decodeWith hs cw with
    | error r => exact absurd ⟨r, hd⟩ hlegal
    | ok i => exact ⟨i, rfl, fun j hj => (Except.ok.inj hj).symm⟩
  · exact .inl (.inl rfl)
  · exact .inl (.inr (by decide))
  · intro s p rest h hillegal
    obtain ⟨r, hr⟩ := (illegalWord_iff_refused _ _).1 hillegal
    rw [step_illegal h hr, raise_eq_afterError (by decide)]
    rfl

/-- Settles O20. -/
theorem ignoredOperandsHaveNoEffect : Obligations.IgnoredOperandsHaveNoEffect := by
  intro s p q rest i h hd hcw hvalue hscale
  obtain ⟨t, t', ht, ht', heq⟩ :=
    exec_ignores_unused (rest := rest) (packet_of_command s h) hcw hvalue hscale
  rw [step_exec h hd ht, step_exec rfl (hcw ▸ hd) ht', heq]

/-- Settles O4: each word is the word of its instruction. -/
theorem decodeSampleWords : Obligations.DecodeSampleWords := by
  unfold Obligations.DecodeSampleWords
  and_intros <;> exact decode_of_encode rfl

end Sys2Proof
end

section
/-! PROOFS. Bit-field addressing (40_bitfield_addressing.md): a field's value is what is extracted, physical bits in
either numbering, fields inside one byte, and fields of eight whole bytes. -/

namespace Sys2Proof.Machine

variable {n : Nat} {m m' : Memory} {l l' : Layout} {v raw : Word64} {ovf : Bool}

/-! ### The field's value is what is extracted (R96, R97) -/

theorem HoldsField.extract_eq (h : HoldsField m l raw) (hf : FieldFits n l) : extract n m l = .ok raw := by
  obtain ⟨raw', hok, hraw'⟩ := extract_ok m hf
  rw [hok, holdsField_unique hraw' h]

/-- An extraction depends on the bits of its field alone. -/
theorem extract_congr (n : Nat) (h : ∀ b, InField l b → numberedBit m l.le b = numberedBit m' l.le b) :
    extract n m l = extract n m' l := by
  rcases extract_spec n m l with ⟨raw, hok, hf, hraw⟩ | ⟨e, herr, hlayout⟩
  · rw [hok, (hraw.congr h).extract_eq hf]
  · rw [herr, extract_error hlayout]

/-- What a successful insertion leaves. -/
theorem insert_eq_ok (hm : Memory.wfFrom n 0 m = true) (h : insert n m v l = .ok (m', ovf)) :
    FieldFits n l ∧ FieldReplaced m m' l v ∧ (ovf = true ↔ ∃ j, l.len.toNat ≤ j ∧ v.getLsbD j = true) := by
  rcases insert_spec hm v l with ⟨_, _, hok, hf, -, hrep, hovf⟩ | ⟨e, herr, -⟩
  · cases h.symm.trans hok
    exact ⟨hf, hrep, hovf⟩
  · cases h.symm.trans herr

/-- The replaced field holds the word that agrees with the inserted one below `LEN` and is 0 above. -/
theorem FieldReplaced.holdsField (h : FieldReplaced m m' l v)
    (hlow : ∀ j < l.len.toNat, raw.getLsbD j = v.getLsbD j)
    (hhigh : ∀ j, l.len.toNat ≤ j → raw.getLsbD j = false) : HoldsField m' l raw :=
  ⟨fun b hb => by rw [h b, if_pos hb, hlow _ (valueIndex_lt hb)], hhigh⟩

/-- R101: the replaced field holds the value's low `LEN` bits. -/
theorem FieldReplaced.holdsField_mod (h : FieldReplaced m m' l v) :
    HoldsField m' l (BitVec.ofNat 64 (v.toNat % 2 ^ l.len.toNat)) := by
  have hbit (j : Nat) : (BitVec.ofNat 64 (v.toNat % 2 ^ l.len.toNat)).getLsbD j =
      (decide (j < l.len.toNat) && v.getLsbD j) := by
    rw [BitVec.getLsbD_ofNat, Nat.testBit_mod_two_pow, BitVec.testBit_toNat]
    by_cases hj : j < 64
    · simp [hj]
    · simp [hj, BitVec.getLsbD_of_ge v j (by omega)]
  exact h.holdsField (fun j hj => by simp [hbit, hj]) fun j hj => by simp [hbit, hj]

/-! ### Physical bits (R102) -/

/-- Where in its byte bit number `b` lies (R98, R99). -/
def physicalBit (le : Bool) (b : Nat) : Nat := if le then b % 8 else 7 - b % 8

theorem numberedBit_eq_physicalBit (m : Memory) (le : Bool) (b : Nat) :
    numberedBit m le b = (Memory.read m (b / 8)).getLsbD (physicalBit le b) := rfl

/-- Every bit has a number in each numbering. -/
theorem exists_renumbered (le le' : Bool) (b : Nat) :
    ∃ b', b' / 8 = b / 8 ∧ physicalBit le' b' = physicalBit le b := by
  have hlt : physicalBit le b < 8 := by unfold physicalBit; split <;> omega
  refine ⟨8 * (b / 8) + if le' then physicalBit le b else 7 - physicalBit le b, ?_, ?_⟩
  · split <;> omega
  · rw [physicalBit]
    split <;> omega

/-- Replacing one field leaves every bit of a field that shares no physical bit with it. -/
theorem FieldReplaced.disjoint_bit (h : FieldReplaced m m' l v) (hdisj : DisjointFields l l') {b : Nat}
    (hb : InField l' b) : numberedBit m' l'.le b = numberedBit m l'.le b := by
  obtain ⟨c, hbyte, hbit⟩ := exists_renumbered l'.le l.le b
  have hout : ¬ InField l c := fun hc => hdisj c b hc hb ⟨hbyte, hbit⟩
  have hkept : numberedBit m' l.le c = numberedBit m l.le c := by rw [h c, if_neg hout]
  simpa only [numberedBit_eq_physicalBit, hbyte, hbit] using hkept

/-! ### Fields inside one byte (R106) -/

/-- The value of a field inside one byte: in little-endian mode the byte's bits from `sub` on, in big-endian
mode those from `8 - sub - LEN` on. -/
theorem extract_singleByte (m : Memory) {b0 sub : Nat} (hstart : l.start.toNat = 8 * b0 + sub) (hn : b0 < n)
    (hpos : 1 ≤ l.len.toNat) (hsub : sub + l.len.toNat ≤ 8) :
    extract n m l = .ok (((Memory.read m b0).extractLsb'
      (if l.le then sub else 8 - sub - l.len.toNat) l.len.toNat).setWidth 64) := by
  refine HoldsField.extract_eq ⟨fun b hb => ?_, fun j hj => ?_⟩ ⟨hpos, by omega, by omega, by omega⟩
  · have hlt := valueIndex_lt hb
    obtain ⟨hlow, hhigh⟩ := hb
    have hbyte : b / 8 = b0 := by omega
    have hbit : (if l.le then sub else 8 - sub - l.len.toNat) + valueIndex l b = physicalBit l.le b := by
      unfold valueIndex physicalBit
      split <;> omega
    rw [BitVec.getLsbD_setWidth, BitVec.getLsbD_extractLsb', hbit, numberedBit_eq_physicalBit, hbyte]
    simp [hlt, show valueIndex l b < 64 by omega]
  · simp [hj]

/-! ### Fields of 64 bits (R104) -/

theorem layoutError_span (hlen : l.len.toNat = 64) (hoff : l.start.toNat % 8 ≠ 0) :
    layoutError n l = some .span := by
  rw [layoutError, if_neg (by omega), if_pos (by omega)]

/-- A 64-bit field on a byte boundary is its eight bytes, in the order of its mode. -/
theorem HoldsField.byte_eq (h : HoldsField m l raw) (hlen : l.len.toNat = 64) (haligned : l.start.toNat % 8 = 0)
    {j : Nat} (hj : j < 8) :
    raw.extractLsb' (if l.le then 8 * j else 56 - 8 * j) 8 = Memory.read m (l.start.toNat / 8 + j) := by
  obtain ⟨hbits, -⟩ := h
  apply BitVec.eq_of_getLsbD_eq
  intro k hk
  have hin : InField l (8 * (l.start.toNat / 8 + j) + if l.le then k else 7 - k) := by
    constructor <;> split <;> omega
  have hindex : valueIndex l (8 * (l.start.toNat / 8 + j) + if l.le then k else 7 - k) =
      (if l.le then 8 * j else 56 - 8 * j) + k := by
    unfold valueIndex
    split <;> omega
  rw [← numberedBit_of_byte m l.le _ hk, ← hbits _ hin, hindex, BitVec.getLsbD_extractLsb']
  simp [hk]

/-- An insertion of 64 bits drops none and leaves the field holding the whole value. -/
theorem insert_sixtyFour (hm : Memory.wfFrom n 0 m = true) (hf : FieldFits n l) (hlen : l.len.toNat = 64)
    (v : Word64) : ∃ m', insert n m v l = .ok (m', false) ∧ HoldsField m' l v := by
  have hnone (j : Nat) (hj : l.len.toNat ≤ j) : v.getLsbD j = false := BitVec.getLsbD_of_ge v j (by omega)
  obtain ⟨m', ovf, hok, -, hrep, hovf, -⟩ := insert_ok hm v hf
  have hflag : ovf = false := Bool.eq_false_iff.2 fun ht => by
    obtain ⟨j, hj, hv⟩ := hovf.1 ht
    rw [hnone j hj] at hv
    cases hv
  exact ⟨m', hflag ▸ hok, hrep.holdsField (fun _ _ => rfl) hnone⟩

end Sys2Proof.Machine
end

section
/-! PROOFS. The statements about bit-field addressing, settled. -/

namespace Sys2Proof.Machine

/-- Settles O44: the replaced field holds the value's low bits, which are the whole value where no bit was
dropped. -/
theorem insertThenExtract : Obligations.InsertThenExtract := by
  intro n m m' v l ovf hm h
  obtain ⟨hf, hrep, hovf⟩ := insert_eq_ok hm h
  refine ⟨hrep.holdsField_mod.extract_eq hf, fun hno => ?_⟩
  have hhigh (j : Nat) (hj : l.len.toNat ≤ j) : v.getLsbD j = false :=
    Bool.eq_false_iff.2 fun hv => Bool.eq_false_iff.1 hno (hovf.2 ⟨j, hj, hv⟩)
  exact (hrep.holdsField (fun _ _ => rfl) hhigh).extract_eq hf

/-- Settles O45. -/
theorem disjointInsert : Obligations.DisjointInsert := by
  intro n m m' v l l' ovf hm hdisj h
  obtain ⟨-, hrep, -⟩ := insert_eq_ok hm h
  exact extract_congr n fun b hb => hrep.disjoint_bit hdisj hb

/-- Settles O47: the two fields are the same bits of the byte; with one start bit, a byte whose only bit is the
one at `sub` tells the modes apart by bit 0 of what they read. -/
theorem singleByteNumberings : Obligations.SingleByteNumberings := by
  intro n b0 sub len hn hb0 hpos hsub
  have hstart (k : Nat) (hk : k ≤ 8 - len.toNat) : (BitVec.ofNat 16 (8 * b0 + k)).toNat = 8 * b0 + k := by
    rw [BitVec.toNat_ofNat, Nat.mod_eq_of_lt (by omega)]
  refine ⟨fun m => ?_, fun hne => ⟨[(b0, BitVec.twoPow 8 sub)], ?_, fun heq => ?_⟩⟩
  · rw [extract_singleByte m (hstart sub (by omega)) hn hpos hsub,
      extract_singleByte m (hstart (8 - sub - len.toNat) (by omega)) hn hpos (by simp only; omega)]
    simp only [Bool.false_eq_true, if_true, if_false]
    congr 3
    omega
  · have hnonzero : BitVec.twoPow 8 sub ≠ 0#8 := fun h0 => by
      have hbit := congrArg (fun x : Byte => x.getLsbD sub) h0
      simp [show sub < 8 by omega] at hbit
    simp [Memory.wfFrom, hn, hnonzero]
  · rw [extract_singleByte _ (hstart sub (by omega)) hn hpos hsub,
      extract_singleByte _ (hstart sub (by omega)) hn hpos hsub] at heq
    have hbit := congrArg (fun w : Word64 => w.getLsbD 0) (Except.ok.inj heq)
    have hother : sub ≠ 8 - sub - len.toNat := by omega
    simp [Memory.read, BitVec.getLsbD_twoPow, hother, show 0 < len.toNat by omega, show sub < 8 by omega] at hbit

/-- Settles O48. -/
theorem lengthSixtyFour : Obligations.LengthSixtyFour := by
  intro n m v l hm hlen
  refine ⟨fun hoff => ⟨extract_error (layoutError_span hlen hoff), insert_error (layoutError_span hlen hoff)⟩,
    fun hf => ?_⟩
  have haligned : l.start.toNat % 8 = 0 := by
    obtain ⟨-, -, hspan, -⟩ := hf
    omega
  obtain ⟨raw, hextract, hraw⟩ := extract_ok m hf
  obtain ⟨m', hinsert, hv⟩ := insert_sixtyFour hm hf hlen v
  exact ⟨haligned, ⟨raw, hextract, fun j hj => hraw.byte_eq hlen haligned hj⟩,
    m', hinsert, fun j hj => (hv.byte_eq hlen haligned hj).symm⟩

end Sys2Proof.Machine
end

section
/-! PROOFS. The raw extractions (41_get.md): what every instruction that is a raw extraction answers, that a
constructed slot passes the length check, and the statements settled. -/

namespace Sys2Proof.Machine

variable {n : Nat} {l : Layout} {s : State} {i : Instr}

/-! ### The length check (R94, R28) -/

/-- A field of 1 to 64 bits may fail the span or the bounds check only. -/
theorem layoutError_ne_length (hpos : 1 ≤ l.len.toNat) (hle : l.len.toNat ≤ 64) :
    layoutError n l ≠ some .length := by
  rw [layoutError, if_neg (by omega)]
  split
  · simp
  · split <;> simp

/-- A constructed slot never fails the length check: `DESC` stores legal lengths only (R28 a). -/
theorem Invariant.slot_layoutError_ne_length (hs : Invariant s) {k : Nat} {d : Desc} (hd : s.desc[k]? = some d)
    (hv : d.v = true) : layoutError n d.layout ≠ some .length := by
  obtain ⟨hpos, hle⟩ := hs.slots k d hd hv
  exact layoutError_ne_length hpos hle

/-! ### Raw extraction (R110) -/

/-- An instruction that is a raw extraction answers the low `W(T)` bits of the field, or the first failing layout
check's error. -/
theorem exec_of_opGet {T : Ty} (h : exec i s = .next (opGet T l s)) :
    (FieldFits Config.bufSize l → ∃ raw, HoldsField s.buf l raw ∧
      exec i s = .next { s with resp := ⟨.ok, false, BitVec.ofNat 64 (raw.toNat % 2 ^ T.width)⟩ }) ∧
    ∀ e, layoutError Config.bufSize l = some e → exec i s = .next (afterError e s) := by
  refine ⟨fun hf => ?_, fun e he => by rw [h, opGet_error T he]⟩
  obtain ⟨raw, hraw, hget⟩ := opGet_ok T hf
  exact ⟨raw, hraw, by rw [h, hget]⟩

/-- On a constructed slot `GETD.T` is the raw extraction of the slot's layout (R111). -/
theorem exec_getd_slot (T : Ty) {k : BitVec 4} {d : Desc} (hd : s.desc[k.toNat]? = some d) (hv : d.v = true) :
    exec (.getd T k) s = .next (opGet T d.layout s) := by
  rw [exec_getd, withSlot_some _ hd hv]

/-! ### The statements -/

/-- Settles O24: `GET.T` is the raw extraction of the word's layout operands. -/
theorem getExtractsField : Obligations.GetExtractsField := by
  intro T le len start s l
  exact ⟨decodeWith_get le len start Config.hasScale T, exec_of_opGet (exec_get T le len start s)⟩

/-- Settles O25: `GETD.T` is the raw extraction of its slot's layout, whose length the invariant keeps legal, or
`NODESC`. -/
theorem getdExtractsSlotField : Obligations.GetdExtractsSlotField := by
  intro T k s
  refine ⟨decodeWith_getd k Config.hasScale T, fun d hd hv => ?_, fun hnone => ?_⟩
  · obtain ⟨hfits, herror⟩ := exec_of_opGet (exec_getd_slot T hd hv)
    exact ⟨hfits, herror, fun hs => hs.slot_layoutError_ne_length hd hv⟩
  · rw [exec_getd, withSlot_none _ hnone]

end Sys2Proof.Machine
end

section
/-! PROOFS. The raw insertions (42_set.md): what every instruction that is a raw insertion does, and the statements
settled. -/

namespace Sys2Proof.Machine

variable {l : Layout} {s : State} {i : Instr}

/-! ### Raw insertion (R140) -/

/-- The value a raw insertion writes, in the words of the statements. -/
theorem opSet_eq_opInsert (T : Ty) (l : Layout) (s : State) :
    opSet T l s = opInsert (BitVec.ofNat 64 (s.packet.a.toNat % 2 ^ T.width)) l s := by
  rw [opSet, pattern_eq]

/-- An instruction that is an insertion of `v` replaces the field by the low `LEN` bits of `v`, leaves every other
byte, and reports a dropped bit in `ovf` and `SR[0]`; or it ends in the first failing layout check's error. -/
theorem exec_of_opInsert {v : Word64} (h : exec i s = .next (opInsert v l s)) :
    (Memory.wf s.buf = true → FieldFits Config.bufSize l →
      ∃ buf, Memory.wf buf = true ∧ FieldReplaced s.buf buf l v ∧
        (∀ j, j < l.start.toNat / 8 ∨ (l.start.toNat + l.len.toNat - 1) / 8 < j →
          Memory.read buf j = Memory.read s.buf j) ∧
        exec i s = .next { s with
          buf := buf
          sr := if 2 ^ l.len.toNat ≤ v.toNat then s.sr ||| 1#32 else s.sr
          resp := ⟨.ok, decide (2 ^ l.len.toNat ≤ v.toNat), 0#64⟩ }) ∧
    ∀ e, layoutError Config.bufSize l = some e → exec i s = .next (afterError e s) := by
  refine ⟨fun hm hf => ?_, fun e he => by rw [h, opInsert_error v he]⟩
  obtain ⟨buf, hwf, hreplaced, hframe, hins⟩ := opInsert_ok v hm hf
  exact ⟨buf, hwf, hreplaced, hframe, h.trans (congrArg _ hins)⟩

/-- `SET.T` inserts the low `W(T)` bits of `a` into the field of its word's layout operands (R140). -/
theorem exec_set_opInsert (T : Ty) (le : Bool) (len : BitVec 7) (start : BitVec 16) (s : State) :
    exec (.set T le len start) s =
      .next (opInsert (BitVec.ofNat 64 (s.packet.a.toNat % 2 ^ T.width)) ⟨start, len, le⟩ s) := by
  rw [exec_set, opSet_eq_opInsert]

/-- On a constructed slot `SETD.T` inserts the low `W(T)` bits of `a` into the slot's field (R141). -/
theorem exec_setd_slot (T : Ty) {k : BitVec 4} {d : Desc} (hd : s.desc[k.toNat]? = some d) (hv : d.v = true) :
    exec (.setd T k) s =
      .next (opInsert (BitVec.ofNat 64 (s.packet.a.toNat % 2 ^ T.width)) d.layout s) := by
  rw [exec_setd, withSlot_some _ hd hv, opSet_eq_opInsert]

/-! ### The statements -/

/-- Settles O26: `SET.T` is the raw insertion at the word's layout operands. -/
theorem setInsertsField : Obligations.SetInsertsField := by
  intro T le len start s l v
  exact ⟨decodeWith_set le len start Config.hasScale T, exec_of_opInsert (exec_set_opInsert T le len start s)⟩

/-- Settles O27: `SETD.T` is the raw insertion at its slot's layout, whose length the invariant keeps legal, or
`NODESC`. -/
theorem setdInsertsSlotField : Obligations.SetdInsertsSlotField := by
  intro T k s v
  refine ⟨decodeWith_setd k Config.hasScale T, fun d hd hv => ?_, fun hnone => ?_⟩
  · obtain ⟨hfits, herror⟩ := exec_of_opInsert (exec_setd_slot T hd hv)
    exact ⟨hfits, herror, fun hs => hs.slot_layoutError_ne_length hd hv⟩
  · rw [exec_setd, withSlot_none _ hnone]

end Sys2Proof.Machine
end

section
/-! PROOFS. Binary32 patterns (43_scaled_get.md, R170, R178): a pattern by its three fields, what it stands for, packing
and unpacking, and the statements settled. -/

namespace Sys2Proof.Machine

variable (neg : Bool) (e : BitVec 8) (m : BitVec 23)

/-! ### The three fields of a pattern (R170) -/

/-- A pattern laid out as `{sign, exponent, fraction}` (R170). -/
abbrev patternWord (neg : Bool) (e : BitVec 8) (m : BitVec 23) : Word32 := BitVec.ofBool neg ++ e ++ m

/-- Every word is made of its three fields. -/
theorem patternWord_fields (w : Word32) :
    patternWord (w.getLsbD 31) (w.extractLsb' 23 8) (w.extractLsb' 0 23) = w := by
  apply BitVec.eq_of_getLsbD_eq
  intro i hi
  simp only [BitVec.getLsbD_append, BitVec.getLsbD_extractLsb']
  interval_cases i <;> simp

theorem patternWord_sign : (patternWord neg e m).getLsbD 31 = neg := by
  rw [BitVec.getLsbD_append, BitVec.getLsbD_append]
  simp

theorem patternWord_exponent : (patternWord neg e m).extractLsb' 23 8 = e := by
  apply BitVec.eq_of_getLsbD_eq
  intro i hi
  simp only [BitVec.getLsbD_extractLsb', BitVec.getLsbD_append]
  interval_cases i <;> simp

theorem patternWord_fraction : (patternWord neg e m).extractLsb' 0 23 = m := by
  apply BitVec.eq_of_getLsbD_eq
  intro i hi
  simp [BitVec.getLsbD_append, hi]

/-- The exponent field as a number of the word. -/
theorem patternWord_exponentNumber : (patternWord neg e m).toNat / 2 ^ 23 % 256 = e.toNat := by
  have h := congrArg BitVec.toNat (patternWord_exponent neg e m)
  rwa [BitVec.extractLsb'_toNat, Nat.shiftRight_eq_div_pow] at h

/-- The fraction field as a number of the word. -/
theorem patternWord_fractionNumber : (patternWord neg e m).toNat % 2 ^ 23 = m.toNat := by
  have h := congrArg BitVec.toNat (patternWord_fraction neg e m)
  rwa [BitVec.extractLsb'_toNat, Nat.shiftRight_zero] at h

/-! ### What a pattern stands for (R170) -/

/-- The three cases of R170 on the fields of a pattern. -/
theorem unpack_patternWord : Binary32.unpack (patternWord neg e m) =
    if h : e.toNat < 255 then .finite neg ⟨e.toNat, h⟩ m
    else if m = 0#23 then .inf neg
    else .nan ⟨neg, Fin.ofNat 8388607 (m.toNat - 1)⟩ := by
  simp only [Binary32.unpack, patternWord_sign, patternWord_exponent, patternWord_fraction]

theorem unpack_finite (neg : Bool) (e : Fin 255) (m : BitVec 23) :
    Binary32.unpack (patternWord neg (BitVec.ofNat 8 e.val) m) = .finite neg e m := by
  have he : (BitVec.ofNat 8 e.val).toNat = e.val := Nat.mod_eq_of_lt (by omega)
  simp [unpack_patternWord, he, e.isLt]

theorem unpack_inf : Binary32.unpack (patternWord neg 255#8 0#23) = .inf neg := by
  simp [unpack_patternWord]

theorem unpack_nan {m : BitVec 23} (hm : m ≠ 0#23) :
    Binary32.unpack (patternWord neg 255#8 m) = .nan ⟨neg, Fin.ofNat 8388607 (m.toNat - 1)⟩ := by
  simp [unpack_patternWord, hm]

/-- The fraction of a NaN's pattern is its payload and 1. -/
theorem nanFraction_toNat (p : Config.NanPattern) :
    (BitVec.ofNat 23 (p.payload.val + 1)).toNat = p.payload.val + 1 :=
  Nat.mod_eq_of_lt (by omega)

theorem nanFraction_ne_zero (p : Config.NanPattern) : BitVec.ofNat 23 (p.payload.val + 1) ≠ 0#23 := by
  intro h
  have := congrArg BitVec.toNat h
  rw [nanFraction_toNat] at this
  simp at this

/-- A fraction that is not zero is that of its NaN's payload. -/
theorem nanFraction_payload {m : BitVec 23} (hm : m ≠ 0#23) :
    BitVec.ofNat 23 ((Fin.ofNat 8388607 (m.toNat - 1)).val + 1) = m := by
  have hpos : m.toNat ≠ 0 := fun h => hm (BitVec.eq_of_toNat_eq h)
  have hlt := m.isLt
  apply BitVec.eq_of_toNat_eq
  simp only [BitVec.toNat_ofNat, Fin.val_ofNat]
  omega

/-- Unpacking a packed value gives it back. -/
theorem unpack_pack (v : Binary32) : Binary32.unpack v.pack = v := by
  cases v with
  | nan p =>
    rw [Binary32.pack, unpack_nan _ (nanFraction_ne_zero p), nanFraction_toNat]
    simp
  | inf s => exact unpack_inf s
  | finite s e m => exact unpack_finite s e m

theorem exponent_eq_max {e : BitVec 8} (h : ¬ e.toNat < 255) : e = 255#8 := by
  have hlt := e.isLt
  exact BitVec.eq_of_toNat_eq (show e.toNat = 255 by omega)

/-- Packing what a pattern stands for gives the pattern back. -/
theorem pack_unpack (w : Word32) : (Binary32.unpack w).pack = w := by
  rw [← patternWord_fields w, unpack_patternWord]
  generalize w.getLsbD 31 = neg, w.extractLsb' 23 8 = e, w.extractLsb' 0 23 = m
  split_ifs with he hm
  · simp [Binary32.pack]
  · rw [exponent_eq_max he, hm, Binary32.pack]
  · rw [exponent_eq_max he, Binary32.pack, nanFraction_payload hm]

/-- A finite value is its sign times its magnitude. -/
theorem signedValue_eq_sign_mul (neg : Bool) (e : Fin 255) (m : BitVec 23) :
    signedValue neg e m = (if neg then -1 else 1 : ℚ) * magnitude e m := by
  cases neg <;> simp [signedValue]

/-! ### The statements -/

/-- Settles O49: every word is its three fields, and R170 tells the values apart by them. -/
theorem patternsAndValues : Obligations.PatternsAndValues := by
  refine ⟨fun x => ?_, unpack_pack⟩
  rw [← patternWord_fields x]
  generalize x.getLsbD 31 = neg, x.extractLsb' 23 8 = e, x.extractLsb' 0 23 = m
  intro e' m'
  have he : e' = e.toNat := patternWord_exponentNumber neg e m
  have hm : m' = m.toNat := patternWord_fractionNumber neg e m
  rw [patternWord_sign, he, hm]
  refine ⟨fun h255 hne => ?_, fun h255 h0 => ?_, fun hne => ?_, pack_unpack _⟩
  · have hm0 : m ≠ 0#23 := fun h => hne (by simp [h])
    simp [unpack_patternWord, h255, hm0]
  · have hm0 : m = 0#23 := BitVec.eq_of_toNat_eq h0
    simp [unpack_patternWord, h255, hm0]
  · have hlt : e.toNat < 255 := by omega
    exact ⟨⟨e.toNat, hlt⟩, m, by rw [unpack_patternWord, dif_pos hlt], signedValue_eq_sign_mul neg _ m⟩

/-- Settles O57: a NaN pattern's exponent field is 255 and its fraction field one more than its payload. -/
theorem nanResultIsNanPattern : Obligations.NanResultIsNanPattern := by
  intro op x y
  generalize Config.nanResult op x y = p
  rw [Binary32.pack, patternWord_exponentNumber, patternWord_fractionNumber, nanFraction_toNat]
  exact ⟨rfl, Nat.succ_ne_zero _⟩

end Sys2Proof.Machine
end

section
/-! PROOFS. Rounding (43_scaled_get.md, R171): the quotient rounded to an integer, the spacing of binary32 at a
magnitude, the threshold of infinity, the nearest finite value, and the statement settled. -/

namespace Sys2Proof.Machine

/-! ### roundHalfEven (R171) -/

/-- The quotient, and one more past the half or at the half of an odd quotient. -/
theorem roundHalfEven_eq (num den : Nat) : roundHalfEven num den =
    num / den + if den < 2 * (num % den) ∨ (den = 2 * (num % den) ∧ num / den % 2 = 1) then 1 else 0 := by
  simp only [roundHalfEven]
  split_ifs <;> omega

theorem div_le_roundHalfEven (num den : Nat) : num / den ≤ roundHalfEven num den := by
  rw [roundHalfEven_eq]
  exact Nat.le_add_right ..

theorem roundHalfEven_le (num den : Nat) : roundHalfEven num den ≤ num / den + 1 := by
  rw [roundHalfEven_eq]
  split <;> omega

/-- The quotient rounds past an odd integer from halfway above it on. -/
theorem lt_roundHalfEven_iff {c num den : Nat} (hden : 0 < den) (hc : c % 2 = 1) :
    c < roundHalfEven num den ↔ (2 * c + 1) * den ≤ 2 * num := by
  have hnum := Nat.div_add_mod num den
  have hr := Nat.mod_lt num hden
  rw [roundHalfEven_eq]
  generalize num / den = q at *
  generalize num % den = r at *
  rcases lt_trichotomy c q with h | rfl | h
  · exact iff_of_true (by omega) (by nlinarith)
  · rw [add_mul, one_mul, mul_assoc, mul_comm c den]
    split <;> omega
  · exact iff_of_false (by split <;> omega) (by nlinarith)

/-! ### The spacing of binary32 at a magnitude -/

/-- The exponent of the spacing at `num / den` units: the spacing is `2 ^ spacing` units. -/
def spacing (num den : Nat) : Nat := Nat.log2 (num / den) - 23

/-- The magnitude `num / den` units as a number of spacings, rounded. -/
def significand (num den : Nat) : Nat := roundHalfEven num (den * 2 ^ spacing num den)

/-- The rounded magnitude's packed exponent and fraction as one number. -/
def roundedPacked (num den : Nat) : Nat := spacing num den * 2 ^ 23 + significand num den

theorem roundUnits_eq (neg : Bool) (num den : Nat) : roundUnits neg num den =
    if h : roundedPacked num den / 2 ^ 23 < 255 then
      .finite neg ⟨roundedPacked num den / 2 ^ 23, h⟩ (BitVec.ofNat 23 (roundedPacked num den))
    else .inf neg := rfl

variable {num den : Nat}

theorem div_lt_two_pow_spacing (num den : Nat) : num / den < 2 ^ (spacing num den + 24) :=
  calc num / den < 2 ^ (Nat.log2 (num / den) + 1) := Nat.lt_log2_self
    _ ≤ 2 ^ (spacing num den + 24) := Nat.pow_le_pow_right (by norm_num) (by unfold spacing; omega)

/-- Above exponent 0 the magnitude fills all 24 bits of the significand. -/
theorem two_pow_spacing_le_div (h : spacing num den ≠ 0) : 2 ^ (spacing num den + 23) ≤ num / den := by
  have hlog : spacing num den + 23 = Nat.log2 (num / den) := by unfold spacing at *; omega
  have hne : num / den ≠ 0 := by
    intro h0
    simp [spacing, h0] at h
  rw [hlog]
  exact Nat.log2_self_le hne

theorem significand_le (num den : Nat) : significand num den ≤ 2 ^ 24 := by
  have hlt : num / (den * 2 ^ spacing num den) < 2 ^ 24 := by
    rw [← Nat.div_div_eq_div_mul]
    refine Nat.div_lt_of_lt_mul ?_
    rw [← pow_add]
    exact div_lt_two_pow_spacing num den
  exact (roundHalfEven_le ..).trans hlt

theorem le_significand (num den : Nat) : spacing num den = 0 ∨ 2 ^ 23 ≤ significand num den := by
  refine or_iff_not_imp_left.2 fun h => ?_
  refine le_trans ?_ (div_le_roundHalfEven ..)
  rw [← Nat.div_div_eq_div_mul, Nat.le_div_iff_mul_le (by positivity), ← pow_add, add_comm]
  exact two_pow_spacing_le_div h

/-- A finite result's number of units. -/
theorem unitMagnitude_rounded (h : roundedPacked num den / 2 ^ 23 < 255) :
    unitMagnitude ⟨roundedPacked num den / 2 ^ 23, h⟩ (BitVec.ofNat 23 (roundedPacked num den)) =
      significand num den * 2 ^ spacing num den :=
  unitMagnitude_of_packed (significand_le num den) (le_significand num den) h

/-- The result is an infinity from halfway between the largest finite magnitude and `2 ^ 277` units on. -/
theorem roundedPacked_lt_iff (hden : 0 < den) :
    roundedPacked num den / 2 ^ 23 < 255 ↔ num < (2 ^ 25 - 1) * 2 ^ 252 * den := by
  have hk := significand_le num den
  have hle := le_significand num den
  have hhigh := div_lt_two_pow_spacing num den
  have hlow := two_pow_spacing_le_div (num := num) (den := den)
  rw [Nat.div_lt_iff_lt_mul hden] at hhigh
  rw [Nat.le_div_iff_mul_le hden] at hlow
  unfold roundedPacked
  rcases lt_trichotomy (spacing num den) 253 with ht | ht | ht
  · have hpow : 2 ^ (spacing num den + 24) * den ≤ 2 ^ 24 * 2 ^ 252 * den :=
      Nat.mul_le_mul_right den ((pow_le_pow_right₀ one_le_two (by omega)).trans_eq (pow_add 2 24 252))
    exact iff_of_true (by omega) (by omega)
  · have hround : 2 ^ 24 - 1 < significand num den ↔ _ :=
      lt_roundHalfEven_iff (by positivity) (by norm_num)
    rw [ht] at hround ⊢
    omega
  · have hpow : 2 ^ 25 * 2 ^ 252 * den ≤ 2 ^ (spacing num den + 23) * den :=
      Nat.mul_le_mul_right den ((pow_add 2 25 252).symm.trans_le (pow_le_pow_right₀ one_le_two (by omega)))
    exact iff_of_false (by omega) (by omega)

/-! ### The nearest finite value -/

/-- The distance of a multiple of the spacing to `num / den` units, in spacings. -/
theorem abs_spacings_sub (num den j : Nat) : |(j * 2 ^ spacing num den : ℚ) - num / den| =
    |(j : ℚ) - num / (den * 2 ^ spacing num den : ℕ)| * 2 ^ spacing num den := by
  have hpos : (0 : ℚ) < 2 ^ spacing num den := by positivity
  rw [← abs_of_pos hpos, ← abs_mul, abs_of_pos hpos]
  push_cast
  congr 1
  field_simp

/-- No multiple of the spacing is nearer than the rounded one, and another is as near only where the rounded
significand is even. -/
theorem rounded_nearest_spacings (hden : 0 < den) (j : Nat) :
    |(significand num den * 2 ^ spacing num den : ℚ) - num / den| ≤ |(j * 2 ^ spacing num den : ℚ) - num / den| ∧
      (|(significand num den * 2 ^ spacing num den : ℚ) - num / den| = |(j * 2 ^ spacing num den : ℚ) - num / den| →
        j = significand num den ∨ significand num den % 2 = 0) := by
  have hpos : (0 : ℚ) < 2 ^ spacing num den := by positivity
  obtain ⟨hle, htie⟩ := roundHalfEven_nearest num (den := den * 2 ^ spacing num den) (by positivity) j
  rw [abs_spacings_sub, abs_spacings_sub]
  exact ⟨mul_le_mul_of_nonneg_right hle hpos.le, fun heq => htie (mul_right_cancel₀ hpos.ne' heq)⟩

/-- A finite magnitude with a finer spacing is farther than the rounded one: the least magnitude of this spacing lies
between it and `num / den`. -/
theorem rounded_nearer_of_finer (hden : 0 < den) (hne : spacing num den ≠ 0) {e : Fin 255} {m : BitVec 23}
    (he : e.val ≤ spacing num den) :
    |(significand num den * 2 ^ spacing num den : ℚ) - num / den| < |(unitMagnitude e m : ℚ) - num / den| := by
  have hbelow : (unitMagnitude e m : ℚ) < 2 ^ 23 * 2 ^ spacing num den := by
    rw [← pow_add]
    exact_mod_cast unitMagnitude_lt (m := m) he
  have habove : (2 ^ 23 * 2 ^ spacing num den : ℚ) ≤ num / den := by
    rw [← pow_add, add_comm, le_div_iff₀ (by exact_mod_cast hden)]
    exact_mod_cast (Nat.le_div_iff_mul_le hden).1 (two_pow_spacing_le_div hne)
  obtain ⟨hle, -⟩ := rounded_nearest_spacings (num := num) hden (2 ^ 23)
  refine lt_of_le_of_lt hle ?_
  push_cast
  rw [abs_of_nonpos (by linarith), abs_of_nonpos (by linarith)]
  linarith

/-- In units of `2 ^ -149`, no finite magnitude is nearer than the rounded one, and another is as near only where
the rounded significand is even. -/
theorem rounded_nearest (hden : 0 < den) (e : Fin 255) (m : BitVec 23) :
    |(significand num den * 2 ^ spacing num den : ℚ) - num / den| ≤ |(unitMagnitude e m : ℚ) - num / den| ∧
      (|(significand num den * 2 ^ spacing num den : ℚ) - num / den| = |(unitMagnitude e m : ℚ) - num / den| →
        unitMagnitude e m = significand num den * 2 ^ spacing num den ∨ significand num den % 2 = 0) := by
  by_cases he : spacing num den = 0 ∨ spacing num den + 1 ≤ e.val
  · obtain ⟨j, hj⟩ := unitMagnitude_multiple (m := m) he
    obtain ⟨hle, htie⟩ := rounded_nearest_spacings (num := num) hden j
    rw [hj]
    push_cast
    exact ⟨hle, fun heq => (htie heq).imp_left (congrArg (· * _))⟩
  · push Not at he
    obtain ⟨hne, hfiner⟩ := he
    have hlt := rounded_nearer_of_finer hden hne (m := m) (Nat.lt_succ_iff.1 hfiner)
    exact ⟨hlt.le, fun heq => absurd heq hlt.ne⟩

/-- The threshold of R171 in units of `2 ^ -149`. -/
theorem overflow_threshold_iff (hden : 0 < den) :
    (num : ℚ) / den * 2 ^ (-149 : ℤ) < 2 ^ 128 - 2 ^ 103 ↔ num < (2 ^ 25 - 1) * 2 ^ 252 * den := by
  have hd : (0 : ℚ) < den := by exact_mod_cast hden
  have hunit : (2 ^ 128 - 2 ^ 103 : ℚ) = ((2 ^ 25 - 1) * 2 ^ 252 : ℕ) * 2 ^ (-149 : ℤ) := by norm_num
  rw [hunit, mul_lt_mul_iff_left₀ (by positivity), div_lt_iff₀ hd]
  exact_mod_cast Iff.rfl

/-- The distance of a finite magnitude to `num / den` units. -/
theorem abs_magnitude_sub (e : Fin 255) (m : BitVec 23) (x : ℚ) :
    |magnitude e m - x * 2 ^ (-149 : ℤ)| = |(unitMagnitude e m : ℚ) - x| * 2 ^ (-149 : ℤ) := by
  rw [magnitude_eq, ← sub_mul, abs_mul, abs_of_pos (by positivity : (0 : ℚ) < 2 ^ (-149 : ℤ))]

/-! ### The statement -/

/-- Settles O50: the overflow is decided on the packed number, and a finite result is a nearest multiple of the
spacing, which has every other finite magnitude no nearer. -/
theorem roundingIsNearestEven : Obligations.RoundingIsNearestEven := by
  intro neg num den hden
  have hunit : (0 : ℚ) < 2 ^ (-149 : ℤ) := by positivity
  rw [RoundsTo, overflow_threshold_iff hden, ← not_lt, overflow_threshold_iff hden, ← roundedPacked_lt_iff hden,
    roundUnits_eq]
  refine ⟨fun h => dif_neg h, fun h => ⟨_, _, dif_pos h, fun e m => ?_⟩⟩
  obtain ⟨hle, htie⟩ := rounded_nearest hden e m
  rw [abs_magnitude_sub, abs_magnitude_sub, unitMagnitude_rounded h]
  push_cast
  refine ⟨mul_le_mul_of_nonneg_right hle hunit.le, fun heq => ?_⟩
  refine (htie (mul_right_cancel₀ hunit.ne' heq)).imp (fun hsame => ?_) fun heven => ?_
  · exact unitMagnitude_injective (hsame.trans (unitMagnitude_rounded h).symm)
  · simp only [BitVec.toNat_ofNat, roundedPacked]
    omega

/-! ### Rounding an exact value -/

/-- What is computed by rounding `num / den` units is the magnitude `r` rounded, where `r` is that many units. -/
theorem roundsTo_roundUnits (neg : Bool) {num den : Nat} (hden : 0 < den) {r : ℚ}
    (hr : r = (num : ℚ) / den * 2 ^ (-149 : ℤ)) : RoundsTo neg r (roundUnits neg num den) :=
  hr ▸ roundingIsNearestEven neg num den hden

theorem roundUnits_not_nan (neg : Bool) (num den : Nat) : ¬ IsNan (roundUnits neg num den) := by
  rintro ⟨p, hp⟩
  rw [roundUnits_eq] at hp
  split at hp <;> cases hp

/-- A value below the threshold of R171 rounds to a finite value. -/
theorem RoundsTo.finite {neg : Bool} {r : ℚ} {v : Binary32} (h : RoundsTo neg r v)
    (hlt : r < 2 ^ 128 - 2 ^ 103) : ∃ e m, v = .finite neg e m := by
  obtain ⟨-, hfinite⟩ := h
  obtain ⟨e, m, hv, -⟩ := hfinite hlt
  exact ⟨e, m, hv⟩

end Sys2Proof.Machine
end

section
/-! PROOFS. Binary32 arithmetic (43_scaled_get.md, R172 to R177): each operation's exact result as a number of units and
its kinds of operands, each with its statement settled. -/

namespace Sys2Proof.Machine

variable {x y : Binary32}

theorem isNan_nanResult (op : Config.FpOp) (x y : Binary32) : IsNan (nanResult op x y) := ⟨_, rfl⟩

/-! ### Integers (R172) -/

/-- An integer is rounded with its sign. -/
theorem roundsTo_ofInt (n : Int) : RoundsTo (decide (n < 0)) |(n : ℚ)| (Binary32.ofInt n) := by
  refine roundsTo_roundUnits _ one_pos ?_
  rw [Nat.cast_mul, Nat.cast_natAbs, Int.cast_abs]
  norm_num [mul_assoc]

/-- A whole number of units that is a multiple of the spacing is rounded to itself. -/
theorem significand_of_dvd {num : Nat} (h : 2 ^ spacing num 1 ∣ num) :
    significand num 1 * 2 ^ spacing num 1 = num := by
  have hpos : 0 < 2 ^ spacing num 1 := by positivity
  rw [significand, one_mul, roundHalfEven_eq, Nat.mod_eq_zero_of_dvd h, if_neg (by omega), add_zero,
    Nat.div_mul_cancel h]

/-- An integer below `2 ^ 24` is a multiple of the spacing at its magnitude. -/
theorem spacing_dvd {n : Nat} (hn : n < 2 ^ 24) : 2 ^ spacing (n * 2 ^ 149) 1 ∣ n * 2 ^ 149 := by
  have hle : spacing (n * 2 ^ 149) 1 ≤ 149 := by
    by_contra hgt
    have hlow := two_pow_spacing_le_div (num := n * 2 ^ 149) (den := 1) (by omega)
    have hpow : 2 ^ (150 + 23) ≤ 2 ^ (spacing (n * 2 ^ 149) 1 + 23) :=
      Nat.pow_le_pow_right two_pos (by omega)
    omega
  exact Dvd.dvd.mul_left (pow_dvd_pow 2 hle) n

/-- An integer below `2 ^ 24` is converted exactly. -/
theorem ofInt_exact {n : Int} (hn : n.natAbs < 2 ^ 24) :
    ∃ e m, Binary32.ofInt n = .finite (decide (n < 0)) e m ∧ signedValue (decide (n < 0)) e m = (n : ℚ) := by
  have hfinite : roundedPacked (n.natAbs * 2 ^ 149) 1 / 2 ^ 23 < 255 := (roundedPacked_lt_iff one_pos).2 (by omega)
  refine ⟨_, _, (roundUnits_eq ..).trans (dif_pos hfinite), ?_⟩
  rw [signedValue_eq, unitValue, unitMagnitude_rounded, significand_of_dvd (spacing_dvd hn)]
  have hvalue : (if decide (n < 0) = true then -((n.natAbs * 2 ^ 149 : ℕ) : ℤ) else (n.natAbs * 2 ^ 149 : ℕ)) =
      n * 2 ^ 149 := by
    simp only [decide_eq_true_eq]
    split <;> omega
  rw [hvalue]
  norm_num [mul_assoc]

/-- Settles O51: one rounding of the integer's magnitude, which is exact on a multiple of the spacing. -/
theorem integerConversion : Obligations.IntegerConversion := by
  refine ⟨fun n => ?_, interp_eq⟩
  have hround := roundsTo_ofInt n
  refine ⟨?_, fun hpos => ?_, fun hneg => ?_, fun hlt => ⟨_, ofInt_exact hlt⟩, fun hlt => ⟨_, hround.finite ?_⟩⟩
  · rintro rfl
    decide
  · rwa [decide_eq_false (by omega), abs_of_pos (by exact_mod_cast hpos)] at hround
  · rwa [decide_eq_true hneg, abs_of_neg (by exact_mod_cast hneg)] at hround
  · have hcast : |(n : ℚ)| < 2 ^ 64 := by
      rw [← Int.cast_abs, ← Nat.cast_natAbs]
      exact_mod_cast hlt
    linarith

/-! ### Multiplication (R173) -/

theorem isNan_mul (h : IsNan x ∨ IsNan y) : IsNan (x.mul y) := by
  rcases h with ⟨p, rfl⟩ | ⟨p, rfl⟩
  · exact isNan_nanResult ..
  · cases x <;> exact isNan_nanResult ..

theorem mul_finite (s t : Bool) (e e' : Fin 255) (m m' : BitVec 23) :
    RoundsTo (s ^^ t) (magnitude e m * magnitude e' m') ((Binary32.finite s e m).mul (.finite t e' m')) := by
  refine roundsTo_roundUnits _ (by positivity) ?_
  rw [magnitude_eq, magnitude_eq]
  push_cast
  ring

/-- Settles O52, by the kinds of the two values. -/
theorem multiplicationRounds : Obligations.MultiplicationRounds := by
  intro x y s t e e' m m'
  simp only [ne_eq, magnitude_eq_zero]
  refine ⟨isNan_mul, fun h => ?_, fun h => ?_, rfl, mul_finite s t e e' m m'⟩
  · simp only [Binary32.mul, if_pos h]
    exact ⟨isNan_nanResult .., isNan_nanResult ..⟩
  · simp only [Binary32.mul, if_neg h, and_self]

/-! ### Addition (R174) -/

theorem addOr_of_isNan (onNan : Binary32) (h : IsNan x ∨ IsNan y) : addOr onNan x y = onNan := by
  rcases h with ⟨p, rfl⟩ | ⟨p, rfl⟩
  · rfl
  · cases x <;> rfl

theorem addOr_inf (onNan : Binary32) (s t : Bool) :
    addOr onNan (.inf s) (.inf t) = if s = t then .inf s else onNan := rfl

/-- The sum of two finite values, in units of `2 ^ -149`. -/
theorem addOr_finite (onNan : Binary32) (s t : Bool) (e e' : Fin 255) (m m' : BitVec 23) :
    addOr onNan (.finite s e m) (.finite t e' m') =
      if unitValue s e m + unitValue t e' m' = 0 then .finite (s && t) 0 0#23
      else roundUnits (decide (unitValue s e m + unitValue t e' m' < 0))
        (unitValue s e m + unitValue t e' m').natAbs 1 := rfl

/-- The sum that is no NaN does not depend on the NaN to return where there is one. -/
theorem addOr_cases (x y : Binary32) :
    (∀ onNan, addOr onNan x y = onNan) ∨ ∃ v, ¬ IsNan v ∧ ∀ onNan, addOr onNan x y = v := by
  cases x with
  | nan p => exact .inl fun onNan => rfl
  | inf s =>
    cases y with
    | nan p => exact .inl fun onNan => rfl
    | inf t =>
      simp only [addOr_inf]
      split
      · exact .inr ⟨.inf s, by simp, fun onNan => rfl⟩
      · exact .inl fun onNan => rfl
    | finite t e m => exact .inr ⟨.inf s, by simp, fun onNan => rfl⟩
  | finite s e m =>
    cases y with
    | nan p => exact .inl fun onNan => rfl
    | inf t => exact .inr ⟨.inf t, by simp, fun onNan => rfl⟩
    | finite t e' m' =>
      simp only [addOr_finite]
      split
      · exact .inr ⟨.finite (s && t) 0 0#23, by simp, fun onNan => rfl⟩
      · exact .inr ⟨roundUnits _ _ _, roundUnits_not_nan _ _ _, fun onNan => rfl⟩

theorem signedValue_add (s t : Bool) (e e' : Fin 255) (m m' : BitVec 23) :
    signedValue s e m + signedValue t e' m' =
      ((unitValue s e m + unitValue t e' m' : ℤ) : ℚ) * 2 ^ (-149 : ℤ) := by
  rw [signedValue_eq, signedValue_eq]
  push_cast
  ring

/-- A whole number of units is rounded with its sign. -/
theorem roundsTo_units {n : Int} {r : ℚ} (hr : r = (n : ℚ) * 2 ^ (-149 : ℤ)) :
    RoundsTo (decide (n < 0)) |r| (roundUnits (decide (n < 0)) n.natAbs 1) := by
  refine roundsTo_roundUnits _ one_pos ?_
  rw [hr, abs_mul, abs_of_pos (by positivity : (0 : ℚ) < 2 ^ (-149 : ℤ)), Nat.cast_natAbs, Int.cast_abs]
  simp

/-- The sign of a value is that of its number of units. -/
theorem units_sign {n : Int} {r : ℚ} (hr : r = (n : ℚ) * 2 ^ (-149 : ℤ)) :
    (0 < r ↔ 0 < n) ∧ (r < 0 ↔ n < 0) ∧ (r = 0 ↔ n = 0) := by
  have hunit : (0 : ℚ) < 2 ^ (-149 : ℤ) := by positivity
  have hneg : (n : ℚ) * 2 ^ (-149 : ℤ) < 0 ↔ (n : ℚ) < 0 := by
    rw [← not_le, mul_nonneg_iff_of_pos_right hunit, not_le]
  rw [hr, hneg, mul_pos_iff_of_pos_right hunit, mul_eq_zero_iff_right hunit.ne']
  exact ⟨Int.cast_pos, Int.cast_lt_zero, Int.cast_eq_zero⟩

/-- Settles O53: a sum of finite values is a whole number of units, with the sum's sign. -/
theorem additionRounds : Obligations.AdditionRounds := by
  intro x y s t e e' m m' sum r
  have hr : r = _ := addOr_finite _ s t e e' m m'
  have hsum : sum = _ := signedValue_add s t e e' m m'
  have hround := roundsTo_units hsum
  obtain ⟨hpos, hneg, hzero⟩ := units_sign hsum
  generalize unitValue s e m + unitValue t e' m' = n at hr hround hpos hneg hzero
  refine ⟨fun h => ?_, ?_, ?_, rfl, rfl, fun h => ?_, fun h => ?_, fun h => ?_⟩
  · rw [Binary32.add, addOr_of_isNan _ h]
    exact isNan_nanResult ..
  · rw [Binary32.add, addOr_inf, if_neg (by simp)]
    exact isNan_nanResult ..
  · rw [Binary32.add, addOr_inf, if_pos rfl]
  · have hn := hpos.1 h
    rw [decide_eq_false hn.not_gt, abs_of_pos h] at hround
    rwa [hr, if_neg hn.ne', decide_eq_false hn.not_gt]
  · have hn := hneg.1 h
    rw [decide_eq_true hn, abs_of_neg h] at hround
    rwa [hr, if_neg hn.ne, decide_eq_true hn]
  · rw [hr, if_pos (hzero.1 h)]

/-! ### Subtraction (R175) -/

theorem patternWord_xor_sign (neg : Bool) (e : BitVec 8) (m : BitVec 23) :
    patternWord neg e m ^^^ 0x80000000#32 = patternWord (!neg) e m := by
  have hmask : 0x80000000#32 = patternWord true 0#8 0#23 := rfl
  rw [hmask, patternWord, BitVec.xor_append, BitVec.xor_append, BitVec.xor_zero, BitVec.xor_zero]
  cases neg <;> rfl

theorem neg_pack (h : ¬ IsNan y) : y.neg.pack = y.pack ^^^ 0x80000000#32 := by
  cases y with
  | nan p => exact absurd ⟨p, rfl⟩ h
  | inf s => exact (patternWord_xor_sign ..).symm
  | finite s e m => exact (patternWord_xor_sign ..).symm

theorem isNan_neg (h : IsNan y) : IsNan y.neg := by
  obtain ⟨p, rfl⟩ := h
  exact ⟨p, rfl⟩

theorem unitValue_not (s : Bool) (e : Fin 255) (m : BitVec 23) : unitValue (!s) e m = -unitValue s e m := by
  cases s <;> simp [unitValue]

/-- A subtraction is a NaN where the sum with the negation is one, and that sum elsewhere. -/
theorem sub_cases (x y : Binary32) :
    (IsNan (x.add y.neg) ∧ IsNan (x.sub y)) ∨ (¬ IsNan (x.add y.neg) ∧ x.sub y = x.add y.neg) := by
  rw [Binary32.add, Binary32.sub]
  rcases addOr_cases x y.neg with h | ⟨v, hv, h⟩
  · rw [h, h]
    exact .inl ⟨isNan_nanResult .., isNan_nanResult ..⟩
  · rw [h, h]
    exact .inr ⟨hv, rfl⟩

/-- Settles O54: the two sums differ in the NaN they return where there is one. -/
theorem subtractionIsAdditionOfNegation : Obligations.SubtractionIsAdditionOfNegation := by
  intro x y s e m
  refine ⟨fun h => ?_, neg_pack, ?_, fun h => ?_, ?_, ?_⟩
  · rw [Binary32.sub, addOr_of_isNan _ (h.imp_right isNan_neg)]
    exact isNan_nanResult ..
  · rcases sub_cases x y with ⟨hadd, hsub⟩ | ⟨hadd, heq⟩
    · exact iff_of_true hadd hsub
    · rw [heq]
  · rcases sub_cases x y with ⟨hadd, -⟩ | ⟨-, heq⟩
    · exact absurd hadd h
    · exact heq
  · rw [Binary32.sub, Binary32.neg, addOr_finite, unitValue_not, add_neg_cancel, if_pos rfl, Bool.and_not_self]
  · rw [Binary32.sub, Binary32.neg, addOr_inf, if_neg (by simp)]
    exact isNan_nanResult ..

/-! ### Division (R176) -/

theorem isNan_div (h : IsNan x ∨ IsNan y) : IsNan (x.div y) := by
  rcases h with ⟨p, rfl⟩ | ⟨p, rfl⟩
  · exact isNan_nanResult ..
  · cases x <;> exact isNan_nanResult ..

theorem div_finite (s t : Bool) (e e' : Fin 255) (m m' : BitVec 23) :
    (Binary32.finite s e m).div (.finite t e' m') =
      if unitMagnitude e' m' = 0 then
        (if unitMagnitude e m = 0 then nanResult .div (.finite s e m) (.finite t e' m') else .inf (s ^^ t))
      else roundUnits (s ^^ t) (unitMagnitude e m * 2 ^ 149) (unitMagnitude e' m') := rfl

/-- The exact quotient of two finite magnitudes, as the units rounded. -/
theorem magnitude_div (e e' : Fin 255) (m m' : BitVec 23) :
    magnitude e m / magnitude e' m' =
      ((unitMagnitude e m * 2 ^ 149 : ℕ) : ℚ) / unitMagnitude e' m' * 2 ^ (-149 : ℤ) := by
  rw [magnitude_eq, magnitude_eq, mul_div_mul_right _ _ (by positivity)]
  push_cast
  rw [mul_div_right_comm, mul_assoc]
  norm_num

/-- Settles O55, by the kinds of the two values and by which of two finite ones is zero. -/
theorem divisionRounds : Obligations.DivisionRounds := by
  intro x y s t e e' m m' q
  have hq : q = _ := div_finite s t e e' m m'
  simp only [ne_eq, magnitude_eq_zero]
  refine ⟨isNan_div, isNan_nanResult .., fun h h' => ?_, rfl, rfl, fun h h' => ?_, fun h' => ?_⟩
  · rw [hq, if_pos h', if_pos h]
    exact isNan_nanResult ..
  · rw [hq, if_pos h', if_neg h]
  · rw [hq, if_neg h']
    exact roundsTo_roundUnits _ (Nat.pos_of_ne_zero h') (magnitude_div e e' m m')

/-! ### Truncation (R177) -/

/-- Division that discards the fractional part, at or above zero. -/
theorem tdiv_of_nonneg {v : Int} (d : Nat) (hv : 0 ≤ v) :
    ((v.tdiv d : ℤ) : ℚ) ≤ v / d ∧ (v / d : ℚ) < (v.tdiv d : ℤ) + 1 ∧ 0 ≤ v.tdiv d := by
  rw [Int.tdiv_eq_ediv_of_nonneg hv, ← Rat.floor_intCast_div_natCast]
  refine ⟨Int.floor_le _, Int.lt_floor_add_one _, Int.floor_nonneg.2 ?_⟩
  positivity

/-- Division that discards the fractional part, at or below zero. -/
theorem tdiv_of_nonpos {v : Int} (d : Nat) (hv : v ≤ 0) :
    (v / d : ℚ) ≤ (v.tdiv d : ℤ) ∧ ((v.tdiv d : ℤ) : ℚ) - 1 < v / d ∧ v.tdiv d ≤ 0 := by
  obtain ⟨hle, hlt, hnonneg⟩ := tdiv_of_nonneg d (v := -v) (by omega)
  rw [Int.neg_tdiv] at hle hlt hnonneg
  push_cast at hle hlt
  rw [neg_div] at hle hlt
  exact ⟨by linarith, by linarith, by omega⟩

/-- A finite value is its number of units divided by `2 ^ 149`. -/
theorem signedValue_eq_div (s : Bool) (e : Fin 255) (m : BitVec 23) :
    signedValue s e m = (unitValue s e m : ℚ) / (2 ^ 149 : ℕ) := by
  rw [signedValue_eq, zpow_neg, div_eq_mul_inv]
  norm_cast

/-- Settles O56, on each side of zero. -/
theorem truncationTowardZero : Obligations.TruncationTowardZero := by
  refine ⟨fun s e m => ⟨_, rfl, fun h => ?_, fun h => ?_⟩, fun _ => rfl, fun _ => rfl⟩
  all_goals
    obtain ⟨hpos, hneg, -⟩ := units_sign (signedValue_eq s e m)
    rw [signedValue_eq_div]
  · exact tdiv_of_nonneg (2 ^ 149) (not_lt.1 (mt hneg.2 h.not_gt))
  · exact tdiv_of_nonpos (2 ^ 149) (not_lt.1 (mt hpos.2 h.not_gt))

end Sys2Proof.Machine
end

section
/-! PROOFS. The scaled extractions (43_scaled_get.md, R190, R191): which of their words are refused, what every
instruction that is a scaled extraction answers, and the statements settled. -/

namespace Sys2Proof

/-- A word of `OP` 1 to 4 is refused exactly for a reserved type code or for the absent scale unit (R74, R184). -/
theorem PositionalFamily.refused_iff {op : BitVec 4} {scaled : Bool} {family}
    (h : PositionalFamily op scaled family) (hs : Bool) (code : BitVec 4) (le : Bool) (len : BitVec 7)
    (start : BitVec 16) :
    (∃ r, decodeWith hs (encodeFields op code le len start) = .error r) ↔
      (scaled = true ∧ hs = false) ∨ ¬ (code.toNat ≤ 7 ∨ code.toNat = 12) := by
  rw [← illegalWord_iff_refused, illegalWord_iff, fieldOp_encodeFields, fieldTy_encodeFields, ← ofCode_eq_none]
  cases h <;> simp [or_comm]

end Sys2Proof

namespace Sys2Proof.Machine

variable {l : Layout} {s : State} {i : Instr}

/-- An instruction that is a scaled extraction answers the pattern of `fadd(fmul(raw, f), o)`, or the first failing
layout check's error (R190). -/
theorem exec_of_opGets {T : Ty} {f o : Word32} (h : exec i s = .next (opGets T l f o s)) :
    (FieldFits Config.bufSize l → ∃ raw, HoldsField s.buf l raw ∧
      exec i s = .next { s with resp := ⟨.ok, false,
        (((rawOperand T raw).mul (.unpack f)).add (.unpack o)).pack.setWidth 64⟩ }) ∧
    ∀ e, layoutError Config.bufSize l = some e → exec i s = .next (afterError e s) := by
  refine ⟨fun hf => ?_, fun e he => by rw [h, opGets_error T f o he]⟩
  obtain ⟨raw, hraw, hgets⟩ := opGets_ok T f o hf
  exact ⟨raw, hraw, by rw [h, hgets]⟩

/-- On a constructed slot `GETSD.T` is the scaled extraction with the slot's layout, factor and offset (R191). -/
theorem exec_getsd_slot (T : Ty) {k : BitVec 4} {d : Desc} (hd : s.desc[k.toNat]? = some d) (hv : d.v = true) :
    exec (.getsd T k) s = .next (opGets T d.layout d.f d.o s) := by
  rw [exec_getsd, withSlot_some _ hd hv]

/-! ### The statements -/

/-- Settles O28: `GETS.T` is the scaled extraction of the word's layout operands with the packet's factor and
offset. -/
theorem getsExtractsScaledField : Obligations.GetsExtractsScaledField := by
  intro T le len start s l
  refine ⟨decodeWith_gets le len start Config.hasScale T, fun hasScale code => ?_,
    exec_of_opGets (exec_gets T le len start s)⟩
  exact (PositionalFamily.gets.refused_iff hasScale code le len start).trans (or_congr_left (and_iff_right rfl))

/-- Settles O29: `GETSD.T` is the scaled extraction with its slot's operands, whose length the invariant keeps legal,
or `NODESC`. -/
theorem getsdExtractsScaledSlotField : Obligations.GetsdExtractsScaledSlotField := by
  intro T k s
  refine ⟨decodeWith_getsd k Config.hasScale T, fun d hd hv => ?_, fun hnone => ?_⟩
  · obtain ⟨hfits, herror⟩ := exec_of_opGets (exec_getsd_slot T hd hv)
    exact ⟨hfits, herror, fun hs => hs.slot_layoutError_ne_length hd hv⟩
  · rw [exec_getsd, withSlot_none _ hnone]

end Sys2Proof.Machine
end

section
/-! PROOFS. The scaled insertions (44_scaled_set.md, R230, R231): what every instruction that is a scaled insertion
does, and its two statements settled. -/

namespace Sys2Proof.Machine

variable {T : Ty} {l : Layout} {f o : Word32} {s : State} {i : Instr}

/-! ### Scaled insertion (R230) -/

/-- Where the field fits and the quotient has a pattern, a scaled insertion is the insertion of that pattern. -/
theorem opSets_eq_opInsert {v : Word64} (hf : FieldFits Config.bufSize l)
    (hv : scaledPattern T (s.packet.a.setWidth 32) f o = some v) : opSets T l f o s = opInsert v l s := by
  rw [opSets_fits T f o hf, hv]

/-- Where the field fits and the quotient has no pattern, a scaled insertion raises `CONV`. -/
theorem opSets_conv (hf : FieldFits Config.bufSize l)
    (hv : scaledPattern T (s.packet.a.setWidth 32) f o = none) : opSets T l f o s = afterError .conv s := by
  rw [opSets_fits T f o hf, hv]

/-- An instruction that is a scaled insertion inserts the quotient's pattern, raises `CONV` where there is none, or
ends in the first failing layout check's error. -/
theorem exec_of_opSets (h : exec i s = .next (opSets T l f o s)) :
    (∀ v, Memory.wf s.buf = true → FieldFits Config.bufSize l →
      scaledPattern T (s.packet.a.setWidth 32) f o = some v →
      ∃ buf, Memory.wf buf = true ∧ FieldReplaced s.buf buf l v ∧
        (∀ j, j < l.start.toNat / 8 ∨ (l.start.toNat + l.len.toNat - 1) / 8 < j →
          Memory.read buf j = Memory.read s.buf j) ∧
        exec i s = .next { s with
          buf := buf
          sr := if 2 ^ l.len.toNat ≤ v.toNat then s.sr ||| 1#32 else s.sr
          resp := ⟨.ok, decide (2 ^ l.len.toNat ≤ v.toNat), 0#64⟩ }) ∧
    (FieldFits Config.bufSize l → scaledPattern T (s.packet.a.setWidth 32) f o = none →
      exec i s = .next (afterError .conv s)) ∧
    ∀ e, layoutError Config.bufSize l = some e → exec i s = .next (afterError e s) := by
  refine ⟨fun v hm hf hv => ?_, fun hf hv => ?_, fun e he => ?_⟩
  · obtain ⟨hinsert, -⟩ := exec_of_opInsert (h.trans (congrArg _ (opSets_eq_opInsert hf hv)))
    exact hinsert hm hf
  · rw [h, opSets_conv hf hv]
  · rw [h, opSets_error T f o he]

/-- On a constructed slot `SETSD.T` is the scaled insertion with the slot's layout, factor and offset (R231). -/
theorem exec_setsd_slot (T : Ty) {k : BitVec 4} {d : Desc} (hd : s.desc[k.toNat]? = some d) (hv : d.v = true) :
    exec (.setsd T k) s = .next (opSets T d.layout d.f d.o s) := by
  rw [exec_setsd, withSlot_some _ hd hv]

/-! ### The statements -/

/-- Settles O30: `SETS.T` is the scaled insertion at the word's layout operands with the packet's factor and
offset. -/
theorem setsInsertsScaledValue : Obligations.SetsInsertsScaledValue := by
  intro T le len start s l pattern
  refine ⟨decodeWith_sets le len start Config.hasScale T, fun hasScale code => ?_,
    exec_of_opSets (exec_sets T le len start s)⟩
  exact (PositionalFamily.sets.refused_iff hasScale code le len start).trans (or_congr_left (and_iff_right rfl))

/-- Settles O31: `SETSD.T` is the scaled insertion with its slot's operands, whose length the invariant keeps legal,
or `NODESC`. -/
theorem setsdInsertsScaledSlotValue : Obligations.SetsdInsertsScaledSlotValue := by
  intro T k s
  refine ⟨decodeWith_setsd k Config.hasScale T, fun d hd hv => ?_, fun hnone => ?_⟩
  · obtain ⟨hinsert, hconv, herror⟩ := exec_of_opSets (exec_setsd_slot T hd hv)
    exact ⟨hinsert, hconv, herror, fun hs => hs.slot_layoutError_ne_length hd hv⟩
  · rw [exec_setsd, withSlot_none _ hnone]

end Sys2Proof.Machine
end

section
/-! PROOFS. A zero factor in a scaled insertion (44_scaled_set.md, R222): the quotient by a zero has no integer, and
what is stored for `F32`. -/

namespace Sys2Proof.Machine

variable {T : Ty} {l : Layout} {f o p : Word32} {s : State} {i : Instr}

/-! ### Dividing by a zero (R176) -/

/-- A value whose quotient by a zero is invalid: a zero of either sign, or a NaN. -/
def IsZeroOrNan (x : Binary32) : Prop :=
  IsNan x ∨ ∃ neg e m, x = .finite neg e m ∧ magnitude e m = 0

theorem unpack_zero (hzero : f = 0x00000000#32 ∨ f = 0x80000000#32) :
    ∃ neg, Binary32.unpack f = .finite neg 0 0#23 := by
  rcases hzero with rfl | rfl
  · exact ⟨false, by decide⟩
  · exact ⟨true, by decide⟩

@[simp] theorem isZeroOrNan_nan (q : Config.NanPattern) : IsZeroOrNan (.nan q) := .inl ⟨q, rfl⟩

@[simp] theorem not_isZeroOrNan_inf (neg : Bool) : ¬ IsZeroOrNan (.inf neg) := by simp [IsZeroOrNan]

@[simp] theorem isZeroOrNan_finite (neg : Bool) (e : Fin 255) (m : BitVec 23) :
    IsZeroOrNan (.finite neg e m) ↔ magnitude e m = 0 := by simp [IsZeroOrNan]

/-- The quotient by a zero is a NaN or an infinity, by the kind of the dividend. -/
theorem Binary32.div_zero (x : Binary32) (t : Bool) :
    (IsZeroOrNan x → IsNan (x.div (.finite t 0 0#23))) ∧
      (¬ IsZeroOrNan x → ∃ neg, x.div (.finite t 0 0#23) = .inf neg) := by
  cases x with
  | nan q => exact ⟨fun _ => isNan_div (.inl ⟨q, rfl⟩), fun h => absurd (isZeroOrNan_nan q) h⟩
  | inf neg => exact ⟨fun h => absurd h (not_isZeroOrNan_inf neg), fun _ => ⟨_, rfl⟩⟩
  | finite neg e m =>
    have hzero : magnitude 0 0#23 = 0 := (magnitude_eq_zero ..).2 rfl
    obtain ⟨-, -, hnan, -, -, hinf, -⟩ := divisionRounds (.finite neg e m) (.inf t) neg t e 0 m 0#23
    rw [isZeroOrNan_finite]
    exact ⟨fun hm => hnan hm hzero, fun hm => ⟨_, hinf hm hzero⟩⟩

/-- With a zero factor the quotient is a NaN when `p - o` is a zero or a NaN, and an infinity otherwise (R222). -/
theorem scaledQuotient_zero (p o : Word32) (hzero : f = 0x00000000#32 ∨ f = 0x80000000#32) :
    (IsZeroOrNan ((Binary32.unpack p).sub (.unpack o)) → IsNan (scaledQuotient p f o)) ∧
      (¬ IsZeroOrNan ((Binary32.unpack p).sub (.unpack o)) → ∃ neg, scaledQuotient p f o = .inf neg) := by
  obtain ⟨t, ht⟩ := unpack_zero hzero
  rw [scaledQuotient, ht]
  exact Binary32.div_zero _ t

/-- With a zero factor no integer type has a pattern (R221, R222). -/
theorem scaledPattern_zero (hT : T ≠ .f32) (hzero : f = 0x00000000#32 ∨ f = 0x80000000#32) :
    scaledPattern T p f o = none := by
  have htrunc : (scaledQuotient p f o).trunc? = none := by
    obtain ⟨hnan, hinf⟩ := scaledQuotient_zero p o hzero
    by_cases hd : IsZeroOrNan ((Binary32.unpack p).sub (.unpack o))
    · obtain ⟨q, hq⟩ := hnan hd
      rw [hq, Binary32.trunc?]
    · obtain ⟨neg, hq⟩ := hinf hd
      rw [hq, Binary32.trunc?]
  rw [scaledPattern, if_neg hT, htrunc]

/-- For `F32` the quotient's pattern is stored whatever it is (R220). -/
theorem scaledPattern_f32 (p f o : Word32) :
    scaledPattern .f32 p f o = some ((scaledQuotient p f o).pack.setWidth 64) := rfl

/-! ### An insertion on any buffer -/

/-- Where the field fits an insertion succeeds, on a buffer in any form. -/
theorem insert_fits {n : Nat} (m : Memory) (v : Word64) (hf : FieldFits n l) :
    ∃ m' ovf, insert n m v l = .ok (m', ovf) := by
  rw [insert, layout_ok hf]
  exact ⟨_, _, rfl⟩

/-- A successful insertion changes the buffer, `SR[0]` on overflow and the response. -/
theorem opInsert_of_insert {v : Word64} {buf : Memory} {ovf : Bool}
    (h : insert Config.bufSize s.buf v l = .ok (buf, ovf)) :
    opInsert v l s =
      { s with buf := buf, sr := if ovf then s.sr ||| 1#32 else s.sr, resp := ⟨.ok, ovf, 0⟩ } := by
  rw [opInsert, h]
  exact succeed_ovf_eq ..

/-- An insertion into a field that fits changes nothing but the buffer, `SR` and the response, and on a canonical
buffer it replaces the field. -/
theorem opInsert_fits (s : State) (v : Word64) (hf : FieldFits Config.bufSize l) :
    (opInsert v l s).resp.err = .ok ∧
      (Memory.wf s.buf = true → FieldReplaced s.buf (opInsert v l s).buf l v) ∧
      opInsert v l s =
        { s with buf := (opInsert v l s).buf, sr := (opInsert v l s).sr, resp := (opInsert v l s).resp } := by
  obtain ⟨buf, ovf, hinsert⟩ := insert_fits s.buf v hf
  rw [opInsert_of_insert hinsert]
  refine ⟨rfl, fun hm => ?_, rfl⟩
  obtain ⟨-, hreplaced, -⟩ := insert_eq_ok hm hinsert
  exact hreplaced

/-! ### The statement -/

/-- Settles O32: the quotient by a zero is a NaN or an infinity, which no integer type can store and `F32` stores as
it is. -/
theorem zeroFactorEndsInConv : Obligations.ZeroFactorEndsInConv := by
  intro T l f o i s hi hf hzero diff zeroOrNan
  have h : exec i s = .next (opSets T l f o s) := by
    rcases hi with ⟨rfl, rfl, rfl⟩ | ⟨k, d, rfl, hd, hv, rfl, rfl, rfl⟩
    · exact exec_sets T l.le l.len l.start s
    · exact exec_setsd_slot T hd hv
  refine ⟨fun hT => by rw [h, opSets_conv hf (scaledPattern_zero hT hzero)], ?_⟩
  rintro rfl
  rw [opSets_eq_opInsert hf (scaledPattern_f32 ..)] at h
  obtain ⟨hnan, hinf⟩ := scaledQuotient_zero (s.packet.a.setWidth 32) o hzero
  obtain ⟨herr, hreplaced, hframe⟩ := opInsert_fits s _ hf
  exact ⟨_, _, h, herr, hnan, hinf, fun hm => ⟨opInsert_keeps_wf hm _ l, hreplaced hm⟩, hframe⟩

end Sys2Proof.Machine
end

section
/-! PROOFS. Reading back a scaled insertion (44_scaled_set.md, R224). -/

namespace Sys2Proof.Machine

variable {T : Ty} {l : Layout} {f o : Word32} {s : State}

/-- A scaled insertion that ends without an error inserted its pattern into a field that fits. -/
theorem opSets_eq_ok (herr : (opSets T l f o s).resp.err = .ok) :
    FieldFits Config.bufSize l ∧ ∃ v, scaledPattern T (s.packet.a.setWidth 32) f o = some v ∧
      opSets T l f o s = opInsert v l s := by
  cases hl : layoutError Config.bufSize l with
  | some e =>
    rw [opSets_error T f o hl] at herr
    exact absurd herr (layoutError_ne_ok hl)
  | none =>
    have hf := (layoutError_eq_none _ l).1 hl
    cases hv : scaledPattern T (s.packet.a.setWidth 32) f o with
    | none =>
      rw [opSets_conv hf hv] at herr
      cases herr
    | some v => exact ⟨hf, v, rfl, opSets_eq_opInsert hf hv⟩

/-- An insertion that drops no bit leaves the field holding the whole value (R101). -/
theorem opInsert_holdsField {v : Word64} (hm : Memory.wf s.buf = true) (hf : FieldFits Config.bufSize l)
    (hovf : (opInsert v l s).resp.ovf = false) : HoldsField (opInsert v l s).buf l v := by
  obtain ⟨buf, -, hreplaced, -, hinsert⟩ := opInsert_ok v hm hf
  rw [hinsert] at hovf ⊢
  have hlt : ¬ 2 ^ l.len.toNat ≤ v.toNat := of_decide_eq_false hovf
  exact hreplaced.holdsField (fun _ _ => rfl) fun j hj =>
    Bool.eq_false_iff.2 fun hv => hlt ((exists_bit_iff v _).1 ⟨j, hj, hv⟩)

/-- Settles O33: the field holds the stored pattern, which is what the scaled extraction reads. -/
theorem scaledRoundTrip : Obligations.ScaledRoundTrip := by
  intro T le len start s t u hm h herr hovf hbuf hfactor hoffset
  cases (exec_sets T le len start s).symm.trans h
  obtain ⟨hf, v, hv, hsets⟩ := opSets_eq_ok herr
  rw [hsets] at hovf hbuf
  obtain ⟨hgets, -⟩ := exec_of_opGets (exec_gets T le len start u)
  obtain ⟨raw, hraw, hu⟩ := hgets hf
  rw [hbuf] at hraw
  rw [hfactor, hoffset, holdsField_unique hraw (opInsert_holdsField hm hf hovf)] at hu
  exact ⟨v, hv, hu⟩

end Sys2Proof.Machine
end

section
/-! PROOFS. The descriptor instruction and the system functions (45_descriptor_system.md): the words of the `SYS`
functions, and what `DESC`, `RDB` and `WRB` do where their checks pass and where they fail. -/

namespace Sys2Proof

open Machine

section SysWords

variable {ty : BitVec 4} {start : BitVec 16} {i : Instr} {z : BitVec 8}

/-! ### The words of the `SYS` functions (R65, R71, R77) -/

/-- A `SYS` word: the function code, the eight must-be-zero bits `LE` and `LEN`, and `START`. -/
abbrev sysWord (ty : BitVec 4) (z : BitVec 8) (start : BitVec 16) : Word32 := 10#4 ++ ty ++ z ++ start

theorem fieldOp_sysWord : fieldOp (sysWord ty z start) = 10#4 := by
  rw [fieldOp, BitVec.extractLsb'_append_eq_of_le (by decide), BitVec.extractLsb'_append_eq_of_le (by decide)]
  exact BitVec.extractLsb'_append_eq_left

theorem fieldTy_sysWord : fieldTy (sysWord ty z start) = ty := by
  rw [fieldTy, BitVec.extractLsb'_append_eq_of_le (by decide), BitVec.extractLsb'_append_eq_of_le (by decide)]
  exact BitVec.extractLsb'_append_eq_right

theorem leLen_sysWord : (sysWord ty z start).extractLsb' 16 8 = z := by
  rw [BitVec.extractLsb'_append_eq_of_le (by decide)]
  exact BitVec.extractLsb'_append_eq_right

theorem fieldStart_sysWord : fieldStart (sysWord ty z start) = start :=
  BitVec.extractLsb'_append_eq_right

/-- With its must-be-zero bits zero, a `SYS` word is one the encoder lays out. -/
theorem sysWord_zero : sysWord ty 0#8 start = encodeFields 10#4 ty false 0#7 start := by
  obtain ⟨hle, hlen⟩ := le_len_of_zero (cw := sysWord ty 0#8 start) leLen_sysWord
  rw [← encodeFields_fields (sysWord ty 0#8 start), hle, hlen, fieldOp_sysWord, fieldTy_sysWord,
    fieldStart_sysWord]

theorem decode_sysWord_refused (h : z ≠ 0#8 ∨ ty.toNat ≤ 5 ∧ start ≠ 0#16) :
    ∃ r, decode (sysWord ty z start) = .error r := by
  rw [decode, decodeWith_sys _ fieldOp_sysWord]
  apply decodeSys_refuses
  rw [fieldTy_sysWord, leLen_sysWord, fieldStart_sysWord]
  exact .inr h

/-- The word of a function and its `START` decodes to it, and with another of bits 23:16 set is illegal. -/
theorem SysFunction.decode_sysWord (h : SysFunction ty start i) (z : BitVec 8) :
    (z = 0#8 → decode (sysWord ty z start) = .ok i) ∧
      (z ≠ 0#8 → ∃ r, decode (sysWord ty z start) = .error r) := by
  refine ⟨?_, fun hz => decode_sysWord_refused (.inl hz)⟩
  rintro rfl
  rw [sysWord_zero]
  exact h.decodeWith_word _

/-- The word of a function without a byte index decodes to it, and with any bit below the function code set is
illegal. -/
theorem SysFunction.decode_noIndex (h : SysFunction ty 0#16 i) (hty : ty.toNat ≤ 5) (z : BitVec 24) :
    (z = 0#24 → decode (10#4 ++ ty ++ z) = .ok i) ∧
      (z ≠ 0#24 → ∃ r, decode (10#4 ++ ty ++ z) = .error r) := by
  have hz : z.extractLsb' 16 8 ++ z.extractLsb' 0 16 = z := BitVec.extractLsb'_append_extractLsb'
  have hword : 10#4 ++ ty ++ z = sysWord ty (z.extractLsb' 16 8) (z.extractLsb' 0 16) := by
    rw [sysWord, BitVec.append_assoc (x₁ := 10#4 ++ ty), hz]
    rfl
  rw [hword]
  constructor
  · rintro rfl
    exact (h.decode_sysWord 0#8).1 rfl
  · refine fun hne => decode_sysWord_refused ?_
    by_contra hzero
    push Not at hzero
    obtain ⟨hhigh, hlow⟩ := hzero
    rw [hhigh, hlow hty] at hz
    exact hne hz.symm

end SysWords

namespace Machine

variable {s : State} {k : BitVec 4} {le : Bool} {len : BitVec 7} {start index : BitVec 16}

/-! ### `DESC` (R260) -/

theorem exec_desc_absent (hk : Config.nDesc ≤ k.toNat) :
    exec (.desc k le len start) s = .next (afterError .nodesc s) := by
  rw [exec, execDesc, if_pos hk, raise_eq_afterError (by decide)]

theorem exec_desc_length (hk : k.toNat < Config.nDesc) (hlen : len.toNat = 0 ∨ 64 < len.toNat) :
    exec (.desc k le len start) s = .next (afterError .length s) := by
  rw [exec, execDesc, if_neg (by omega), if_pos hlen, raise_eq_afterError (by decide)]

theorem exec_desc_constructs (hk : k.toNat < Config.nDesc) (hpos : 1 ≤ len.toNat) (hle : len.toNat ≤ 64) :
    exec (.desc k le len start) s =
      .next { s with
        desc := setSlot s.desc k (constructedSlot le len start s.packet)
        resp := ⟨.ok, false, 0#64⟩ } := by
  rw [exec, execDesc, if_neg (by omega), if_neg (by omega), succeed_eq]
  rfl

/-! ### `RDSR` and `FRD`: what they pack (R262, R266) -/

/-- Two status words side by side, as a number. -/
theorem append_eq_ofNat (x y : Word32) : x ++ y = BitVec.ofNat 64 (x.toNat * 2 ^ 32 + y.toNat) := by
  apply BitVec.eq_of_toNat_eq
  rw [BitVec.toNat_append, ← Nat.shiftLeft_add_eq_or_of_lt y.isLt, Nat.shiftLeft_eq, BitVec.toNat_ofNat,
    Nat.mod_eq_of_lt (by omega)]

/-- `FrameValid()` in the words of R25. -/
theorem Header.valid_eq (h : Header) :
    h.valid = decide (¬ (h.rtr = true ∧ h.fdf = true) ∧ ¬ (h.brs = true ∧ h.fdf = false) ∧ h.dlen.toNat ≤ 64) := by
  rw [Bool.eq_iff_iff, decide_eq_true_iff]
  simp only [Header.valid, Bool.and_eq_true, Bool.not_eq_true', ← Bool.not_eq_true, decide_eq_true_eq, and_assoc]

/-! ### `RDB` and `WRB` (R267, R268) -/

theorem exec_rdb_inside (hi : index.toNat < Config.bufSize) : exec (.rdb index) s =
    .next { s with resp := ⟨.ok, false, (Memory.read s.buf index.toNat).setWidth 64⟩ } := by
  rw [exec, execRdb, if_neg (by omega), succeed_eq]

theorem exec_rdb_outside (hi : Config.bufSize ≤ index.toNat) :
    exec (.rdb index) s = .next (afterError .bounds s) := by
  rw [exec, execRdb, if_pos hi, raise_eq_afterError (by decide)]

theorem exec_wrb_inside (hi : index.toNat < Config.bufSize) : exec (.wrb index) s =
    .next { s with
      buf := Memory.write s.buf index.toNat (s.packet.a.setWidth 8)
      resp := ⟨.ok, false, 0#64⟩ } := by
  rw [exec, execWrb, if_neg (by omega), succeed_eq]
  rfl

theorem exec_wrb_outside (hi : Config.bufSize ≤ index.toNat) :
    exec (.wrb index) s = .next (afterError .bounds s) := by
  rw [exec, execWrb, if_pos hi, raise_eq_afterError (by decide)]

/-! ### Extracting one whole byte (R106, R267) -/

variable {l : Layout} {b0 : Nat}

/-- A raw extraction of eight bits on a byte boundary reads that byte, in either mode. -/
theorem opGet_byte (hstart : l.start.toNat = 8 * b0) (hlen : l.len.toNat = 8) (hb : b0 < Config.bufSize) :
    opGet .u8 l s = { s with resp := ⟨.ok, false, (Memory.read s.buf b0).setWidth 64⟩ } := by
  have hbyte : extract Config.bufSize s.buf l = .ok ((Memory.read s.buf b0).setWidth 64) := by
    rw [extract_singleByte s.buf (sub := 0) hstart hb (by omega) (by omega), hlen, ite_self,
      BitVec.extractLsb'_eq_self]
  have hpattern : Ty.u8.pattern ((Memory.read s.buf b0).setWidth 64) = (Memory.read s.buf b0).setWidth 64 := by
    simp [Ty.pattern, Ty.width]
  rw [opGet, hbyte]
  simp only [hpattern, succeed_eq]

/-- Beyond the buffer it is `BOUNDS`. -/
theorem opGet_byte_outside (hstart : l.start.toNat = 8 * b0) (hlen : l.len.toNat = 8)
    (hb : Config.bufSize ≤ b0) : opGet .u8 l s = afterError .bounds s := by
  apply opGet_error
  rw [layoutError, if_neg (by omega), if_neg (by omega), if_pos (by omega)]

/-- `RDB` is the raw extraction of its byte wherever the byte's start bit is a 16-bit number. -/
theorem exec_rdb_eq_get (hi : 8 * index.toNat < 2 ^ 16) (le : Bool) :
    exec (.rdb index) s = exec (.getU8 le 8#7 (BitVec.ofNat 16 (8 * index.toNat))) s := by
  have hstart : (BitVec.ofNat 16 (8 * index.toNat)).toNat = 8 * index.toNat := by
    rw [BitVec.toNat_ofNat, Nat.mod_eq_of_lt hi]
  have hget := exec_get .u8 le 8#7 (BitVec.ofNat 16 (8 * index.toNat)) s
  refine Eq.trans ?_ hget.symm
  rcases Nat.lt_or_ge index.toNat Config.bufSize with h | h
  · rw [exec_rdb_inside h, opGet_byte hstart rfl h]
  · rw [exec_rdb_outside h, opGet_byte_outside hstart rfl h]

end Machine

end Sys2Proof
end

section
/-! PROOFS. The statements about the descriptor instruction and the system functions, settled. -/

namespace Sys2Proof.Machine

/-- Settles O34. -/
theorem descConstructsSlot : Obligations.DescConstructsSlot := by
  intro k le len start s
  refine ⟨decodeWith_desc k le len start _, exec_desc_absent, exec_desc_length, fun hk hpos hle => ?_⟩
  exact ⟨_, exec_desc_constructs hk hpos hle, setSlot_same _ hk _, fun j hj => setSlot_other _ hj _⟩

/-- Settles O42. -/
theorem rdbReadsByte : Obligations.RdbReadsByte := by
  intro index s
  exact ⟨(SysFunction.rdb index).decode_sysWord, exec_rdb_inside, exec_rdb_outside,
    fun hi => exec_rdb_eq_get hi true⟩

/-- Settles O43: what a write does to every read of a canonical buffer. -/
theorem wrbWritesByte : Obligations.WrbWritesByte := by
  intro index s
  refine ⟨(SysFunction.wrb index).decode_sysWord, fun hm hi => ?_, exec_wrb_outside⟩
  have hread := read_write hm index.toNat (v := s.packet.a.setWidth 8)
  exact ⟨_, wfFrom_write hm (Nat.zero_le _) hi _, (hread _).trans (if_pos rfl),
    fun i hne => (hread i).trans (if_neg hne), exec_wrb_inside hi⟩

/-- Settles O35: the word that decodes to `NOP` is the one `NOP` is encoded as. -/
theorem nopChangesNothing : Obligations.NopChangesNothing := by
  refine ⟨fun s => ?_, SysFunction.nop.decode_noIndex (by decide), fun cw => ⟨fun h => ?_, ?_⟩⟩
  · rw [exec, execNop, succeed_eq]
    rfl
  · obtain ⟨hencode, -⟩ := encodeDecodeRoundTrip _ _ _ h
    exact hencode.symm
  · rintro rfl
    exact decode_of_encode rfl

/-- Settles O36. -/
theorem rdsrReadsStatus : Obligations.RdsrReadsStatus := by
  refine ⟨fun s => ?_, SysFunction.rdsr.decode_noIndex (by decide)⟩
  rw [exec, execRdsr, succeed_eq, append_eq_ofNat]

/-- Settles O37. -/
theorem clrsrClearsStatus : Obligations.ClrsrClearsStatus := by
  refine ⟨fun s => ?_, SysFunction.clrsr.decode_noIndex (by decide)⟩
  rw [exec, execClrsr, succeed_eq]
  rfl

/-- Settles O38. -/
theorem fclrDefaultsFrame : Obligations.FclrDefaultsFrame := by
  refine ⟨fun s => ⟨s.buf.clear, read_clear s.buf, wf_clear s.buf, ?_⟩,
    SysFunction.fclr.decode_noIndex (by decide)⟩
  rw [exec, execFclr, succeed_eq]
  rfl

/-- Settles O39. -/
theorem fwrWritesHeader : Obligations.FwrWritesHeader := by
  refine ⟨fun s => ?_, SysFunction.fwr.decode_noIndex (by decide)⟩
  rw [exec, execFwr, succeed_eq]
  rfl

/-- Settles O40. -/
theorem frdReadsHeader : Obligations.FrdReadsHeader := by
  refine ⟨fun s => ?_, SysFunction.frd.decode_noIndex (by decide)⟩
  rw [exec, execFrd, succeed_eq, Header.pack, Header.valid_eq]

end Sys2Proof.Machine
end

section
/-! PROOFS. Exceptions (60_exceptions.md): every step completes, what a command that reports an error leaves, and
that the status registers never gate a later command. -/

namespace Sys2Proof.Machine

variable {s s' t t' : State} {p : Packet} {rest : List HostEvent} {i : Instr}

/-! ### Every step completes (R302, R326) -/

theorem step_idle (h : s.inputs = []) : step s = .next s := by
  simp only [step, h]

theorem step_next (s : State) : ∃ t, step s = .next t := by
  match h : s.inputs with
  | [] => exact ⟨s, step_idle h⟩
  | .reset :: rest => exact ⟨_, step_reset h⟩
  | .command p :: rest =>
    cases hd : decode p.cw with
    | error r => exact ⟨_, step_illegal h hd⟩
    | ok i =>
      obtain ⟨t, ht⟩ := exec_next i s
      exact ⟨_, step_exec h hd ht⟩

/-! ### A command that reports an error (R290, R300) -/

/-- A command that ends in an error has done what taking that error does, and nothing else. -/
theorem EndsWith.eq_raise {r : Response} {u : State} (h : EndsWith s r u t) (herr : r.err ≠ .ok) :
    t = raise r.err s := by
  obtain ⟨err, ovf, data⟩ := r
  obtain ⟨rfl, rfl, rfl⟩ := h.error herr
  exact h.eq

theorem step_error_eq_raise (h : s.inputs = .command p :: rest) (ht : step s = .next t)
    (herr : t.resp.err ≠ .ok) : t = retire rest (raise t.resp.err s) := by
  by_cases hd : decode p.cw = .ok .clrsr
  · cases (step_clrsr h hd).symm.trans ht
    exact absurd rfl herr
  · obtain ⟨r, u, v, rfl, hend, -⟩ := step_endsWith h hd ht
    rw [retire_resp, hend.resp_eq] at herr ⊢
    rw [← hend.eq_raise herr]

/-- Bit 0 of `SR` is the sticky overflow bit, which no error sets: their codes begin at 1 (R29, R291). -/
theorem raise_overflowBit {e : Err} (he : e ≠ .ok) (s : State) :
    (raise e s).sr.getLsbD 0 = s.sr.getLsbD 0 := by
  obtain ⟨hpos, -⟩ := code_range e he
  have hcode : 0 ≠ e.code := by omega
  rw [raise, complete_sr, srAfter_getLsbD]
  simp [hcode]

/-! ### `SR` and `ECW` gate nothing (R301) -/

/-- Two states alike in the response, the buffer, the header and the slots: in all but the status registers and
what the host presents. -/
structure SameBesideStatus (t t' : State) : Prop where
  resp : t'.resp = t.resp
  buf : t'.buf = t.buf
  fh : t'.fh = t.fh
  desc : t'.desc = t.desc

theorem SameEnd.sameBesideStatus (h : SameEnd s s' t t') : SameBesideStatus t t' := by
  obtain ⟨r, buf, fh, desc, rfl, rfl⟩ := h
  exact ⟨rfl, rfl, rfl, rfl⟩

theorem SameBesideStatus.retire (h : SameBesideStatus t t') (rest : List HostEvent) :
    SameBesideStatus (retire rest t) (retire rest t') :=
  ⟨h.resp, h.buf, h.fh, h.desc⟩

/-- `RDSR` alone reads the status registers; `CLRSR` writes them whatever they held (R262, R263). -/
theorem exec_withStatus (hi : i ≠ .rdsr) (h : exec i s = .next t) (sr ecw : Word32) :
    ∃ u, exec i { s with sr := sr, ecw := ecw } = .next u ∧ SameBesideStatus t u := by
  by_cases hclrsr : i = .clrsr
  · subst hclrsr
    cases h
    exact ⟨_, rfl, rfl, rfl, rfl, rfl⟩
  · obtain ⟨t', u, ht', hu, hsame⟩ :=
      exec_sameEnd (s := s) (s' := { s with sr := sr, ecw := ecw }) rfl rfl rfl i
        (fun _ => rfl) (fun _ => ⟨rfl, rfl⟩) hi hclrsr
    cases h.symm.trans ht'
    exact ⟨u, hu, hsame.sameBesideStatus⟩

theorem step_withStatus (h : s.inputs = .command p :: rest) (hd : decode p.cw ≠ .ok .rdsr)
    (ht : step s = .next t) (sr ecw : Word32) :
    ∃ u, step { s with sr := sr, ecw := ecw } = .next u ∧ SameBesideStatus t u := by
  rcases step_command_cases h ht with ⟨⟨r, hr⟩, rfl⟩ | ⟨i, v, hi, hv, rfl⟩
  · exact ⟨_, step_illegal h hr, rfl, rfl, rfl, rfl⟩
  · have hrdsr : i ≠ .rdsr := by
      rintro rfl
      exact hd hi
    obtain ⟨u, hu, hsame⟩ := exec_withStatus hrdsr hv sr ecw
    exact ⟨_, step_exec h hi hu, hsame.retire rest⟩

/-! ### The statements -/

/-- Settles O15: a command that ends in an error takes it and is retired. -/
theorem faultingCommandWritesNothing : Obligations.FaultingCommandWritesNothing := by
  intro s t p rest h ht herr
  have hraise := step_error_eq_raise h ht herr
  constructor
  · rwa [raise_eq_afterError herr] at hraise
  · rw [hraise]
    exact raise_overflowBit herr s

/-- Settles O22: an illegal word reads no state, and an instruction other than `RDSR` does the same under any
status. -/
theorem statusNeverGates : Obligations.StatusNeverGates := by
  intro s t sr ecw p rest h hd ht
  obtain ⟨u, hu, hsame⟩ := step_withStatus h hd ht sr ecw
  exact ⟨u, hu, hsame.resp, hsame.buf, hsame.fh, hsame.desc⟩

/-- Settles O9. -/
theorem idleStepChangesNothing : Obligations.IdleStepChangesNothing :=
  fun _ h => step_idle h

/-- Settles O10, by the event presented. -/
theorem everyStepCompletes : Obligations.EveryStepCompletes := step_next

end Sys2Proof.Machine
end

section
/-! PROOFS. Reset (70_reset_and_hazards.md): what the reset event leaves, and what the instructions answer in the reset
state. -/

namespace Sys2Proof.Machine

variable {m : Memory} {l : Layout} {s : State} {i : Instr}

/-! ### Extraction from a zero buffer (R96, R110) -/

/-- On a buffer of zero bytes every field's value is zero. -/
theorem holdsField_zero (h : ∀ j, Memory.read m j = 0#8) : HoldsField m l 0#64 := by
  constructor
  · intro b _
    rw [numberedBit, h, BitVec.getLsbD_zero, BitVec.getLsbD_zero]
  · intro j _
    exact BitVec.getLsbD_zero

/-- On a buffer of zero bytes an instruction that is a raw extraction answers zero wherever the field fits. -/
theorem exec_of_opGet_zero {T : Ty} (h : exec i s = .next (opGet T l s)) (hzero : ∀ j, Memory.read s.buf j = 0#8)
    (hf : FieldFits Config.bufSize l) : exec i s = .next { s with resp := ⟨.ok, false, 0#64⟩ } := by
  obtain ⟨hfits, -⟩ := exec_of_opGet h
  obtain ⟨raw, hraw, hnext⟩ := hfits hf
  obtain rfl : raw = 0#64 := holdsField_unique hraw (holdsField_zero hzero)
  simpa using hnext

/-! ### Descriptor-bound instructions without a slot (R293) -/

/-- Without a constructed slot `k` each of the four descriptor-bound families ends in `NODESC`. -/
theorem exec_bound_nodesc (T : Ty) (k : BitVec 4) (s : State) (h : ∀ d, s.desc[k.toNat]? = some d → d.v = false) :
    exec (.getd T k) s = .next (afterError .nodesc s) ∧
      exec (.setd T k) s = .next (afterError .nodesc s) ∧
      exec (.getsd T k) s = .next (afterError .nodesc s) ∧
      exec (.setsd T k) s = .next (afterError .nodesc s) := by
  rw [exec_getd, exec_setd, exec_getsd, exec_setsd]
  simp only [withSlot_none _ h, and_self]

/-! ### The reset state (R321) -/

/-- No slot is constructed in the reset state (R28, R35). -/
theorem reset_slot_unconstructed {j : Nat} {d : Desc} (h : State.reset.desc[j]? = some d) : d.v = false := by
  obtain ⟨-, -, hslots, -⟩ := resetStateValues
  obtain ⟨hj, -⟩ := Vector.getElem?_eq_some_iff.1 h
  cases (hslots j hj).symm.trans h
  rfl

/-- The reset header is valid, and every field of it is zero (R24, R25). -/
theorem pack_reset : Header.reset.pack = 0x0000010000000000#64 := by decide

/-! ### The statements -/

/-- Settles O6: the event leaves the reset state's items, whose values O7 gives. -/
theorem resetEventRestoresResetValues : Obligations.ResetEventRestoresResetValues :=
  fun _ rest h => ⟨resetEvent rest _, step_reset h, resetStateValues⟩

/-- Settles O8: the reset header packs to `VALID` alone, the buffer reads zero, and no slot is constructed. -/
theorem resetConsequences : Obligations.ResetConsequences := by
  intro inputs s
  obtain ⟨hbuf, -⟩ := resetStateValues
  refine ⟨?_, ?_, fun T le len start => exec_of_opGet_zero (exec_get T le len start s) hbuf,
    fun T k => exec_bound_nodesc T k s fun _ => reset_slot_unconstructed⟩
  · have hpack : s.fh.pack = 0x0000010000000000#64 := pack_reset
    rw [exec, execFrd, succeed_eq, hpack]
  · have hstatus : s.ecw ++ s.sr = 0#64 := BitVec.zero_append_zero
    rw [exec, execRdsr, succeed_eq, hstatus]

end Sys2Proof.Machine
end
